-- ==== Sys2Proof/Word.lean ====
section
/-! DEFINITION. The block's words: bytes, the 32-bit data word, the 40-bit request and packet words, the 34-bit
response word (R8, R90), and the exclusive OR of four bytes (R9). -/

namespace Sys2Proof

/-- A queue element, a packet field (R6: 8 bits, fixed). -/
abbrev Byte := BitVec 8

/-- The `data` field of a request or response (R110, R120). -/
abbrev DataWord := BitVec 32

/-- A request word `REQ` (R110), and the packet word `W` of R91: both are 40 bits wide. -/
abbrev Word40 := BitVec 40

/-- A response word `RSP` (R120). -/
abbrev RspWord := BitVec 34

/-- `XOR4` of R9. -/
def xor4 (a b c d : Byte) : Byte := a ^^^ b ^^^ c ^^^ d

end Sys2Proof
end

