-- ==== Sys2Proof/Syntax.lean ====
section
/-! DEFINITION. The operations and wire commands of the opcode table: one constructor of `Instr` per row
(R111 for the operations, R101 to R109 for the wire commands), with every operand field the row has. -/

namespace Sys2Proof

/-- The queue select `q` (R27): `q = 0` names `RXQ`, `q = 1` names `TXQ`. -/
inductive QSel where
  | rxq
  | txq
  deriving DecidableEq, Repr

/-- The two fixed-width formats an instruction word of the table can have (R90). -/
inductive Format where
  /-- A request word on a port (R110). -/
  | req
  /-- A wire packet (R91). -/
  | pkt
  deriving DecidableEq, Repr

/-- Five bytes in wire order (R91). The framer's window `F[0..4]` (R29) and `enc_b[0..4]` (R32) have this shape. -/
structure Frame where
  command : Byte
  parameter1 : Byte
  parameter2 : Byte
  parameter3 : Byte
  checksum : Byte
  deriving DecidableEq, Repr

/-- The thirteen operations (R111) and the nine wire commands (R101 to R109).
A wire command carries what its row of the table leaves free: the acknowledge bit (R95), three parameter bytes and
the checksum byte as it stands on the wire. -/
inductive Instr where
  | nop
  | qInit (q : QSel)
  | qPush (q : QSel) (b : Byte)
  | qPop (q : QSel)
  | tpInit
  | rxEvent (b : Byte)
  | txEvent
  | tryRecv
  | trySend (b : Byte)
  | frInit
  | feed (b : Byte)
  | poll
  | encode (c p1 p2 p3 : Byte)
  | cmdStartup (ack : Bool) (p1 p2 p3 chk : Byte)
  | cmdFlashProgram (ack : Bool) (p1 p2 p3 chk : Byte)
  | cmdFlashRead (ack : Bool) (p1 p2 p3 chk : Byte)
  | cmdVersion (ack : Bool) (p1 p2 p3 chk : Byte)
  | cmdProtocolMode (ack : Bool) (p1 p2 p3 chk : Byte)
  | cmdTowerNumber (ack : Bool) (p1 p2 p3 chk : Byte)
  | cmdTime (ack : Bool) (p1 p2 p3 chk : Byte)
  | cmdTowerMode (ack : Bool) (p1 p2 p3 chk : Byte)
  | cmdAnalogInput (ack : Bool) (p1 p2 p3 chk : Byte)
  deriving DecidableEq, Repr

end Sys2Proof
end

