-- ==== Sys2Proof/WellFormed.lean ====
section
/-! DEFINITION. What the operand types do not already say: the five bytes of a wire command are a packet exactly when
the fifth is the XOR of the four before it (R92). Every operand of an operation is well formed by its type. -/

namespace Sys2Proof

/-- A packet's checksum is the XOR of the preceding four bytes (R92). -/
def Frame.valid (r : Frame) : Bool := xor4 r.command r.parameter1 r.parameter2 r.parameter3 == r.checksum

/-- The command byte of a code `k` and an acknowledge bit, `k` or `k | 0x80` (R95). -/
def wireCommand (code : Byte) (ack : Bool) : Byte := if ack then code ||| 0x80 else code

/-- An instruction's check: none for an operation, the checksum of R92 for a wire command. -/
def Instr.wellFormed : Instr → Bool
  | .nop | .qInit _ | .qPush _ _ | .qPop _ | .tpInit | .rxEvent _ | .txEvent | .tryRecv | .trySend _ | .frInit
  | .feed _ | .poll | .encode _ _ _ _ => true
  | .cmdStartup a p1 p2 p3 k => (Frame.mk (wireCommand 0x04 a) p1 p2 p3 k).valid
  | .cmdFlashProgram a p1 p2 p3 k => (Frame.mk (wireCommand 0x07 a) p1 p2 p3 k).valid
  | .cmdFlashRead a p1 p2 p3 k => (Frame.mk (wireCommand 0x08 a) p1 p2 p3 k).valid
  | .cmdVersion a p1 p2 p3 k => (Frame.mk (wireCommand 0x09 a) p1 p2 p3 k).valid
  | .cmdProtocolMode a p1 p2 p3 k => (Frame.mk (wireCommand 0x0A a) p1 p2 p3 k).valid
  | .cmdTowerNumber a p1 p2 p3 k => (Frame.mk (wireCommand 0x0B a) p1 p2 p3 k).valid
  | .cmdTime a p1 p2 p3 k => (Frame.mk (wireCommand 0x0C a) p1 p2 p3 k).valid
  | .cmdTowerMode a p1 p2 p3 k => (Frame.mk (wireCommand 0x0D a) p1 p2 p3 k).valid
  | .cmdAnalogInput a p1 p2 p3 k => (Frame.mk (wireCommand 0x50 a) p1 p2 p3 k).valid

end Sys2Proof
end

