-- ==== Sys2Proof/Decode.lean ====
section
/-! DEFINITION. The decoder of request words (R110 to R113) and of packet words (R91, R95, R101 to R109), total on
any word and rejecting by name, and the encoder after it. -/

namespace Sys2Proof

/-- Why a word is no instruction. -/
inductive DecodeError where
  /-- `op` is 0xD, 0xE or 0xF (R125): on every port the request is refused. -/
  | reservedOperation (op : BitVec 4)
  /-- The command code is none of the nine of R101 to R109 (R97): the packet has no row of the table, and the block
  carries its bytes like any others. -/
  | unrecognisedCommand (code : BitVec 7)
  deriving DecidableEq, Repr

/-! ### The fields of a request word (R110, R112) -/

/-- `REQ[39:36]`. -/
def reqOp (w : Word40) : BitVec 4 := w.extractLsb' 36 4

/-- `REQ[35]` as the queue it selects (R27, R110). -/
def reqQ (w : Word40) : QSel := if w.getLsbD 35 then .txq else .rxq

/-- `data[7:0]`, the one-byte operand (R112). -/
def reqB (w : Word40) : Byte := w.extractLsb' 0 8

/-- `data[31:24]`, `ENCODE`'s command (R112). -/
def reqC (w : Word40) : Byte := w.extractLsb' 24 8

/-- `data[23:16]`, `ENCODE`'s first parameter (R112). -/
def reqP1 (w : Word40) : Byte := w.extractLsb' 16 8

/-- `data[15:8]`, `ENCODE`'s second parameter (R112). -/
def reqP2 (w : Word40) : Byte := w.extractLsb' 8 8

/-- `data[7:0]`, `ENCODE`'s third parameter (R112). -/
def reqP3 (w : Word40) : Byte := w.extractLsb' 0 8

/-- The operation of a request word: codes 0x0 to 0xC of R111; 0xD, 0xE, 0xF are reserved (R125). -/
def decodeReq (w : Word40) : Except DecodeError Instr :=
  match (reqOp w).toNat with
  | 0x0 => .ok .nop
  | 0x1 => .ok (.qInit (reqQ w))
  | 0x2 => .ok (.qPush (reqQ w) (reqB w))
  | 0x3 => .ok (.qPop (reqQ w))
  | 0x4 => .ok .tpInit
  | 0x5 => .ok (.rxEvent (reqB w))
  | 0x6 => .ok .txEvent
  | 0x7 => .ok .tryRecv
  | 0x8 => .ok (.trySend (reqB w))
  | 0x9 => .ok .frInit
  | 0xA => .ok (.feed (reqB w))
  | 0xB => .ok .poll
  | 0xC => .ok (.encode (reqC w) (reqP1 w) (reqP2 w) (reqP3 w))
  | _ => .error (.reservedOperation (reqOp w))

/-! ### The fields of a packet word (R91, R95) -/

/-- `W[39]`, bit 7 of the command byte: the acknowledge bit (R95). -/
def pktAck (w : Word40) : Bool := w.getLsbD 39

/-- `W[38:32]`, the command code (R95). -/
def pktCode (w : Word40) : BitVec 7 := w.extractLsb' 32 7

/-- The five bytes of a packet word, the first on the wire in `W[39:32]` (R91). -/
def pktFrame (w : Word40) : Frame where
  command := w.extractLsb' 32 8
  parameter1 := w.extractLsb' 24 8
  parameter2 := w.extractLsb' 16 8
  parameter3 := w.extractLsb' 8 8
  checksum := w.extractLsb' 0 8

/-- The wire command of a packet word: the nine codes of R101 to R109. -/
def decodePkt (w : Word40) : Except DecodeError Instr :=
  let r := pktFrame w
  match (pktCode w).toNat with
  | 0x04 => .ok (.cmdStartup (pktAck w) r.parameter1 r.parameter2 r.parameter3 r.checksum)
  | 0x07 => .ok (.cmdFlashProgram (pktAck w) r.parameter1 r.parameter2 r.parameter3 r.checksum)
  | 0x08 => .ok (.cmdFlashRead (pktAck w) r.parameter1 r.parameter2 r.parameter3 r.checksum)
  | 0x09 => .ok (.cmdVersion (pktAck w) r.parameter1 r.parameter2 r.parameter3 r.checksum)
  | 0x0A => .ok (.cmdProtocolMode (pktAck w) r.parameter1 r.parameter2 r.parameter3 r.checksum)
  | 0x0B => .ok (.cmdTowerNumber (pktAck w) r.parameter1 r.parameter2 r.parameter3 r.checksum)
  | 0x0C => .ok (.cmdTime (pktAck w) r.parameter1 r.parameter2 r.parameter3 r.checksum)
  | 0x0D => .ok (.cmdTowerMode (pktAck w) r.parameter1 r.parameter2 r.parameter3 r.checksum)
  | 0x50 => .ok (.cmdAnalogInput (pktAck w) r.parameter1 r.parameter2 r.parameter3 r.checksum)
  | _ => .error (.unrecognisedCommand (pktCode w))

/-- The decoder: a word of either format. What stands on a port is a request, what travels on the link is a packet;
no bit of a word says which. -/
def decode : Format → Word40 → Except DecodeError Instr
  | .req, w => decodeReq w
  | .pkt, w => decodePkt w

/-! ### The encoder -/

/-- `REQ[35]` of a queue select (R27). -/
def qBit : QSel → BitVec 1
  | .rxq => 0
  | .txq => 1

/-- A request word from its fields, the unused bits 34:32 zero (R110, R113). -/
def packReq (op : BitVec 4) (q : BitVec 1) (data : DataWord) : Word40 :=
  (op.setWidth 40 <<< 36) ||| (q.setWidth 40 <<< 35) ||| data.setWidth 40

/-- Four bytes in a data word, the first most significant (R112). -/
def packData (c p1 p2 p3 : Byte) : DataWord :=
  (c.setWidth 32 <<< 24) ||| (p1.setWidth 32 <<< 16) ||| (p2.setWidth 32 <<< 8) ||| p3.setWidth 32

/-- The command byte of a code with its acknowledge bit on top (R95). -/
def commandByte (ack : Bool) (code : BitVec 7) : Byte := ((BitVec.ofBool ack).setWidth 8 <<< 7) ||| code.setWidth 8

/-- The five bytes of a wire command (R91). -/
def commandFrame (code : BitVec 7) (ack : Bool) (p1 p2 p3 chk : Byte) : Frame where
  command := commandByte ack code
  parameter1 := p1
  parameter2 := p2
  parameter3 := p3
  checksum := chk

/-- The packet word of five bytes (R91). -/
def packPkt (r : Frame) : Word40 :=
  (r.command.setWidth 40 <<< 32) ||| (r.parameter1.setWidth 40 <<< 24) ||| (r.parameter2.setWidth 40 <<< 16) |||
    (r.parameter3.setWidth 40 <<< 8) ||| r.checksum.setWidth 40

/-- The canonical word of an instruction: unused bits zero (R111, R113; R91 for a wire command). -/
def encode : Instr → Word40
  | .nop => packReq 0x0 0 0
  | .qInit q => packReq 0x1 (qBit q) 0
  | .qPush q b => packReq 0x2 (qBit q) (b.setWidth 32)
  | .qPop q => packReq 0x3 (qBit q) 0
  | .tpInit => packReq 0x4 0 0
  | .rxEvent b => packReq 0x5 0 (b.setWidth 32)
  | .txEvent => packReq 0x6 0 0
  | .tryRecv => packReq 0x7 0 0
  | .trySend b => packReq 0x8 0 (b.setWidth 32)
  | .frInit => packReq 0x9 0 0
  | .feed b => packReq 0xA 0 (b.setWidth 32)
  | .poll => packReq 0xB 0 0
  | .encode c p1 p2 p3 => packReq 0xC 0 (packData c p1 p2 p3)
  | .cmdStartup a p1 p2 p3 k => packPkt (commandFrame 0x04 a p1 p2 p3 k)
  | .cmdFlashProgram a p1 p2 p3 k => packPkt (commandFrame 0x07 a p1 p2 p3 k)
  | .cmdFlashRead a p1 p2 p3 k => packPkt (commandFrame 0x08 a p1 p2 p3 k)
  | .cmdVersion a p1 p2 p3 k => packPkt (commandFrame 0x09 a p1 p2 p3 k)
  | .cmdProtocolMode a p1 p2 p3 k => packPkt (commandFrame 0x0A a p1 p2 p3 k)
  | .cmdTowerNumber a p1 p2 p3 k => packPkt (commandFrame 0x0B a p1 p2 p3 k)
  | .cmdTime a p1 p2 p3 k => packPkt (commandFrame 0x0C a p1 p2 p3 k)
  | .cmdTowerMode a p1 p2 p3 k => packPkt (commandFrame 0x0D a p1 p2 p3 k)
  | .cmdAnalogInput a p1 p2 p3 k => packPkt (commandFrame 0x50 a p1 p2 p3 k)

/-- The format of an instruction's row of the table. -/
def Instr.format : Instr → Format
  | .nop | .qInit _ | .qPush _ _ | .qPop _ | .tpInit | .rxEvent _ | .txEvent | .tryRecv | .trySend _ | .frInit
  | .feed _ | .poll | .encode _ _ _ _ => .req
  | .cmdStartup _ _ _ _ _ | .cmdFlashProgram _ _ _ _ _ | .cmdFlashRead _ _ _ _ _ | .cmdVersion _ _ _ _ _
  | .cmdProtocolMode _ _ _ _ _ | .cmdTowerNumber _ _ _ _ _ | .cmdTime _ _ _ _ _ | .cmdTowerMode _ _ _ _ _
  | .cmdAnalogInput _ _ _ _ _ => .pkt

/-! ### A word of the opcode table, its format not told -/

/-- The instruction of a table word whose format is not told: a request in canonical form first, then a wire command,
then a request with unused bits set (DESIGN CHOICE, log entry 16). The machine never guesses so: a port decodes
requests, the link carries packets. -/
def decodeTable (w : Word40) : Option Instr :=
  match decodeReq w, decodePkt w with
  | .ok i, .ok j => if encode i = w then some i else some j
  | .ok i, .error _ => some i
  | .error _, .ok j => some j
  | .error _, .error _ => none

/-- The host's question: the instruction of a word numbered as the table numbers it. All rows are 40 bits wide. -/
def decodeTableWord (nbits w : Nat) : Option Instr :=
  if nbits ≤ 40 ∧ w < 2 ^ 40 then decodeTable (BitVec.ofNat 40 w) else none

end Sys2Proof
end

