-- ==== Sys2Proof/Config.lean ====
section
/-! DEFINITION. What the spec leaves to the implementation (the queue capacities, R6, U11) and its free values
(U1 to U4). The opaque constants have no body: nothing can be proved of them that does not hold for every value. -/

namespace Sys2Proof.Config

/-- How many slots `RXQ` has beyond its first (R6: `N_RX` is any integer >= 1). -/
opaque rxExtra : Nat

/-- How many slots `TXQ` has beyond its first (R6: `N_TX` is any integer >= 1). -/
opaque txExtra : Nat

/-- `N_RX` (R6, D5). -/
def nRx : Nat := rxExtra + 1

/-- `N_TX` (R6, D5). -/
def nTx : Nat := txExtra + 1

/-- What slot `i` of a queue's storage holds while no push has written it (R37, U2): a free value. -/
opaque unwrittenByte (q : QSel) (i : Nat) : Byte

/-- The free bytes of the machine, one for each value of the counter `State.free` (`any_byte` of R11; U1, U3, U4). -/
opaque freeByte (n : Nat) : Byte

end Sys2Proof.Config
end

