-- ==== Sys2Proof/Machine/State.lean ====
section
/-! DEFINITION. The state: the block's own state, complete by R20, and beside it the model's own fields, which hold the
block's inputs and outputs as plain data. The reasons a step can stop. The state after reset (R37). -/

namespace Sys2Proof.Machine

/-- One Byte Queue (R20 to R26): its capacity `N` (R10; fixed, R6), `start`, `end`, `count`, and its storage as the
slots that a push has written, `(index, byte)` with strictly rising indices (log entry 5).
`start` and `end` have `IW(N)` bits and `count` has `CW(N)` bits; they are naturals whose ranges are an invariant (D6). -/
structure Queue where
  cap : Nat
  startIdx : Nat
  endIdx : Nat
  count : Nat
  buf : List Host.Cell
  deriving DecidableEq, Repr

/-- A queue right after reset (R37): empty, nothing of its storage written. -/
def Queue.fresh (cap : Nat) : Queue := { cap := cap, startIdx := 0, endIdx := 0, count := 0, buf := [] }

/-- The delivered packet `PKT[0..3]` (R31). -/
structure Packet where
  command : Byte
  parameter1 : Byte
  parameter2 : Byte
  parameter3 : Byte
  deriving DecidableEq, Repr

/-- The complete state of the block (R20). -/
structure Block where
  /-- `RXQ` (R27). -/
  rxq : Queue
  /-- `TXQ` (R27). -/
  txq : Queue
  /-- `tx_irq_en` (R28). -/
  txIrqEn : Bool
  /-- The window `F[0..4]` (R29). -/
  f : Frame
  /-- `position` (R30). -/
  position : BitVec 3
  /-- `PKT[0..3]` (R31). -/
  pkt : Packet
  /-- `enc_busy` (R32). -/
  encBusy : Bool
  /-- `enc_idx` (R32). -/
  encIdx : BitVec 3
  /-- `enc_b[0..4]` (R32). -/
  encB : Frame
  deriving DecidableEq, Repr

/-- The request ports, one per agent (R41, R216). -/
inductive Port where
  /-- Agent `D_RX`, the receive-ready notification context. -/
  | drx
  /-- Agent `D_TX`, the transmit-ready notification context. -/
  | dtx
  /-- Agent `M`, the main flow. -/
  | m
  deriving DecidableEq, Repr

/-- Where a wire packet meets the block (R100, R126). -/
inductive Route where
  /-- On the receive line: five `RX_EVENT`s of `D_RX` (the `wire:` line of R126). -/
  | line
  /-- Into the framer: five `FEED`s of `M` (R100: a packet the block receives). -/
  | feed
  /-- Toward the host: an `ENCODE` of `M` (R100: a packet the block sends). -/
  | send
  deriving DecidableEq, Repr

/-- A response word's fields (R120). -/
structure Rsp where
  err : Bool
  ok : Bool
  data : DataWord
  deriving DecidableEq, Repr

/-- What a step gives to the outside (R11): responses on ports and bytes handed to the serial device. -/
inductive Output where
  | rsp (p : Port) (r : Rsp)
  | sent (b : Byte)
  deriving DecidableEq, Repr

/-- The input pins at one rising edge of `clk` (R42): `none` on a port is `p_req_valid = 0`. -/
structure Pins where
  rst : Bool
  drx : Option Word40
  dtx : Option Word40
  m : Option Word40
  deriving DecidableEq, Repr

/-- What the environment presents next (R74, R82; log entry 2). -/
inductive Stimulus where
  /-- The agent of port `p` presents a request word: one step of that agent. -/
  | request (p : Port) (w : Word40)
  /-- Agent `M` takes the next step of the `ENCODE` under way (R74 item 1). -/
  | resume
  /-- A wire packet, by one of its three ways. -/
  | packet (r : Route) (w : Word40)
  /-- A rising edge of the clocked block (R40 to R44). -/
  | edge (pins : Pins)
  deriving DecidableEq, Repr

/-- The machine: the block, and the model's own fields (log entries 2, 10, 19, 20). -/
structure State where
  /-- The block's state, all of R20. -/
  blk : Block
  /-- What the environment presents, in the order of the agents' steps: a free input (R82). -/
  inputs : List Stimulus
  /-- The port of the request being served (R41). -/
  port : Port
  /-- The way of the wire packet being carried (R100, R126). -/
  route : Route
  /-- The outputs of the last step, in order (R11, R122). -/
  out : List Output
  /-- The receive stream: the bytes of successive `RX_EVENT`s (R60). -/
  rxStream : List Byte
  /-- The transmit stream: the bytes of successive `Sent`s (R60). -/
  txStream : List Byte
  /-- The counter of the free values used so far. -/
  free : Nat
  deriving DecidableEq, Repr

/-- Why a step can stop. -/
inductive Fault where
  /-- A push or a pop would access slot `index` of a queue that has no such slot (R61: an index is always in `[0, N)`).
  Raised by `memRead` and `memWrite` only. Safe: the model stops; no state that keeps the invariant gets here. -/
  | slotOutOfRange (q : QSel) (index : Nat)
  deriving DecidableEq, Repr

/-- Why an instruction can be refused by the model (not by the block: the block's refusal is the response of R204). -/
inductive Refusal where
  /-- An instruction without a meaning, by its mnemonic. Safe. Raised by no arm: every instruction has its meaning. -/
  | notModelled (mnemonic : String)
  deriving DecidableEq, Repr

/-- The block right after reset (R37) with given capacities. `F`, `PKT`, `enc_idx` and `enc_b` are unspecified by
R37; they are zero here (DESIGN CHOICE, log entries 7, 8, 9). -/
def Block.fresh (nRx nTx : Nat) : Block where
  rxq := Queue.fresh nRx
  txq := Queue.fresh nTx
  txIrqEn := false
  f := { command := 0, parameter1 := 0, parameter2 := 0, parameter3 := 0, checksum := 0 }
  position := 0
  pkt := { command := 0, parameter1 := 0, parameter2 := 0, parameter3 := 0 }
  encBusy := false
  encIdx := 0
  encB := { command := 0, parameter1 := 0, parameter2 := 0, parameter3 := 0, checksum := 0 }

/-- A machine right after reset with given capacities, nothing presented yet. -/
def State.fresh (nRx nTx : Nat) : State where
  blk := Block.fresh nRx nTx
  inputs := []
  port := .m
  route := .feed
  out := []
  rxStream := []
  txStream := []
  free := 0

/-- The machine right after reset (R37, R230), with the open capacities of `Config` (R6). -/
def State.reset : State := State.fresh Config.nRx Config.nTx

end Sys2Proof.Machine
end

