-- ==== Sys2Proof/Machine/Operands.lean ====
section
/-! DEFINITION. Operand forms: the queue a select names (R27), a place of a five-byte register file (R29, R32), and the
data words of requests and responses (R8, R112, R120). -/

namespace Sys2Proof.Machine

/-- The queue an operand `q` selects (R27). -/
def Block.queue (b : Block) : QSel → Queue
  | .rxq => b.rxq
  | .txq => b.txq

/-- The block with the selected queue replaced. -/
def Block.setQueue (b : Block) (sel : QSel) (q : Queue) : Block :=
  match sel with
  | .rxq => { b with rxq := q }
  | .txq => { b with txq := q }

/-- Reading place `i` of five, `0 <= i <= 4`: `F[i]` (R29), `enc_b[i]` (R32). -/
def frameGet (r : Frame) (i : Nat) : Byte :=
  match i with
  | 0 => r.command
  | 1 => r.parameter1
  | 2 => r.parameter2
  | 3 => r.parameter3
  | _ => r.checksum

/-- Writing place `i` of five, `0 <= i <= 4`: `F[i] <- v` (R10, R29). -/
def frameSet (r : Frame) (i : Nat) (v : Byte) : Frame :=
  match i with
  | 0 => { r with command := v }
  | 1 => { r with parameter1 := v }
  | 2 => { r with parameter2 := v }
  | 3 => { r with parameter3 := v }
  | _ => { r with checksum := v }

/-- The five bytes in wire order (R64). -/
def frameBytes (r : Frame) : List Byte := [r.command, r.parameter1, r.parameter2, r.parameter3, r.checksum]

/-- `ENC5` of R181: four bytes and their XOR. -/
def enc5 (c p1 p2 p3 : Byte) : Frame where
  command := c
  parameter1 := p1
  parameter2 := p2
  parameter3 := p3
  checksum := xor4 c p1 p2 p3

/-- The four data bytes of the window, `F[0..3]`, as a packet (R31). -/
def framePacket (r : Frame) : Packet where
  command := r.command
  parameter1 := r.parameter1
  parameter2 := r.parameter2
  parameter3 := r.parameter3

/-- `zext_32` of a byte (R8). -/
def zext32 (v : Byte) : DataWord := v.setWidth 32

/-- `{PKT[0], PKT[1], PKT[2], PKT[3]}`, the command most significant (R112, R121). -/
def packetData (p : Packet) : DataWord := packData p.command p.parameter1 p.parameter2 p.parameter3

/-- The response word: `err` in bit 33, `ok` in bit 32, `data` in 31:0 (R120). -/
def rspWord (r : Rsp) : RspWord :=
  ((BitVec.ofBool r.err).setWidth 34 <<< 33) ||| ((BitVec.ofBool r.ok).setWidth 34 <<< 32) ||| r.data.setWidth 34

end Sys2Proof.Machine
end

