-- ==== Sys2Proof/Machine/Flags.lean ====
section
/-! DEFINITION. The block's flags and status outputs (R26, R42): functions of the state, none of them state. -/

namespace Sys2Proof.Machine

/-- `Q.empty` (R26). -/
def Queue.empty (q : Queue) : Bool := q.count == 0

/-- `Q.full` (R26). -/
def Queue.full (q : Queue) : Bool := q.count == q.cap

/-- `p_req_ready` (R42): always 1 on `drx` and `dtx`; on `m` it is `not enc_busy`. -/
def reqReady (p : Port) (b : Block) : Bool :=
  match p with
  | .drx | .dtx => true
  | .m => !b.encBusy

/-- The output `pkt` (R42). -/
def pktPin (b : Block) : DataWord := packetData b.pkt

/-- The responses of a step on one port, in order (R122). -/
def responsesOn (p : Port) : List Output → List Rsp
  | [] => []
  | .rsp p' r :: rest => if p' = p then r :: responsesOn p rest else responsesOn p rest
  | .sent _ :: rest => responsesOn p rest

/-- The bytes handed to the serial device among the outputs of a step (R11). -/
def sentBytes : List Output → List Byte
  | [] => []
  | .rsp _ _ :: rest => sentBytes rest
  | .sent b :: rest => b :: sentBytes rest

/-- `p_rsp_valid` and `p_rsp` in the cycle after a step (R42): the last response on the port, if there is one. An edge of
the clocked block gives at most one response on a port. -/
def rspPin (p : Port) (s : State) : Option RspWord := (responsesOn p s.out).getLast?.map rspWord

end Sys2Proof.Machine
end

