-- ==== Sys2Proof/Machine/Ops.lean ====
section
/-! DEFINITION. The shared operations: one access to queue storage, the queue operations the source calls `init`,
`push` and `pop`, the enqueue and the feed of the layers above, the response of a step, the acceptance of a request
(R124) and the one refusal (R204). The block takes no exception (R200); refusing is its shared operation in that place. -/

namespace Sys2Proof.Machine

/-! ### Queue storage: (index, byte) pairs, indices strictly rising -/

/-- The canonical form of a storage: strictly rising indices. A slot that is not listed has no value, so no listed pair
can equal what an unlisted slot reads as. -/
def storageWf : List Host.Cell → Bool
  | [] => true
  | c :: rest =>
    match rest with
    | [] => true
    | d :: _ => decide (c.1 < d.1) && storageWf rest

/-- What has been written to slot `i`, if anything. -/
def storageRead (m : List Host.Cell) (i : Nat) : Option Byte :=
  match m with
  | [] => none
  | c :: rest => if c.1 = i then some c.2 else storageRead rest i

/-- Writing slot `i`, keeping the indices rising. -/
def storageWrite (m : List Host.Cell) (i : Nat) (v : Byte) : List Host.Cell :=
  match m with
  | [] => [(i, v)]
  | c :: rest =>
    if i < c.1 then (i, v) :: c :: rest
    else if i = c.1 then (i, v) :: rest
    else c :: storageWrite rest i v

/-- The byte slot `i` holds: what was written there, else the slot's free power-on value (U2). -/
def slotByte (sel : QSel) (q : Queue) (i : Nat) : Byte := (storageRead q.buf i).getD (Config.unwrittenByte sel i)

/-- `MemRead((Q, i), 1)` (R10, R61). -/
def memRead (sel : QSel) (q : Queue) (i : Nat) : Except Fault Byte :=
  if i < q.cap then .ok (slotByte sel q i) else .error (.slotOutOfRange sel i)

/-- `MemWrite((Q, i), 1, v)` (R10, R61). -/
def memWrite (sel : QSel) (q : Queue) (i : Nat) (v : Byte) : Except Fault (List Host.Cell) :=
  if i < q.cap then .ok (storageWrite q.buf i v) else .error (.slotOutOfRange sel i)

/-- `contents(Q)` (R12): the queue's bytes, oldest first. -/
def contents (sel : QSel) (q : Queue) : List Byte :=
  (List.range q.count).map fun i => slotByte sel q ((q.startIdx + i) % q.cap)

/-! ### The Byte Queue -/

/-- The index after `i`, modulo the capacity (R133). -/
def nextIndex (q : Queue) (i : Nat) : Nat := (i + 1) % q.cap

/-- The queue's `init()` (R130). -/
def Queue.init (q : Queue) : Queue := { q with startIdx := 0, endIdx := 0, count := 0 }

/-- The queue's `push` (R131): `none` when it is full. -/
def Queue.push (sel : QSel) (q : Queue) (b : Byte) : Except Fault (Option Queue) :=
  if q.full then .ok none
  else
    match memWrite sel q q.endIdx b with
    | .error e => .error e
    | .ok m => .ok (some { q with buf := m, count := q.count + 1, endIdx := nextIndex q q.endIdx })

/-- The queue's `pop` (R132): `none` when it is empty. -/
def Queue.pop (sel : QSel) (q : Queue) : Except Fault (Option (Byte × Queue)) :=
  if q.empty then .ok none
  else
    match memRead sel q q.startIdx with
    | .error e => .error e
    | .ok v => .ok (some (v, { q with count := q.count - 1, startIdx := nextIndex q q.startIdx }))

/-! ### The same on the block -/

/-- `Q_INIT q` on the block (R130). -/
def Block.initQueue (b : Block) (sel : QSel) : Block := b.setQueue sel (b.queue sel).init

/-- `Q_PUSH q, v` on the block: `ok` and the block after (R131). -/
def Block.push (b : Block) (sel : QSel) (v : Byte) : Except Fault (Bool × Block) :=
  match (b.queue sel).push sel v with
  | .error e => .error e
  | .ok none => .ok (false, b)
  | .ok (some q) => .ok (true, b.setQueue sel q)

/-- `Q_POP q` on the block: the byte, if there was one, and the block after (R132). -/
def Block.pop (b : Block) (sel : QSel) : Except Fault (Option Byte × Block) :=
  match (b.queue sel).pop sel with
  | .error e => .error e
  | .ok none => .ok (none, b)
  | .ok (some (v, q)) => .ok (some v, b.setQueue sel q)

/-- `TP_INIT` on the block (R150). -/
def Block.tpInit (b : Block) : Block := { b with rxq := b.rxq.init, txq := b.txq.init, txIrqEn := false }

/-- `TRY_SEND v` on the block (R158): a successful push re-arms the transmit-ready notification in the same step. -/
def Block.trySend (b : Block) (v : Byte) : Except Fault (Bool × Block) :=
  match b.push .txq v with
  | .error e => .error e
  | .ok (true, b') => .ok (true, { b' with txIrqEn := true })
  | .ok (false, b') => .ok (false, b')

/-- The window after a failed check on `v` (R172, R175): shifted down by one, the rejected byte in `F[3]` and `F[4]`. -/
def shiftWindow (r : Frame) (v : Byte) : Frame where
  command := r.parameter1
  parameter1 := r.parameter2
  parameter2 := r.parameter3
  parameter3 := v
  checksum := v

/-- `FEED v` on the block (R172): the delivered packet, if `v` completed one, and the block after. The pseudocode's
`else` branch is taken at every `position` that is not below 4 (R30: it is then 4; log entry 13). -/
def Block.feed (b : Block) (v : Byte) : Option Packet × Block :=
  if b.position.toNat < 4 then
    (none, { b with f := frameSet b.f b.position.toNat v, position := b.position + 1 })
  else if xor4 b.f.command b.f.parameter1 b.f.parameter2 b.f.parameter3 = v then
    (some (framePacket b.f), { b with f := { b.f with checksum := v }, pkt := framePacket b.f, position := 0 })
  else
    (none, { b with f := shiftWindow b.f v })

/-- One enqueue attempt of the `ENCODE` under way (R180): `some ok` when it is the operation's last step. Past the fifth
byte the loop is over (not reached while busy, R32; log entry 13). -/
def Block.encodeAttempt (b : Block) : Except Fault (Option Bool × Block) :=
  if b.encIdx.toNat < 5 then
    match b.trySend (frameGet b.encB b.encIdx.toNat) with
    | .error e => .error e
    | .ok (false, b') => .ok (some false, { b' with encBusy := false })
    | .ok (true, b') =>
      if b.encIdx.toNat = 4 then .ok (some true, { b' with encIdx := b.encIdx + 1, encBusy := false })
      else .ok (none, { b' with encIdx := b.encIdx + 1 })
  else .ok (some true, { b with encBusy := false })

/-- The start of an `ENCODE` (R180): busy, the five bytes loaded, none enqueued. -/
def Block.encodeStart (b : Block) (r : Frame) : Block := { b with encBusy := true, encB := r, encIdx := 0 }

/-! ### Responses, and the acceptance of a request -/

/-- `return (ok, data)` on port `p` (R11, R120). -/
def State.respond (s : State) (p : Port) (ok : Bool) (data : DataWord) : State :=
  { s with out := s.out ++ [.rsp p { err := false, ok := ok, data := data }] }

/-- The refusal of R124 and R204: `err = 1`, `ok = 0`, `data = 0`, and no state change. -/
def State.refuse (s : State) (p : Port) : State :=
  { s with out := s.out ++ [.rsp p { err := true, ok := false, data := 0 }] }

/-- `return (ok = 0, data = any_byte)` of a failing pop (R132; U1): the byte is the next free value, `data[31:8]` is 0. -/
def State.respondAny (s : State) (p : Port) : State :=
  { s.respond p false (zext32 (Config.freeByte s.free)) with free := s.free + 1 }

/-- `emit Sent(v)` (R11): the byte goes to the serial device, at the end of the transmit stream (R60). -/
def State.emitSent (s : State) (v : Byte) : State :=
  { s with out := s.out ++ [.sent v], txStream := s.txStream ++ [v] }

/-- The end of an operation that pushes: its block and its `ok`, with no data (R121). -/
def State.finishPush (s : State) (p : Port) (r : Except Fault (Bool × Block)) : Host.Outcome State Fault Refusal :=
  match r with
  | .error e => .fault e
  | .ok (ok, b) => .next ({ s with blk := b }.respond p ok 0)

/-- The end of an operation that pops and returns the byte (R121). -/
def State.finishPop (s : State) (p : Port) (r : Except Fault (Option Byte × Block)) : Host.Outcome State Fault Refusal :=
  match r with
  | .error e => .fault e
  | .ok (some v, b) => .next ({ s with blk := b }.respond p true (zext32 v))
  | .ok (none, b) => .next ({ s with blk := b }.respondAny p)

/-- The end of a feed: "packet complete" with the packet, or "not yet complete" (R121). -/
def State.finishFeed (s : State) (p : Port) (r : Option Packet × Block) : State :=
  match r with
  | (some k, b) => { s with blk := b }.respond p true (packetData k)
  | (none, b) => { s with blk := b }.respond p false 0

/-- Serving a request at the current port (R42, R124): while the port is not ready the request is not accepted and
nothing happens; a request the port does not accept is refused; else the operation runs. -/
def State.serve (s : State) (accepted : Bool) (op : State → Host.Outcome State Fault Refusal) :
    Host.Outcome State Fault Refusal :=
  if reqReady s.port s.blk then
    if accepted then op s else .next (s.refuse s.port)
  else .next s

/-- One step, then another of the same agent. -/
def andThen (o : Host.Outcome State Fault Refusal) (k : State → Host.Outcome State Fault Refusal) :
    Host.Outcome State Fault Refusal :=
  match o with
  | .next s => k s
  | .fault e => .fault e
  | .refused r => .refused r

/-! ### Steps that several instructions take -/

/-- The step `RX_EVENT v` (R152): the byte joins the receive stream (R60) and is pushed into `RXQ`. -/
def rxEventStep (v : Byte) (s : State) : Host.Outcome State Fault Refusal :=
  { s with rxStream := s.rxStream ++ [v] }.finishPush .drx (s.blk.push .rxq v)

/-- The step `FEED v` (R172). -/
def feedStep (v : Byte) (s : State) : Host.Outcome State Fault Refusal := .next (s.finishFeed .m (s.blk.feed v))

/-- The next step of the `ENCODE` under way (R180): a response only with its last. -/
def encodeStep (s : State) : Host.Outcome State Fault Refusal :=
  match s.blk.encodeAttempt with
  | .error e => .fault e
  | .ok (some ok, b) => .next ({ s with blk := b }.respond .m ok 0)
  | .ok (none, b) => .next { s with blk := b }

/-- The first step of an `ENCODE` of five bytes (R42, R180). -/
def encodeFirst (r : Frame) (s : State) : Host.Outcome State Fault Refusal :=
  encodeStep { s with blk := s.blk.encodeStart r }

/-- Five steps in a row, one for each byte of a frame in wire order (R64, R126). -/
def eachByte (step : Byte → State → Host.Outcome State Fault Refusal) (r : Frame) (s : State) :
    Host.Outcome State Fault Refusal :=
  (frameBytes r).foldl (fun o v => andThen o (step v)) (.next s)

/-- What a wire packet does to the block by each of its ways (R100, R126; log entry 14): the five bytes arrive on the
receive line, or are fed to the framer, or the packet's four bytes are encoded toward the host. The last two are
operations of `M`, for which port `m` must be ready (R44). -/
def carryPacket (r : Frame) (s : State) : Host.Outcome State Fault Refusal :=
  match s.route with
  | .line => eachByte rxEventStep r s
  | .feed => if reqReady .m s.blk then eachByte feedStep r s else .next s
  | .send =>
    if reqReady .m s.blk then encodeFirst (enc5 r.command r.parameter1 r.parameter2 r.parameter3) s else .next s

end Sys2Proof.Machine
end

