-- ==== Sys2Proof/Machine/ByteQueue.lean ====
section
/-! DEFINITION. The Byte Queue operations on port `m`: `Q_INIT`, `Q_PUSH`, `Q_POP` (R130 to R132). -/

namespace Sys2Proof.Machine

/-- `Q_INIT q` (R130). -/
def execQInit (q : QSel) (s : State) : Host.Outcome State Fault Refusal :=
  s.serve (s.port == .m) fun s => .next ({ s with blk := s.blk.initQueue q }.respond .m true 0)

/-- `Q_PUSH q, b` (R131). -/
def execQPush (q : QSel) (b : Byte) (s : State) : Host.Outcome State Fault Refusal :=
  s.serve (s.port == .m) fun s => s.finishPush .m (s.blk.push q b)

/-- `Q_POP q` (R132). -/
def execQPop (q : QSel) (s : State) : Host.Outcome State Fault Refusal :=
  s.serve (s.port == .m) fun s => s.finishPop .m (s.blk.pop q)

end Sys2Proof.Machine
end

