-- ==== Sys2Proof/Machine/Framer.lean ====
section
/-! DEFINITION. The Packet Framer operations on port `m`: `FR_INIT`, `FEED`, `POLL`, `ENCODE` (R170, R172, R178, R180),
and `NOP` on any port (R184). -/

namespace Sys2Proof.Machine

/-- `NOP` (R184), accepted on every port (R124). -/
def execNop (s : State) : Host.Outcome State Fault Refusal :=
  s.serve true fun s => .next (s.respond s.port true 0)

/-- `FR_INIT` (R170). -/
def execFrInit (s : State) : Host.Outcome State Fault Refusal :=
  s.serve (s.port == .m) fun s => .next ({ s with blk := { s.blk with position := 0 } }.respond .m true 0)

/-- `FEED b` (R172). -/
def execFeed (b : Byte) (s : State) : Host.Outcome State Fault Refusal :=
  s.serve (s.port == .m) fun s => feedStep b s

/-- `POLL` (R178): a pop of `RXQ` and, if it gave a byte, a feed of it, as one atomic step (log entry 1). An empty
queue gives `ok = 0` and `data = 0`. -/
def execPoll (s : State) : Host.Outcome State Fault Refusal :=
  s.serve (s.port == .m) fun s =>
    match s.blk.pop .rxq with
    | .error e => .fault e
    | .ok (some v, b) => feedStep v { s with blk := b }
    | .ok (none, b) => .next ({ s with blk := b }.respond .m false 0)

/-- `ENCODE c, p1, p2, p3` (R180): its first enqueue attempt. The others are the later steps of `M`
(`Stimulus.resume`, or the next edges of the clocked block). -/
def execEncode (c p1 p2 p3 : Byte) (s : State) : Host.Outcome State Fault Refusal :=
  s.serve (s.port == .m) fun s => encodeFirst (enc5 c p1 p2 p3) s

end Sys2Proof.Machine
end

