-- ==== Sys2Proof/Machine/Transport.lean ====
section
/-! DEFINITION. The Transport operations (R150 to R158): `TP_INIT`, `TRY_RECV`, `TRY_SEND` on port `m`, the events
`RX_EVENT` on `drx` and `TX_EVENT` on `dtx`. -/

namespace Sys2Proof.Machine

/-- `TP_INIT` (R150). -/
def execTpInit (s : State) : Host.Outcome State Fault Refusal :=
  s.serve (s.port == .m) fun s => .next ({ s with blk := s.blk.tpInit }.respond .m true 0)

/-- `RX_EVENT b` (R152, R153). -/
def execRxEvent (b : Byte) (s : State) : Host.Outcome State Fault Refusal :=
  s.serve (s.port == .drx) fun s => rxEventStep b s

/-- `TX_EVENT` (R154), accepted only while `tx_irq_en == 1` (R124, R155). -/
def execTxEvent (s : State) : Host.Outcome State Fault Refusal :=
  s.serve (s.port == .dtx && s.blk.txIrqEn) fun s =>
    match s.blk.pop .txq with
    | .error e => .fault e
    | .ok (some v, b) => .next (({ s with blk := b }.emitSent v).respond .dtx true (zext32 v))
    | .ok (none, b) => .next ({ s with blk := { b with txIrqEn := false } }.respondAny .dtx)

/-- `TRY_RECV` (R156). -/
def execTryRecv (s : State) : Host.Outcome State Fault Refusal :=
  s.serve (s.port == .m) fun s => s.finishPop .m (s.blk.pop .rxq)

/-- `TRY_SEND b` (R158). -/
def execTrySend (b : Byte) (s : State) : Host.Outcome State Fault Refusal :=
  s.serve (s.port == .m) fun s => s.finishPush .m (s.blk.trySend b)

end Sys2Proof.Machine
end

