-- ==== Sys2Proof/Machine/WireCommand.lean ====
section
/-! DEFINITION. The nine wire commands (R101 to R109). The block gives a command code no meaning (R100, R174): each
command is what its five bytes do to the block, by the way `State.route` names. -/

namespace Sys2Proof.Machine

/-- `CMD_STARTUP`, code 0x04 (R101). -/
def execCmdStartup (ack : Bool) (p1 p2 p3 chk : Byte) (s : State) : Host.Outcome State Fault Refusal :=
  carryPacket (commandFrame 0x04 ack p1 p2 p3 chk) s

/-- `CMD_FLASH_PROGRAM`, code 0x07 (R102). -/
def execCmdFlashProgram (ack : Bool) (p1 p2 p3 chk : Byte) (s : State) : Host.Outcome State Fault Refusal :=
  carryPacket (commandFrame 0x07 ack p1 p2 p3 chk) s

/-- `CMD_FLASH_READ`, code 0x08 (R103). -/
def execCmdFlashRead (ack : Bool) (p1 p2 p3 chk : Byte) (s : State) : Host.Outcome State Fault Refusal :=
  carryPacket (commandFrame 0x08 ack p1 p2 p3 chk) s

/-- `CMD_VERSION`, code 0x09 (R104). -/
def execCmdVersion (ack : Bool) (p1 p2 p3 chk : Byte) (s : State) : Host.Outcome State Fault Refusal :=
  carryPacket (commandFrame 0x09 ack p1 p2 p3 chk) s

/-- `CMD_PROTOCOL_MODE`, code 0x0A (R105). -/
def execCmdProtocolMode (ack : Bool) (p1 p2 p3 chk : Byte) (s : State) : Host.Outcome State Fault Refusal :=
  carryPacket (commandFrame 0x0A ack p1 p2 p3 chk) s

/-- `CMD_TOWER_NUMBER`, code 0x0B (R106). -/
def execCmdTowerNumber (ack : Bool) (p1 p2 p3 chk : Byte) (s : State) : Host.Outcome State Fault Refusal :=
  carryPacket (commandFrame 0x0B ack p1 p2 p3 chk) s

/-- `CMD_TIME`, code 0x0C (R107). -/
def execCmdTime (ack : Bool) (p1 p2 p3 chk : Byte) (s : State) : Host.Outcome State Fault Refusal :=
  carryPacket (commandFrame 0x0C ack p1 p2 p3 chk) s

/-- `CMD_TOWER_MODE`, code 0x0D (R108). -/
def execCmdTowerMode (ack : Bool) (p1 p2 p3 chk : Byte) (s : State) : Host.Outcome State Fault Refusal :=
  carryPacket (commandFrame 0x0D ack p1 p2 p3 chk) s

/-- `CMD_ANALOG_INPUT`, code 0x50 (R109). -/
def execCmdAnalogInput (ack : Bool) (p1 p2 p3 chk : Byte) (s : State) : Host.Outcome State Fault Refusal :=
  carryPacket (commandFrame 0x50 ack p1 p2 p3 chk) s

end Sys2Proof.Machine
end

