-- ==== Sys2Proof/Machine/Dispatch.lean ====
section
/-! DEFINITION. The dispatch of an instruction to its meaning: one arm per row of the opcode table. -/

namespace Sys2Proof.Machine

def exec (i : Instr) (s : State) : Host.Outcome State Fault Refusal :=
  match i with
  | .nop => Sys2Proof.Machine.execNop s
  | .qInit q => Sys2Proof.Machine.execQInit q s
  | .qPush q b => Sys2Proof.Machine.execQPush q b s
  | .qPop q => Sys2Proof.Machine.execQPop q s
  | .tpInit => Sys2Proof.Machine.execTpInit s
  | .rxEvent b => Sys2Proof.Machine.execRxEvent b s
  | .txEvent => Sys2Proof.Machine.execTxEvent s
  | .tryRecv => Sys2Proof.Machine.execTryRecv s
  | .trySend b => Sys2Proof.Machine.execTrySend b s
  | .frInit => Sys2Proof.Machine.execFrInit s
  | .feed b => Sys2Proof.Machine.execFeed b s
  | .poll => Sys2Proof.Machine.execPoll s
  | .encode c p1 p2 p3 => Sys2Proof.Machine.execEncode c p1 p2 p3 s
  | .cmdStartup ack p1 p2 p3 chk => Sys2Proof.Machine.execCmdStartup ack p1 p2 p3 chk s
  | .cmdFlashProgram ack p1 p2 p3 chk => Sys2Proof.Machine.execCmdFlashProgram ack p1 p2 p3 chk s
  | .cmdFlashRead ack p1 p2 p3 chk => Sys2Proof.Machine.execCmdFlashRead ack p1 p2 p3 chk s
  | .cmdVersion ack p1 p2 p3 chk => Sys2Proof.Machine.execCmdVersion ack p1 p2 p3 chk s
  | .cmdProtocolMode ack p1 p2 p3 chk => Sys2Proof.Machine.execCmdProtocolMode ack p1 p2 p3 chk s
  | .cmdTowerNumber ack p1 p2 p3 chk => Sys2Proof.Machine.execCmdTowerNumber ack p1 p2 p3 chk s
  | .cmdTime ack p1 p2 p3 chk => Sys2Proof.Machine.execCmdTime ack p1 p2 p3 chk s
  | .cmdTowerMode ack p1 p2 p3 chk => Sys2Proof.Machine.execCmdTowerMode ack p1 p2 p3 chk s
  | .cmdAnalogInput ack p1 p2 p3 chk => Sys2Proof.Machine.execCmdAnalogInput ack p1 p2 p3 chk s

end Sys2Proof.Machine
end

