-- ==== Sys2Proof/Machine/Schedule.lean ====
section
/-! DEFINITION. How what the environment presents reaches the block: a request word on a port, a wire packet, a step of
the `ENCODE` under way, a rising edge of the clocked block with its reset (R40 to R44, R74, R124, R125). The block fetches
nothing (R33); this is what stands in the place of a fetch. -/

namespace Sys2Proof.Machine

/-- The machine at the start of a step: the outputs of the step before are gone (R122). -/
def State.quiet (s : State) : State := { s with out := [] }

/-- The machine as it takes the stimulus before `rest` from its inputs. -/
def State.take (s : State) (rest : List Stimulus) : State := { s with inputs := rest, out := [] }

/-- The machine with a request on port `p`. -/
def State.onPort (s : State) (p : Port) : State := { s with port := p }

/-- The machine with a wire packet on way `r`. The receive line is the device's side (port `drx`), the framer and the
encoder are the main flow's (port `m`). -/
def State.onRoute (s : State) (r : Route) : State := { s with route := r }

/-- A request word on port `p`: the operation it decodes to, or for a reserved code the refusal (R125). A port that is
not ready accepts nothing (R42). -/
def serveRequest (p : Port) (w : Word40) (s : State) : Host.Outcome State Fault Refusal :=
  match decode .req w with
  | .ok i => exec i (s.onPort p)
  | .error _ => (s.onPort p).serve false fun s => .next s

/-- A wire packet: its command, or for a code outside the table the same carriage of its five bytes (R97). -/
def servePacket (r : Route) (w : Word40) (s : State) : Host.Outcome State Fault Refusal :=
  match decode .pkt w with
  | .ok i => exec i (s.onRoute r)
  | .error _ => carryPacket (pktFrame w) (s.onRoute r)

/-- The agent `M`'s next step of an `ENCODE` under way; none when no `ENCODE` is under way. -/
def resumeEncode (s : State) : Host.Outcome State Fault Refusal :=
  if s.blk.encBusy then encodeStep s else .next s

/-! ### The clocked block -/

/-- A rising edge with `rst == 1` (R37, R40, R230): `TP_INIT`, then `FR_INIT`, with any `ENCODE` abandoned. `F`, `PKT`,
`enc_idx` and `enc_b` are unspecified after it: free values. Storage is not written (D9). -/
def resetEdge (s : State) : State :=
  let g := fun k => Config.freeByte (s.free + k)
  { s with
    blk := { s.blk.tpInit with
      position := 0
      encBusy := false
      f := { command := g 0, parameter1 := g 1, parameter2 := g 2, parameter3 := g 3, checksum := g 4 }
      pkt := { command := g 5, parameter1 := g 6, parameter2 := g 7, parameter3 := g 8 }
      encB := { command := g 9, parameter1 := g 10, parameter2 := g 11, parameter3 := g 12, checksum := g 13 }
      encIdx := (g 14).setWidth 3 }
    free := s.free + 15 }

/-- A port's turn at an edge: its request, if it presents one. -/
def servePin (p : Port) (pin : Option Word40) (s : State) : Host.Outcome State Fault Refusal :=
  match pin with
  | some w => serveRequest p w s
  | none => .next s

/-- Port `m`'s turn at an edge: the next enqueue attempt while an `ENCODE` is under way, when no request is accepted
(R44); else its request. -/
def serveMain (pin : Option Word40) (s : State) : Host.Outcome State Fault Refusal :=
  if s.blk.encBusy then encodeStep s else servePin .m pin s

/-- A rising edge of `clk` (R40, R43): reset, or the requests on `drx`, `dtx` and `m` in that order, each on the state
the one before it left. -/
def clockEdge (pins : Pins) (s : State) : Host.Outcome State Fault Refusal :=
  if pins.rst then .next (resetEdge s)
  else andThen (andThen (servePin .drx pins.drx s) (servePin .dtx pins.dtx)) (serveMain pins.m)

/-! ### One stimulus -/

/-- Whether a stimulus is an operation of agent `M` that port `m` must accept. -/
def Stimulus.isMain : Stimulus → Bool
  | .request p _ => p == .m
  | .packet r _ => r != .line
  | .resume | .edge _ => false

/-- One step on the stimulus `x`, with `rest` behind it. While an `ENCODE` is under way `M` issues nothing new (R74
item 2): its turn is the next step of that `ENCODE`, and what it presents stays pending. -/
def takeTurn (x : Stimulus) (rest : List Stimulus) (s : State) : Host.Outcome State Fault Refusal :=
  if x.isMain && s.blk.encBusy then encodeStep s.quiet
  else
    match x with
    | .request p w => serveRequest p w (s.take rest)
    | .resume => resumeEncode (s.take rest)
    | .packet r w => servePacket r w (s.take rest)
    | .edge pins => clockEdge pins (s.take rest)

/-! ### A word placed so that the next step runs it -/

/-- The port on which an operation is accepted (R124). -/
def homePort : Instr → Port
  | .rxEvent _ => .drx
  | .txEvent => .dtx
  | _ => .m

/-- The stimulus that presents a table word: a wire packet at the framer (R100: a packet the block receives), a request
on the port of its operation, and a word that is no instruction on port `m`. -/
def stimulusOf (w : Word40) : Stimulus :=
  match decodeTable w with
  | none => .request .m w
  | some i =>
    match i.format with
    | .req => .request (homePort i) w
    | .pkt => .packet .feed w

end Sys2Proof.Machine
end

