-- ==== Sys2Proof/Machine/Step.lean ====
section
/-! DEFINITION. One step: the next thing the environment presents reaches the block. -/

namespace Sys2Proof.Machine

/-- One step (R74): the first of the inputs is taken. With no input no agent moves, and the block stays as it is. -/
def step (s : State) : Host.Outcome State Fault Refusal :=
  match s.inputs with
  | [] => .next s.quiet
  | x :: rest => takeTurn x rest s

/-- `s` with the table word `w` presented as the next input, where it is accepted: at the framer for a wire command, on
the operation's port for a request. Agent `M` issues an operation only while no `ENCODE` is under way (R42), so
`enc_busy` is cleared for what is `M`'s. A word above 40 bits is cut to its low 40. -/
def State.withFetchWord (s : State) (_nbits w : Nat) : State :=
  let x := stimulusOf (BitVec.ofNat 40 w)
  { s with
    inputs := x :: s.inputs
    blk := { s.blk with encBusy := s.blk.encBusy && !x.isMain } }

end Sys2Proof.Machine
end

