-- ==== Sys2Proof/Safety.lean ====
section
/-! DEFINITION. What counts as a sound state and a safe run, in the terms the statements use: the invariants of the
queues (R24, R132), of the cursor (R30) and of the encoder's progress (R32), the arming of the transmit-ready
notification (R160), and a run that never faults (R61, R200). -/

namespace Sys2Proof.Machine

/-- The invariant of a queue: R24 with its derived part (`end == (start + count) mod N`), the canonical form of the
storage, every written slot inside `[0, N)` (R61), and every queued slot written (R132). -/
structure QueueInv (q : Queue) : Prop where
  cap_pos : 0 < q.cap
  start_lt : q.startIdx < q.cap
  end_lt : q.endIdx < q.cap
  count_le : q.count ≤ q.cap
  end_eq : q.endIdx = (q.startIdx + q.count) % q.cap
  buf_wf : storageWf q.buf = true
  buf_lt : ∀ c ∈ q.buf, c.1 < q.cap
  written : ∀ i, i < q.count → (storageRead q.buf ((q.startIdx + i) % q.cap)).isSome = true

/-- The invariant of the block: both queues, the cursor in `[0, 5)` (R30), and the encoder's index in `[0, 5)` while an
`ENCODE` is under way (R32). -/
structure BlockInv (b : Block) : Prop where
  rx : QueueInv b.rxq
  tx : QueueInv b.txq
  position_le : b.position.toNat ≤ 4
  encIdx_le : b.encBusy = true → b.encIdx.toNat ≤ 4

/-- The invariant of the machine is that of its block. -/
def State.Inv (s : State) : Prop := BlockInv s.blk

/-- A queued byte is never stranded with the notification off (R160 (a)). -/
def Armed (b : Block) : Prop := 0 < b.txq.count → b.txIrqEn = true

/-- A step that answers a next state. -/
def Answers (o : Host.Outcome State Fault Refusal) : Prop := ∃ t, o = .next t

/-- A run of `n` steps that meets no fault and no refusal. -/
def SafeRun (n : Nat) (s : State) : Prop :=
  match n with
  | 0 => True
  | k + 1 => ∃ t, step s = .next t ∧ SafeRun k t

end Sys2Proof.Machine
end

