-- ==== Sys2Proof/Claims.lean ====
section
/-! DEFINITION. The words the statements are written in: when the main flow may issue, what a response is, which words
are a request, which bytes a wire command is, what the framer has seen of a stream, and a chain of steps. -/

namespace Sys2Proof.Machine

/-- Agent `M` may issue an operation: the request stands on port `m` and no `ENCODE` is under way (R42, R44). -/
def MainReady (s : State) : Prop := s.port = .m ∧ s.blk.encBusy = false

/-- A response that is no refusal: `err = 0` (R120). -/
def done (ok : Bool) (data : DataWord) : Rsp := { err := false, ok := ok, data := data }

/-- The refusal: `err = 1`, `ok = 0`, `data = 0` (R124). -/
def refusal : Rsp := { err := true, ok := false, data := 0 }

/-- The queue `REQ[35]` selects (R27, R110). -/
def wordQueue (w : Word40) : QSel := if w.getLsbD 35 = true then .txq else .rxq

/-- Byte `k` of a request word's `data`, `data[8k+7 : 8k]` (R112). -/
def wordByte (w : Word40) (k : Nat) : Byte := w.extractLsb' (8 * k) 8

/-- Every request word whose `REQ[39:36]` is `op` decodes to the operation `i` gives it (R110, R111). -/
def RequestCode (op : BitVec 4) (i : Word40 → Instr) : Prop :=
  ∀ w : Word40, w.extractLsb' 36 4 = op → decode .req w = .ok (i w)

/-- On a port other than `p` that is ready, the operation is refused: the response, and nothing else (R124). -/
def RefusedOffPort (p : Port) (i : Instr) : Prop :=
  ∀ s : State, s.port ≠ p → reqReady s.port s.blk = true →
    exec i s = .next { s with out := s.out ++ [.rsp s.port refusal] }

/-- The ports of an operation, as the table's column `port` and R124 give them. A wire command is on no request port. -/
def tablePorts : Instr → List Port
  | .nop => [.drx, .dtx, .m]
  | .rxEvent _ => [.drx]
  | .txEvent => [.dtx]
  | .qInit _ | .qPush _ _ | .qPop _ | .tpInit | .tryRecv | .trySend _ | .frInit | .feed _ | .poll
  | .encode _ _ _ _ => [.m]
  | .cmdStartup _ _ _ _ _ | .cmdFlashProgram _ _ _ _ _ | .cmdFlashRead _ _ _ _ _ | .cmdVersion _ _ _ _ _
  | .cmdProtocolMode _ _ _ _ _ | .cmdTowerNumber _ _ _ _ _ | .cmdTime _ _ _ _ _ | .cmdTowerMode _ _ _ _ _
  | .cmdAnalogInput _ _ _ _ _ => []

/-- The bits of a request word that the operation of a code uses (R111, R113). -/
def usedBits (op : BitVec 4) : Word40 :=
  match op.toNat with
  | 0x1 | 0x3 => 0xF800000000
  | 0x2 => 0xF8000000FF
  | 0x5 | 0x8 | 0xA => 0xF0000000FF
  | 0xC => 0xF0FFFFFFFF
  | _ => 0xF000000000

/-- The XOR of the five bytes of a frame (R92). -/
def xor5 (r : Frame) : Byte := r.command ^^^ r.parameter1 ^^^ r.parameter2 ^^^ r.parameter3 ^^^ r.checksum

/-- The five bytes of each of the nine wire commands: its code, or its code with bit 7 set (R95, R101 to R109), its
parameters and its checksum byte; no other instruction is a wire command. -/
def wireBytes : Instr → Option Frame
  | .cmdStartup ack p1 p2 p3 chk => some ⟨if ack then 0x84 else 0x04, p1, p2, p3, chk⟩
  | .cmdFlashProgram ack p1 p2 p3 chk => some ⟨if ack then 0x87 else 0x07, p1, p2, p3, chk⟩
  | .cmdFlashRead ack p1 p2 p3 chk => some ⟨if ack then 0x88 else 0x08, p1, p2, p3, chk⟩
  | .cmdVersion ack p1 p2 p3 chk => some ⟨if ack then 0x89 else 0x09, p1, p2, p3, chk⟩
  | .cmdProtocolMode ack p1 p2 p3 chk => some ⟨if ack then 0x8A else 0x0A, p1, p2, p3, chk⟩
  | .cmdTowerNumber ack p1 p2 p3 chk => some ⟨if ack then 0x8B else 0x0B, p1, p2, p3, chk⟩
  | .cmdTime ack p1 p2 p3 chk => some ⟨if ack then 0x8C else 0x0C, p1, p2, p3, chk⟩
  | .cmdTowerMode ack p1 p2 p3 chk => some ⟨if ack then 0x8D else 0x0D, p1, p2, p3, chk⟩
  | .cmdAnalogInput ack p1 p2 p3 chk => some ⟨if ack then 0xD0 else 0x50, p1, p2, p3, chk⟩
  | .nop | .qInit _ | .qPush _ _ | .qPop _ | .tpInit | .rxEvent _ | .txEvent | .tryRecv | .trySend _ | .frInit
  | .feed _ | .poll | .encode _ _ _ _ => none

/-- A direct queue operation of port `m` (R80, R161). -/
def directQueue : Instr → Bool
  | .qInit _ | .qPush _ _ | .qPop _ => true
  | _ => false

/-- A stimulus that carries no direct queue operation on port `m` (R160). -/
def noDirectQueue : Stimulus → Bool
  | .request .m w => match decode .req w with | .ok i => !directQueue i | .error _ => true
  | .edge pins =>
    match pins.m with
    | some w => match decode .req w with | .ok i => !directQueue i | .error _ => true
    | none => true
  | _ => true

/-- The first byte an instruction offers to `TXQ` through `TRY_SEND` (R158, R180; a packet by R100). -/
def offered (i : Instr) (r : Route) : Option Byte :=
  match i with
  | .trySend b => some b
  | .encode c _ _ _ => some c
  | i => if r = .send then (wireBytes i).map Frame.command else none

/-! ### What the framer has seen (R186) -/

/-- The XOR of a list of bytes. -/
def xorAll (bs : List Byte) : Byte := bs.foldl (· ^^^ ·) 0

/-- The last five bytes of a stream. -/
def lastFive (bs : List Byte) : List Byte := bs.drop (bs.length - 5)

/-- A byte `v` after the bytes `h` fed since the last completion completes a packet: at least five bytes, the last five
with XOR zero (R186). -/
def completes (h : List Byte) (v : Byte) : Bool :=
  decide (5 ≤ (h ++ [v]).length) && (xorAll (lastFive (h ++ [v])) == 0)

/-- The four bytes a completed packet delivers, as response data: the first four of the last five (R112, R186). -/
def deliveredData (h : List Byte) (v : Byte) : DataWord :=
  match lastFive (h ++ [v]) with
  | [a, b, c, d, _] => packetData { command := a, parameter1 := b, parameter2 := c, parameter3 := d }
  | _ => 0

/-- The responses to a stream fed after the bytes `h` since the last completion, by the completion times of R186. -/
def streamResponses (h : List Byte) : List Byte → List Rsp
  | [] => []
  | v :: rest =>
    if completes h v then done true (deliveredData h v) :: streamResponses [] rest
    else done false 0 :: streamResponses (h ++ [v]) rest

/-- The bytes fed since the last completion, after the stream is fed behind `h` (R186). -/
def sinceCompletion (h : List Byte) : List Byte → List Byte
  | [] => h
  | v :: rest => if completes h v then sinceCompletion [] rest else sinceCompletion (h ++ [v]) rest

/-- The framer's registers after the bytes `h` fed since the last completion: `position` is `min |h| 4`, and that many
window registers hold the last bytes fed (R186). -/
def FramerSees (h : List Byte) (b : Block) : Prop :=
  b.position.toNat = min h.length 4 ∧
  (frameBytes b.f).take (min h.length 4) = h.drop (h.length - min h.length 4)

/-! ### Chains of steps -/

/-- Instructions of the main flow, one after the other. -/
def execAll : List Instr → State → Host.Outcome State Fault Refusal
  | [], s => .next s
  | i :: rest, s => andThen (exec i s) (execAll rest)

/-- Stimuli taken one by one, each as the only input, and their outputs put together in order (R74, R82). -/
def performAll : List Stimulus → State → List Output → Host.Outcome State Fault Refusal
  | [], s, acc => .next { s with out := acc }
  | x :: rest, s, acc => andThen (step { s with inputs := [x] }) fun t => performAll rest t (acc ++ t.out)

/-- `n` steps of the machine the host takes. -/
def runSteps (n : Nat) (s : State) : Host.Outcome State Fault Refusal := Host.Core.run Sys2Proof.core n s

/-- `IW(N)` of R6. -/
def indexWidth (n : Nat) : Nat := max 1 (Nat.clog 2 n)

/-- `CW(N)` of R6. -/
def countWidth (n : Nat) : Nat := Nat.clog 2 (n + 1)

/-! ### What an instruction may write (R45) -/

/-- The instructions that write `RXQ`, a packet by its way. -/
def writesRxq (i : Instr) (r : Route) : Bool :=
  match i with
  | .qInit .rxq | .qPush .rxq _ | .qPop .rxq | .tpInit | .rxEvent _ | .tryRecv | .poll => true
  | i => (wireBytes i).isSome && r == .line

/-- The instructions that write `TXQ`. -/
def writesTxq (i : Instr) (r : Route) : Bool :=
  match i with
  | .qInit .txq | .qPush .txq _ | .qPop .txq | .tpInit | .txEvent | .trySend _ | .encode _ _ _ _ => true
  | i => (wireBytes i).isSome && r == .send

/-- The way by which a wire packet pushes into a queue. -/
def pushRoute : QSel → Route
  | .rxq => .line
  | .txq => .send

/-- The instructions that write `Q.buf` of the queue: those that push into it, a packet by its way (log entry 14). -/
def writesBuf (q : QSel) (i : Instr) (r : Route) : Bool :=
  match i with
  | .qPush q' _ => q' == q
  | .rxEvent _ => q == .rxq
  | .trySend _ | .encode _ _ _ _ => q == .txq
  | i => (wireBytes i).isSome && r == pushRoute q

/-- The instructions that write `Q.start` of the queue: those that pop from it, and the initialisations. -/
def writesStart (q : QSel) (i : Instr) : Bool :=
  match i with
  | .qInit q' | .qPop q' => q' == q
  | .tpInit => true
  | .tryRecv | .poll => q == .rxq
  | .txEvent => q == .txq
  | _ => false

/-- The instructions that write `Q.end` of the queue: those that push into it, and the initialisations. -/
def writesEnd (q : QSel) (i : Instr) (r : Route) : Bool :=
  match i with
  | .qInit q' => q' == q
  | .tpInit => true
  | i => writesBuf q i r

/-- How many slots an instruction may write in a queue: five for a packet on the receive line, else one. -/
def pushCount (q : QSel) (i : Instr) (r : Route) : Nat :=
  if (wireBytes i).isSome = true ∧ q = .rxq ∧ r = .line then 5 else 1

/-- The instructions that write `tx_irq_en`. -/
def writesIrq (i : Instr) (r : Route) : Bool :=
  match i with
  | .tpInit | .txEvent | .trySend _ | .encode _ _ _ _ => true
  | i => (wireBytes i).isSome && r == .send

/-- The instructions that write `F` and `PKT`. -/
def writesWindow (i : Instr) (r : Route) : Bool :=
  match i with
  | .feed _ | .poll => true
  | i => (wireBytes i).isSome && r == .feed

/-- The instructions that write `position`. -/
def writesPosition (i : Instr) (r : Route) : Bool :=
  match i with
  | .frInit => true
  | i => writesWindow i r

/-- The instructions that write `enc_busy`, `enc_idx` and `enc_b`. -/
def writesEnc (i : Instr) (r : Route) : Bool :=
  match i with
  | .encode _ _ _ _ => true
  | i => (wireBytes i).isSome && r == .send

/-! ### What may set and clear the notification (R28) -/

/-- The word is a request whose operation is one of those `f` picks. -/
def wordIs (f : Instr → Bool) (w : Word40) : Bool :=
  match decode .req w with
  | .ok i => f i
  | .error _ => false

/-- `TRY_SEND`, or `ENCODE` with its first `TRY_SEND`. -/
def enqueues : Instr → Bool
  | .trySend _ | .encode _ _ _ _ => true
  | _ => false

/-- A stimulus whose step makes an enqueue attempt on `TXQ`: a `TRY_SEND`, the first step of an `ENCODE` (a packet on its way
out is one, log entry 14), or the turn of `M` while an `ENCODE` is under way (R44, R74). -/
def mayArm (b : Block) : Stimulus → Bool
  | .request p w => p == .m && (b.encBusy || wordIs enqueues w)
  | .resume => b.encBusy
  | .packet r _ => r == .send || (r == .feed && b.encBusy)
  | .edge pins => !pins.rst && (b.encBusy || pins.m.any (wordIs enqueues))

/-- A stimulus whose step disarms: a reset, a `TP_INIT` that port `m` accepts, or a `TX_EVENT` at an empty `TXQ`. -/
def mayDisarm (b : Block) : Stimulus → Bool
  | .request p w =>
    (p == .m && !b.encBusy && wordIs (· == .tpInit) w) || (p == .dtx && wordIs (· == .txEvent) w && b.txq.count == 0)
  | .resume | .packet _ _ => false
  | .edge pins =>
    pins.rst || (!b.encBusy && pins.m.any (wordIs (· == .tpInit))) ||
      (pins.dtx.any (wordIs (· == .txEvent)) && b.txq.count == 0)

/-! ### The clocked block's pins -/

/-- The request a port presents at an edge (R42). -/
def Pins.request (pins : Pins) : Port → Option Word40
  | .drx => pins.drx
  | .dtx => pins.dtx
  | .m => pins.m

end Sys2Proof.Machine
end

