-- ==== Sys2Proof/Certificates/Slice0/Obligations.lean ====
section
/-! DEFINITION. The statements for the provers, from the numbered rules of spec/. -/

open Sys2Proof Sys2Proof.Machine

/-! ### Words -/

/-- A few words written out from R110, R111 and R91 decode to what they stand for (95_test_vectors.md section 2; T46). -/
def Obligations.WrittenOutWordsDecode : Prop :=
  decode .req 0x0000000000 = .ok .nop ∧
  decode .req 0x2800000011 = .ok (.qPush .txq 0x11) ∧
  decode .req 0x5000000004 = .ok (.rxEvent 0x04) ∧
  decode .req 0x57FFFFFF04 = .ok (.rxEvent 0x04) ∧
  decode .req 0x80000000A1 = .ok (.trySend 0xA1) ∧
  decode .req 0xA00000002C = .ok (.feed 0x2C) ∧
  decode .req 0xC00B013412 = .ok (.encode 0x0B 0x01 0x34 0x12) ∧
  decode .req 0xD000000000 = .error (.reservedOperation 0xD) ∧
  decode .pkt 0x870200AB2E = .ok (.cmdFlashProgram true 0x02 0x00 0xAB 0x2E) ∧
  decode .pkt 0x0B0134122C = .ok (.cmdTowerNumber false 0x01 0x34 0x12 0x2C) ∧
  decode .pkt 0x5000230172 = .ok (.cmdAnalogInput false 0x00 0x23 0x01 0x72)

/-- Decode and encode agree on every instruction, with every operand at every value: no bit of an encoding is dropped
(30_encoding.md sections 2 to 4). -/
def Obligations.DecodeOfEncodeIsTheInstruction : Prop :=
  ∀ i : Instr, decode i.format (encode i) = .ok i

/-- The other direction: a request word that decodes is the instruction's word once its unused bits are cleared (R113),
and a packet word that decodes is the instruction's word, every bit of it (R91). -/
def Obligations.EncodeOfDecodeIsTheWord : Prop :=
  ∀ (w : Word40) (i : Instr),
    (decode .req w = .ok i → encode i = w &&& usedBits (w.extractLsb' 36 4)) ∧
    (decode .pkt w = .ok i → encode i = w)

/-- The operation codes of R111 with their operands; 0xD, 0xE and 0xF decode to no operation (R125). -/
def Obligations.OperationCodesOfTheTable : Prop :=
  RequestCode 0x0 (fun _ => .nop) ∧
  RequestCode 0x1 (fun w => .qInit (wordQueue w)) ∧
  RequestCode 0x2 (fun w => .qPush (wordQueue w) (wordByte w 0)) ∧
  RequestCode 0x3 (fun w => .qPop (wordQueue w)) ∧
  RequestCode 0x4 (fun _ => .tpInit) ∧
  RequestCode 0x5 (fun w => .rxEvent (wordByte w 0)) ∧
  RequestCode 0x6 (fun _ => .txEvent) ∧
  RequestCode 0x7 (fun _ => .tryRecv) ∧
  RequestCode 0x8 (fun w => .trySend (wordByte w 0)) ∧
  RequestCode 0x9 (fun _ => .frInit) ∧
  RequestCode 0xA (fun w => .feed (wordByte w 0)) ∧
  RequestCode 0xB (fun _ => .poll) ∧
  RequestCode 0xC (fun w => .encode (wordByte w 3) (wordByte w 2) (wordByte w 1) (wordByte w 0)) ∧
  ∀ w : Word40, (w.extractLsb' 36 4).toNat ∈ [0xD, 0xE, 0xF] →
    decode .req w = .error (.reservedOperation (w.extractLsb' 36 4))

/-- R113: bits an operation does not use are ignored, and the canonical word has them zero. -/
def Obligations.UnusedRequestBitsAreIgnored : Prop :=
  (∀ w w' : Word40, w.extractLsb' 36 4 = w'.extractLsb' 36 4 →
    w &&& usedBits (w.extractLsb' 36 4) = w' &&& usedBits (w.extractLsb' 36 4) → decode .req w = decode .req w') ∧
  ∀ i : Instr, i.format = .req → encode i &&& ~~~ usedBits ((encode i).extractLsb' 36 4) = 0

/-- R125: codes 0xD, 0xE and 0xF decode to no operation, and as requests on any port that is ready they are refused as in
R124: the response, and no other change. -/
def Obligations.ReservedCodesAreRefused : Prop :=
  ∀ w : Word40, (w.extractLsb' 36 4).toNat ∈ [0xD, 0xE, 0xF] →
    (∀ i, decode .req w ≠ .ok i) ∧
    ∀ (s : State) (p : Port) (rest : List Stimulus), s.inputs = .request p w :: rest → reqReady p s.blk = true →
      step s = .next { s with inputs := rest, port := p, out := [.rsp p refusal] }

/-- The nine wire commands by the `match` and `mask` of R101 to R109, with the fields of R91 and R95; any other code is no
command of the table (R97). -/
def Obligations.WireCommandCodes : Prop :=
  ∀ w : Word40,
    (w &&& 0x7F00000000 = 0x0400000000 → decode .pkt w =
      .ok (.cmdStartup (w.getLsbD 39) (wordByte w 3) (wordByte w 2) (wordByte w 1) (wordByte w 0))) ∧
    (w &&& 0x7F00000000 = 0x0700000000 → decode .pkt w =
      .ok (.cmdFlashProgram (w.getLsbD 39) (wordByte w 3) (wordByte w 2) (wordByte w 1) (wordByte w 0))) ∧
    (w &&& 0x7F00000000 = 0x0800000000 → decode .pkt w =
      .ok (.cmdFlashRead (w.getLsbD 39) (wordByte w 3) (wordByte w 2) (wordByte w 1) (wordByte w 0))) ∧
    (w &&& 0x7F00000000 = 0x0900000000 → decode .pkt w =
      .ok (.cmdVersion (w.getLsbD 39) (wordByte w 3) (wordByte w 2) (wordByte w 1) (wordByte w 0))) ∧
    (w &&& 0x7F00000000 = 0x0A00000000 → decode .pkt w =
      .ok (.cmdProtocolMode (w.getLsbD 39) (wordByte w 3) (wordByte w 2) (wordByte w 1) (wordByte w 0))) ∧
    (w &&& 0x7F00000000 = 0x0B00000000 → decode .pkt w =
      .ok (.cmdTowerNumber (w.getLsbD 39) (wordByte w 3) (wordByte w 2) (wordByte w 1) (wordByte w 0))) ∧
    (w &&& 0x7F00000000 = 0x0C00000000 → decode .pkt w =
      .ok (.cmdTime (w.getLsbD 39) (wordByte w 3) (wordByte w 2) (wordByte w 1) (wordByte w 0))) ∧
    (w &&& 0x7F00000000 = 0x0D00000000 → decode .pkt w =
      .ok (.cmdTowerMode (w.getLsbD 39) (wordByte w 3) (wordByte w 2) (wordByte w 1) (wordByte w 0))) ∧
    (w &&& 0x7F00000000 = 0x5000000000 → decode .pkt w =
      .ok (.cmdAnalogInput (w.getLsbD 39) (wordByte w 3) (wordByte w 2) (wordByte w 1) (wordByte w 0))) ∧
    ((w.extractLsb' 32 7).toNat ∉ [0x04, 0x07, 0x08, 0x09, 0x0A, 0x0B, 0x0C, 0x0D, 0x50] →
      decode .pkt w = .error (.unrecognisedCommand (w.extractLsb' 32 7)))

/-- The packet word carries the five bytes in wire order, the first in `W[39:32]` (R91), and a wire command is well formed
exactly when the XOR of its five bytes is zero (R92). -/
def Obligations.WireCommandBytesAndChecksum : Prop :=
  ∀ (i : Instr) (r : Frame), wireBytes i = some r →
    (encode i).extractLsb' 32 8 = r.command ∧ wordByte (encode i) 3 = r.parameter1 ∧
    wordByte (encode i) 2 = r.parameter2 ∧ wordByte (encode i) 1 = r.parameter3 ∧
    wordByte (encode i) 0 = r.checksum ∧
    (i.wellFormed = true ↔ xor5 r = 0) ∧
    (i.wellFormed = true ↔ r.checksum = r.command ^^^ r.parameter1 ^^^ r.parameter2 ^^^ r.parameter3)

/-- R93 (a) to (d): the all-zero packet is valid; four bytes have exactly one checksum that makes them valid; changing
exactly one byte makes a valid packet invalid; changing two bytes by the same difference leaves it valid. -/
def Obligations.ChecksumConsequences : Prop :=
  Frame.valid ⟨0, 0, 0, 0, 0⟩ = true ∧
  (∀ a b c d : Byte, ∃! k : Byte, Frame.valid ⟨a, b, c, d, k⟩ = true) ∧
  (∀ (r : Frame) (i : Nat) (v : Byte), i < 5 → r.valid = true → v ≠ frameGet r i →
    (frameSet r i v).valid = false) ∧
  (∀ (r : Frame) (i j : Nat) (d : Byte), i < j → j < 5 → r.valid = true →
    (frameSet (frameSet r i (frameGet r i ^^^ d)) j (frameGet r j ^^^ d)).valid = true)

/-- The response word of R120, field by field, and the word of a refusal. -/
def Obligations.ResponseWordFields : Prop :=
  (∀ r : Rsp, (rspWord r).getLsbD 33 = r.err ∧ (rspWord r).getLsbD 32 = r.ok ∧
    (rspWord r).extractLsb' 0 32 = r.data) ∧
  rspWord refusal = 0x200000000

/-! ### Requests, ports, responses -/

/-- When the next input is a request whose word decodes to `i`, and the port is ready, the step is `exec i` on the state
with the input taken, the port set and the outputs of the step before gone. A wire packet by one of its ways is the same
(both are the model's form of R74, log entries 2 and 20; the ready port is R42). -/
def Obligations.StepRunsTheDecodedInstruction : Prop :=
  (∀ (s : State) (p : Port) (w : Word40) (i : Instr) (rest : List Stimulus),
    s.inputs = .request p w :: rest → decode .req w = .ok i → reqReady p s.blk = true →
      step s = exec i { s with inputs := rest, port := p, out := [] }) ∧
  (∀ (s : State) (r : Route) (w : Word40) (i : Instr) (rest : List Stimulus),
    s.inputs = .packet r w :: rest → decode .pkt w = .ok i → (r = .line ∨ s.blk.encBusy = false) →
      step s = exec i { s with inputs := rest, route := r, out := [] })

/-- R124: a request on a port that does not accept it is refused, with no state change; `TX_EVENT` also while
`tx_irq_en == 0`. A request that the port accepts is not refused. -/
def Obligations.PortsAcceptTheirOperations : Prop :=
  ∀ (i : Instr) (s : State), i.format = .req → reqReady s.port s.blk = true →
    ((s.port ∉ tablePorts i ∨ (i = .txEvent ∧ s.blk.txIrqEn = false)) →
      exec i s = .next { s with out := s.out ++ [.rsp s.port refusal] }) ∧
    (s.port ∈ tablePorts i → (i = .txEvent → s.blk.txIrqEn = true) →
      ∀ t, exec i s = .next t → .rsp s.port refusal ∉ t.out.drop s.out.length)

/-- While an `ENCODE` is under way port `m` accepts nothing (R32, R44), and `M` issues nothing new before it has returned
(R74 item 2): in the model `M`'s turn is then the next step of that `ENCODE`, and what it presents stays its next input
(the model's form of waiting, log entry 18). -/
def Obligations.MainFlowWaitsForItsEncode : Prop :=
  (∀ (i : Instr) (s : State), i.format = .req → s.port = .m → s.blk.encBusy = true → exec i s = .next s) ∧
  ∀ (s : State) (x : Stimulus) (w : Word40) (rest : List Stimulus), s.blk.encBusy = true → s.inputs = x :: rest →
    x ∈ [.request .m w, .packet .feed w, .packet .send w] →
    step s = andThen (step { s with inputs := [.resume] }) fun t => .next { t with inputs := s.inputs }

/-- An operation accepted or refused on a ready port answers exactly one response, on its own port and on no other, but for
an `ENCODE` that is then under way and answers with its last step (R122); a response with `err = 1` has `ok = 0` and
`data = 0` and stands beside no state change (R120, R206). -/
def Obligations.OneResponsePerRequest : Prop :=
  ∀ (i : Instr) (s t : State), i.format = .req → reqReady s.port s.blk = true → exec i s = .next t →
    (∀ p, p ≠ s.port → responsesOn p t.out = responsesOn p s.out) ∧
    ((∃ r, responsesOn s.port t.out = responsesOn s.port s.out ++ [r] ∧
        (r.err = true → r = refusal ∧ t.blk = s.blk)) ∨
      (responsesOn s.port t.out = responsesOn s.port s.out ∧ t.blk.encBusy = true ∧
        ∃ c p1 p2 p3, i = .encode c p1 p2 p3))

/-! ### The Byte Queue -/

/-- R130, `Q_INIT`: code 0x1, port `m`; `start`, `end`, `count` become 0 and nothing else changes (storage as it is,
`tx_irq_en` as it is), the answer is `ok = 1`; the queue is empty, not full, and its contents are the empty list. -/
def Obligations.QInitEmptiesTheQueue : Prop :=
  RequestCode 0x1 (fun w => .qInit (wordQueue w)) ∧ (∀ q, RefusedOffPort .m (.qInit q)) ∧
  ∀ (q : QSel) (s : State), MainReady s →
    ∃ t, exec (.qInit q) s = .next t ∧
      t = { s with
        blk := s.blk.setQueue q { s.blk.queue q with startIdx := 0, endIdx := 0, count := 0 },
        out := s.out ++ [.rsp .m (done true 0)] } ∧
      contents q (t.blk.queue q) = [] ∧ (t.blk.queue q).empty = true ∧
      (0 < (s.blk.queue q).cap → (t.blk.queue q).full = false)

/-- R131, `Q_PUSH`: code 0x2, port `m`. It fails exactly when `count == N`, and then nothing is written. Else the byte is
stored at `end` and at no other slot, `count` is one more and `end` advances modulo `N`; the contents grow by the byte
at their end. -/
def Obligations.QPushStoresOrFails : Prop :=
  RequestCode 0x2 (fun w => .qPush (wordQueue w) (wordByte w 0)) ∧ (∀ q b, RefusedOffPort .m (.qPush q b)) ∧
  ∀ (q : QSel) (b : Byte) (s : State) (Q : Queue), Q = s.blk.queue q → MainReady s →
    (Q.count = Q.cap → exec (.qPush q b) s = .next { s with out := s.out ++ [.rsp .m (done false 0)] }) ∧
    (QueueInv Q → Q.count ≠ Q.cap → ∃ Q' : Queue,
      exec (.qPush q b) s = .next { s with
        blk := s.blk.setQueue q Q', out := s.out ++ [.rsp .m (done true 0)] } ∧
      Q'.cap = Q.cap ∧ Q'.startIdx = Q.startIdx ∧ Q'.endIdx = (Q.endIdx + 1) % Q.cap ∧ Q'.count = Q.count + 1 ∧
      storageRead Q'.buf Q.endIdx = some b ∧
      (∀ k, k ≠ Q.endIdx → storageRead Q'.buf k = storageRead Q.buf k) ∧
      contents q Q' = contents q Q ++ [b] ∧ Q'.empty = false ∧ (Q'.full = true ↔ Q.count + 1 = Q.cap))

/-- R132, `Q_POP`: code 0x3, port `m`. It fails exactly when `count == 0`, and then no state of the block is written and
the byte answered is a free one (log entry 10) with `data[31:8] = 0`. Else it answers the byte at `start`, which is the head of the
contents and has been written; `count` is one less, `start` advances modulo `N`, the storage stays as it is. -/
def Obligations.QPopReturnsTheOldestOrFails : Prop :=
  RequestCode 0x3 (fun w => .qPop (wordQueue w)) ∧ (∀ q, RefusedOffPort .m (.qPop q)) ∧
  ∀ (q : QSel) (s : State) (Q : Queue), Q = s.blk.queue q → MainReady s →
    (Q.count = 0 → ∃ v : Byte, exec (.qPop q) s =
      .next { s with out := s.out ++ [.rsp .m (done false (v.setWidth 32))], free := s.free + 1 }) ∧
    (QueueInv Q → Q.count ≠ 0 → ∃ (Q' : Queue) (v : Byte),
      exec (.qPop q) s = .next { s with
        blk := s.blk.setQueue q Q', out := s.out ++ [.rsp .m (done true (v.setWidth 32))] } ∧
      storageRead Q.buf Q.startIdx = some v ∧
      Q'.cap = Q.cap ∧ Q'.startIdx = (Q.startIdx + 1) % Q.cap ∧ Q'.endIdx = Q.endIdx ∧ Q'.count = Q.count - 1 ∧
      Q'.buf = Q.buf ∧ contents q Q = v :: contents q Q' ∧ Q'.full = false ∧ (Q'.empty = true ↔ Q.count = 1))

/-- R135: through `contents`, the queue is a bounded first-in first-out list. `Q_INIT` makes it empty; a push succeeds
exactly when its length is below `N`, and appends; a pop succeeds exactly when it is not empty, and takes its head; a
failing operation leaves it; its length is `count`. -/
def Obligations.QueueIsABoundedFifo : Prop :=
  ∀ (q : QSel) (b : Byte) (s : State), BlockInv s.blk → MainReady s →
    (contents q (s.blk.queue q)).length = (s.blk.queue q).count ∧
    (∃ t, exec (.qInit q) s = .next t ∧ contents q (t.blk.queue q) = []) ∧
    (∃ t, exec (.qPush q b) s = .next t ∧
      (((contents q (s.blk.queue q)).length < (s.blk.queue q).cap ∧ t.out = s.out ++ [.rsp .m (done true 0)] ∧
          contents q (t.blk.queue q) = contents q (s.blk.queue q) ++ [b]) ∨
        ((contents q (s.blk.queue q)).length = (s.blk.queue q).cap ∧ t.out = s.out ++ [.rsp .m (done false 0)] ∧
          contents q (t.blk.queue q) = contents q (s.blk.queue q)))) ∧
    (∃ t, exec (.qPop q) s = .next t ∧
      ((∃ v rest, contents q (s.blk.queue q) = v :: rest ∧
          t.out = s.out ++ [.rsp .m (done true (v.setWidth 32))] ∧ contents q (t.blk.queue q) = rest) ∨
        (contents q (s.blk.queue q) = [] ∧ (∃ v : Byte, t.out = s.out ++ [.rsp .m (done false (v.setWidth 32))]) ∧
          contents q (t.blk.queue q) = [])))

/-- R136, first in first out: from an empty queue, `k <= N` pushes and then `k` pops all succeed, the pops answer the bytes
in the order pushed, and the pop after them fails. -/
def Obligations.PushedBytesComeBackInOrder : Prop :=
  ∀ (q : QSel) (bs : List Byte) (s : State), BlockInv s.blk → MainReady s → (s.blk.queue q).count = 0 →
    bs.length ≤ (s.blk.queue q).cap →
    ∃ (t : State) (v : Byte),
      execAll (bs.map (fun b => .qPush q b) ++ bs.map (fun _ => .qPop q) ++ [.qPop q]) s = .next t ∧
      t.out = s.out ++ bs.map (fun _ => .rsp .m (done true 0)) ++
        bs.map (fun b => .rsp .m (done true (b.setWidth 32))) ++ [.rsp .m (done false (v.setWidth 32))] ∧
      (t.blk.queue q).count = 0

/-- R138: with `0 < count < N`, a push and a pop of one queue by different agents leave the same block in either order and
answer the same: `RX_EVENT` and `TRY_RECV` on `RXQ`, `TRY_SEND` and `TX_EVENT` on `TXQ`. -/
def Obligations.PushAndPopCommute : Prop :=
  ∀ (s : State) (b : Byte), BlockInv s.blk → s.blk.encBusy = false →
    (s.blk.rxq.count ≠ 0 → s.blk.rxq.count ≠ s.blk.rxq.cap → ∃ (t u : State) (v : Byte),
      andThen (exec (.rxEvent b) { s with port := .drx }) (fun x => exec .tryRecv { x with port := .m }) = .next t ∧
      andThen (exec .tryRecv { s with port := .m }) (fun x => exec (.rxEvent b) { x with port := .drx }) = .next u ∧
      t.blk = u.blk ∧
      t.out = s.out ++ [.rsp .drx (done true 0), .rsp .m (done true (v.setWidth 32))] ∧
      u.out = s.out ++ [.rsp .m (done true (v.setWidth 32)), .rsp .drx (done true 0)]) ∧
    (s.blk.txq.count ≠ 0 → s.blk.txq.count ≠ s.blk.txq.cap → s.blk.txIrqEn = true → ∃ (t u : State) (v : Byte),
      andThen (exec (.trySend b) { s with port := .m }) (fun x => exec .txEvent { x with port := .dtx }) = .next t ∧
      andThen (exec .txEvent { s with port := .dtx }) (fun x => exec (.trySend b) { x with port := .m }) = .next u ∧
      t.blk = u.blk ∧
      t.out = s.out ++ [.rsp .m (done true 0), .sent v, .rsp .dtx (done true (v.setWidth 32))] ∧
      u.out = s.out ++ [.sent v, .rsp .dtx (done true (v.setWidth 32)), .rsp .m (done true 0)])

/-- R26: the flags are functions of `count`; with capacity 1 a queue is always empty or full; after reset both queues are
empty and not full. -/
def Obligations.FlagsFollowTheCount : Prop :=
  (∀ q : Queue, (q.empty = true ↔ q.count = 0) ∧ (q.full = true ↔ q.count = q.cap) ∧
    (QueueInv q → q.cap = 1 → q.empty = true ∨ q.full = true)) ∧
  State.reset.blk.rxq.empty = true ∧ State.reset.blk.rxq.full = false ∧
  State.reset.blk.txq.empty = true ∧ State.reset.blk.txq.full = false

/-- The indices and the count fit the registers of R6: `IW(N)` and `CW(N)` bits (R20, D6). -/
def Obligations.IndicesFitTheirRegisters : Prop :=
  ∀ q : Queue, QueueInv q →
    q.startIdx < 2 ^ indexWidth q.cap ∧ q.endIdx < 2 ^ indexWidth q.cap ∧ q.count < 2 ^ countWidth q.cap

/-- An access to a slot that a queue does not have faults by name. This is the model's choice (log entry 6); R61 says that
no such access ever occurs, which `NoStepFaults` states of every state that meets the invariant. -/
def Obligations.AccessOutsideStorageFaults : Prop :=
  ∀ (q : QSel) (b : Byte) (s : State), MainReady s →
    ((s.blk.queue q).count ≠ (s.blk.queue q).cap → (s.blk.queue q).cap ≤ (s.blk.queue q).endIdx →
      exec (.qPush q b) s = .fault (.slotOutOfRange q (s.blk.queue q).endIdx)) ∧
    ((s.blk.queue q).count ≠ 0 → (s.blk.queue q).cap ≤ (s.blk.queue q).startIdx →
      exec (.qPop q) s = .fault (.slotOutOfRange q (s.blk.queue q).startIdx))

/-! ### The transport -/

/-- R150, `TP_INIT`: code 0x4, port `m`; both queues' indices and counts to 0 and `tx_irq_en` to 0 in one step; storage
and the framer as they are. -/
def Obligations.TpInitEmptiesBothQueues : Prop :=
  RequestCode 0x4 (fun _ => .tpInit) ∧ RefusedOffPort .m .tpInit ∧
  ∀ s : State, MainReady s → ∃ t, exec .tpInit s = .next t ∧
    t = { s with
      blk := { s.blk with
        rxq := { s.blk.rxq with startIdx := 0, endIdx := 0, count := 0 },
        txq := { s.blk.txq with startIdx := 0, endIdx := 0, count := 0 },
        txIrqEn := false },
      out := s.out ++ [.rsp .m (done true 0)] } ∧
    t.blk.rxq.empty = true ∧ t.blk.txq.empty = true ∧
    (0 < s.blk.rxq.cap → t.blk.rxq.full = false) ∧ (0 < s.blk.txq.cap → t.blk.txq.full = false)

/-- R152 and R153, `RX_EVENT`: code 0x5, port `drx` only, at any time. At a full `RXQ` the byte is dropped and only the
response says so; else it is stored at `RXQ.end`. The byte is part of the receive stream either way (R60). -/
def Obligations.RxEventStoresOrDrops : Prop :=
  RequestCode 0x5 (fun w => .rxEvent (wordByte w 0)) ∧ (∀ b, RefusedOffPort .drx (.rxEvent b)) ∧
  ∀ (b : Byte) (s : State) (Q : Queue), Q = s.blk.rxq → s.port = .drx →
    (Q.count = Q.cap → exec (.rxEvent b) s = .next { s with
      rxStream := s.rxStream ++ [b], out := s.out ++ [.rsp .drx (done false 0)] }) ∧
    (QueueInv Q → Q.count ≠ Q.cap → ∃ Q' : Queue,
      exec (.rxEvent b) s = .next { s with
        blk := { s.blk with rxq := Q' }, rxStream := s.rxStream ++ [b],
        out := s.out ++ [.rsp .drx (done true 0)] } ∧
      Q'.cap = Q.cap ∧ Q'.startIdx = Q.startIdx ∧ Q'.endIdx = (Q.endIdx + 1) % Q.cap ∧ Q'.count = Q.count + 1 ∧
      storageRead Q'.buf Q.endIdx = some b ∧
      (∀ k, k ≠ Q.endIdx → storageRead Q'.buf k = storageRead Q.buf k) ∧
      contents .rxq Q' = contents .rxq Q ++ [b] ∧ Q'.empty = false ∧ (Q'.full = true ↔ Q.count + 1 = Q.cap))

/-- R154 and R155, `TX_EVENT`: code 0x6, port `dtx` only, refused while `tx_irq_en == 0`. With a byte queued it is popped
and handed to the device, `tx_irq_en` as it was; with none, `tx_irq_en` is cleared and nothing else is written. -/
def Obligations.TxEventSendsOrDisarms : Prop :=
  RequestCode 0x6 (fun _ => .txEvent) ∧ RefusedOffPort .dtx .txEvent ∧
  ∀ (s : State) (Q : Queue), Q = s.blk.txq → s.port = .dtx →
    (s.blk.txIrqEn = false → exec .txEvent s = .next { s with out := s.out ++ [.rsp .dtx refusal] }) ∧
    (s.blk.txIrqEn = true → Q.count = 0 → ∃ v : Byte, exec .txEvent s = .next { s with
      blk := { s.blk with txIrqEn := false },
      out := s.out ++ [.rsp .dtx (done false (v.setWidth 32))], free := s.free + 1 }) ∧
    (QueueInv Q → s.blk.txIrqEn = true → Q.count ≠ 0 → ∃ (Q' : Queue) (v : Byte),
      exec .txEvent s = .next { s with
        blk := { s.blk with txq := Q' }, txStream := s.txStream ++ [v],
        out := s.out ++ [.sent v, .rsp .dtx (done true (v.setWidth 32))] } ∧
      Q'.cap = Q.cap ∧ Q'.startIdx = (Q.startIdx + 1) % Q.cap ∧ Q'.endIdx = Q.endIdx ∧ Q'.count = Q.count - 1 ∧
      Q'.buf = Q.buf ∧ contents .txq Q = v :: contents .txq Q' ∧ Q'.full = false ∧ (Q'.empty = true ↔ Q.count = 1))

/-- R156, `TRY_RECV`: code 0x7, port `m`; the pop of `RXQ`. -/
def Obligations.TryRecvTakesTheOldestByte : Prop :=
  RequestCode 0x7 (fun _ => .tryRecv) ∧ RefusedOffPort .m .tryRecv ∧
  ∀ (s : State) (Q : Queue), Q = s.blk.rxq → MainReady s →
    (Q.count = 0 → ∃ v : Byte, exec .tryRecv s =
      .next { s with out := s.out ++ [.rsp .m (done false (v.setWidth 32))], free := s.free + 1 }) ∧
    (QueueInv Q → Q.count ≠ 0 → ∃ (Q' : Queue) (v : Byte),
      exec .tryRecv s = .next { s with
        blk := { s.blk with rxq := Q' }, out := s.out ++ [.rsp .m (done true (v.setWidth 32))] } ∧
      Q'.cap = Q.cap ∧ Q'.startIdx = (Q.startIdx + 1) % Q.cap ∧ Q'.endIdx = Q.endIdx ∧ Q'.count = Q.count - 1 ∧
      Q'.buf = Q.buf ∧ contents .rxq Q = v :: contents .rxq Q' ∧ Q'.full = false ∧ (Q'.empty = true ↔ Q.count = 1))

/-- R158, `TRY_SEND`: code 0x8, port `m`. At a full `TXQ` it fails and nothing is written, `tx_irq_en` included; else the
byte is stored at `TXQ.end` and `tx_irq_en` is set, in one step. -/
def Obligations.TrySendStoresAndArms : Prop :=
  RequestCode 0x8 (fun w => .trySend (wordByte w 0)) ∧ (∀ b, RefusedOffPort .m (.trySend b)) ∧
  ∀ (b : Byte) (s : State) (Q : Queue), Q = s.blk.txq → MainReady s →
    (Q.count = Q.cap → exec (.trySend b) s = .next { s with out := s.out ++ [.rsp .m (done false 0)] }) ∧
    (QueueInv Q → Q.count ≠ Q.cap → ∃ Q' : Queue,
      exec (.trySend b) s = .next { s with
        blk := { s.blk with txq := Q', txIrqEn := true }, out := s.out ++ [.rsp .m (done true 0)] } ∧
      Q'.cap = Q.cap ∧ Q'.startIdx = Q.startIdx ∧ Q'.endIdx = (Q.endIdx + 1) % Q.cap ∧ Q'.count = Q.count + 1 ∧
      storageRead Q'.buf Q.endIdx = some b ∧
      (∀ k, k ≠ Q.endIdx → storageRead Q'.buf k = storageRead Q.buf k) ∧
      contents .txq Q' = contents .txq Q ++ [b] ∧ Q'.empty = false ∧ (Q'.full = true ↔ Q.count + 1 = Q.cap))

/-- R160 (a): a queued byte is never stranded with the notification off. Every step but a direct queue operation on port
`m` keeps `TXQ.count > 0 → tx_irq_en == 1`. -/
def Obligations.QueuedBytesKeepTheNotificationOn : Prop :=
  ∀ s t : State, (∀ x rest, s.inputs = x :: rest → noDirectQueue x = true) → Armed s.blk →
    step s = .next t → Armed t.blk

/-- R160 (b), one step at a time: but for `TP_INIT` and the direct queue operations, what an instruction hands to the
device, followed by what `TXQ` then holds, is what `TXQ` held followed by the bytes the instruction enqueued. Only
`TX_EVENT` hands over, one byte; only `TRY_SEND`, `ENCODE` and a packet on its way out enqueue, the byte they offer,
and only when `TXQ` has room. -/
def Obligations.TransmitStreamIsWhatWasEnqueued : Prop :=
  ∀ (i : Instr) (s t : State), BlockInv s.blk → directQueue i = false → i ≠ .tpInit → exec i s = .next t →
    ∃ gone added : List Byte,
      t.txStream = s.txStream ++ gone ∧ gone ++ contents .txq t.blk.txq = contents .txq s.blk.txq ++ added ∧
      (gone ≠ [] → i = .txEvent ∧ gone.length = 1) ∧
      (added ≠ [] → s.blk.txq.count < s.blk.txq.cap ∧ ∃ b, offered i s.route = some b ∧ added = [b])

/-- R160 (c), one step at a time: but for `TP_INIT` and the direct queue operations, what `RXQ` held followed by the bytes an
instruction stored is what it took out followed by what `RXQ` then holds. Only `TRY_RECV` and `POLL` take out, one byte;
only `RX_EVENT` and a packet on the receive line store: of the bytes they add to the receive stream the first, and all of
them unless `RXQ` is then full. -/
def Obligations.ReceiveStreamIsWhatWasStored : Prop :=
  ∀ (i : Instr) (s t : State), BlockInv s.blk → directQueue i = false → i ≠ .tpInit → exec i s = .next t →
    ∃ taken stored arrived : List Byte,
      contents .rxq s.blk.rxq ++ stored = taken ++ contents .rxq t.blk.rxq ∧
      t.rxStream = s.rxStream ++ arrived ∧ stored <+: arrived ∧
      (stored.length < arrived.length → t.blk.rxq.count = t.blk.rxq.cap) ∧
      (taken ≠ [] → (i = .tryRecv ∨ i = .poll) ∧ taken.length = 1) ∧
      (arrived ≠ [] → (∃ b, i = .rxEvent b ∧ arrived = [b]) ∨
        (s.route = .line ∧ ∃ r, wireBytes i = some r ∧ arrived = frameBytes r))

/-! ### The framer -/

/-- R170, `FR_INIT`: code 0x9, port `m`; `position` to 0, the window and `PKT` as they are. -/
def Obligations.FrInitOnlyMovesTheCursor : Prop :=
  RequestCode 0x9 (fun _ => .frInit) ∧ RefusedOffPort .m .frInit ∧
  ∀ s : State, MainReady s → exec .frInit s = .next { s with
    blk := { s.blk with position := 0 }, out := s.out ++ [.rsp .m (done true 0)] }

/-- R172, `FEED`: code 0xA, port `m`. Below position 4 the byte is stored at `F[position]` and the cursor advances; at
position 4 a matching byte delivers `F[0..3]` to `PKT` and the response and takes the cursor to 0; any other byte
shifts the window by one, and the cursor stays. -/
def Obligations.FeedStoresChecksAndShifts : Prop :=
  RequestCode 0xA (fun w => .feed (wordByte w 0)) ∧ (∀ b, RefusedOffPort .m (.feed b)) ∧
  ∀ (b : Byte) (s : State), MainReady s →
    (∀ k, s.blk.position.toNat = k → k < 4 → ∃ t, exec (.feed b) s = .next t ∧
      t = { s with blk := { s.blk with f := t.blk.f, position := t.blk.position },
                   out := s.out ++ [.rsp .m (done false 0)] } ∧
      t.blk.position.toNat = k + 1 ∧ frameGet t.blk.f k = b ∧
      ∀ j, j < 5 → j ≠ k → frameGet t.blk.f j = frameGet s.blk.f j) ∧
    (s.blk.position = 4 →
      s.blk.f.command ^^^ s.blk.f.parameter1 ^^^ s.blk.f.parameter2 ^^^ s.blk.f.parameter3 = b →
      exec (.feed b) s = .next { s with
        blk := { s.blk with
          f := { s.blk.f with checksum := b },
          pkt := ⟨s.blk.f.command, s.blk.f.parameter1, s.blk.f.parameter2, s.blk.f.parameter3⟩,
          position := 0 },
        out := s.out ++ [.rsp .m (done true
          (packData s.blk.f.command s.blk.f.parameter1 s.blk.f.parameter2 s.blk.f.parameter3))] }) ∧
    (s.blk.position = 4 →
      s.blk.f.command ^^^ s.blk.f.parameter1 ^^^ s.blk.f.parameter2 ^^^ s.blk.f.parameter3 ≠ b →
      exec (.feed b) s = .next { s with
        blk := { s.blk with f := ⟨s.blk.f.parameter1, s.blk.f.parameter2, s.blk.f.parameter3, b, b⟩ },
        out := s.out ++ [.rsp .m (done false 0)] })

/-- R177, the cursor's transitions: a feed below 4 adds one, a match takes 4 to 0 and is the one result "packet complete", a
mismatch leaves 4; `FR_INIT` and a reset edge take it to 0; every other operation leaves it, and so does a later step of an `ENCODE`. -/
def Obligations.CursorTransitions : Prop :=
  (∀ (b : Byte) (s : State), MainReady s → ∃ (t : State) (r : Rsp), exec (.feed b) s = .next t ∧
    t.out = s.out ++ [.rsp .m r] ∧ r.err = false ∧
    (s.blk.position = 0 → t.blk.position = 1 ∧ r.ok = false) ∧ (s.blk.position = 1 → t.blk.position = 2 ∧ r.ok = false) ∧
    (s.blk.position = 2 → t.blk.position = 3 ∧ r.ok = false) ∧ (s.blk.position = 3 → t.blk.position = 4 ∧ r.ok = false) ∧
    (s.blk.position = 4 → xor4 s.blk.f.command s.blk.f.parameter1 s.blk.f.parameter2 s.blk.f.parameter3 = b →
      t.blk.position = 0 ∧ r.ok = true) ∧
    (s.blk.position = 4 → xor4 s.blk.f.command s.blk.f.parameter1 s.blk.f.parameter2 s.blk.f.parameter3 ≠ b →
      t.blk.position = 4 ∧ r.ok = false)) ∧
  (∀ s : State, MainReady s → ∃ t, exec .frInit s = .next t ∧ t.blk.position = 0) ∧
  (∀ (s : State) (pins : Pins) (rest : List Stimulus), s.inputs = .edge pins :: rest → pins.rst = true →
    ∃ t, step s = .next t ∧ t.blk.position = 0) ∧
  (∀ (i : Instr) (s t : State), writesPosition i s.route = false → exec i s = .next t →
    t.blk.position = s.blk.position) ∧
  ∀ (s t : State) (rest : List Stimulus), s.inputs = .resume :: rest → step s = .next t →
    t.blk.position = s.blk.position

/-- R178, `POLL`: code 0xB, port `m`. On an empty `RXQ` it answers `ok = 0`, `data = 0` and nothing changes; else it is a
`TRY_RECV` and a `FEED` of the byte that gave, at most one byte, with the feed's response, in one step (log entry 1). -/
def Obligations.PollFeedsOneByte : Prop :=
  RequestCode 0xB (fun _ => .poll) ∧ RefusedOffPort .m .poll ∧
  ∀ (s : State) (Q : Queue), Q = s.blk.rxq → MainReady s →
    (Q.count = 0 → exec .poll s = .next { s with out := s.out ++ [.rsp .m (done false 0)] }) ∧
    (QueueInv Q → Q.count ≠ 0 → ∃ (v : Byte) (rest : List Byte) (t u : State),
      contents .rxq Q = v :: rest ∧ exec .tryRecv s = .next t ∧
      exec (.feed v) { t with out := s.out } = .next u ∧ exec .poll s = .next u ∧
      contents .rxq u.blk.rxq = rest ∧ u.blk.rxq.count = Q.count - 1)

/-- R178, last corner case: an `RX_EVENT` or a `TX_EVENT` that falls between the two steps of a `POLL` leaves the block and the
streams as they are when the event comes after the whole `POLL`. The result is the same: the feed of the byte that the pop
gave answers what the `POLL` answers, and the event answers the same. -/
def Obligations.EventsBetweenTheStepsOfAPollCommute : Prop :=
  ∀ (s : State) (v w : Byte) (ev : Instr) (p : Port), BlockInv s.blk → MainReady s →
    ((ev = .rxEvent w ∧ p = .drx) ∨ (ev = .txEvent ∧ p = .dtx)) →
    (contents .rxq s.blk.rxq).head? = some v →
    ∃ t u : State,
      andThen (andThen (exec .tryRecv s) fun x => exec ev { x with port := p })
        (fun x => exec (.feed v) { x with port := .m }) = .next t ∧
      andThen (exec .poll s) (fun x => exec ev { x with port := p }) = .next u ∧
      t.blk = u.blk ∧ t.txStream = u.txStream ∧ t.rxStream = u.rxStream ∧
      (∃ r, responsesOn .m t.out = responsesOn .m s.out ++ [done true (v.setWidth 32), r] ∧
        responsesOn .m u.out = responsesOn .m s.out ++ [r]) ∧
      responsesOn p t.out = responsesOn p u.out ∧ sentBytes t.out = sentBytes u.out

/-- R180, the step of `ENCODE` that accepts the request: code 0xC, port `m`. The five bytes and the progress are loaded. At a
full `TXQ` the operation ends with `ok = 0` and nothing enqueued; else the command byte is enqueued, `tx_irq_en` is set
and the operation is under way, with no response yet. -/
def Obligations.EncodeFirstStep : Prop :=
  RequestCode 0xC (fun w => .encode (wordByte w 3) (wordByte w 2) (wordByte w 1) (wordByte w 0)) ∧
  (∀ c p1 p2 p3, RefusedOffPort .m (.encode c p1 p2 p3)) ∧
  ∀ (c p1 p2 p3 : Byte) (s : State) (Q : Queue), Q = s.blk.txq → MainReady s →
    (Q.count = Q.cap → ∃ t, exec (.encode c p1 p2 p3) s = .next t ∧
      t = { s with blk := { s.blk with encB := t.blk.encB, encIdx := t.blk.encIdx },
                   out := s.out ++ [.rsp .m (done false 0)] }) ∧
    (QueueInv Q → Q.count ≠ Q.cap → ∃ Q' : Queue,
      exec (.encode c p1 p2 p3) s = .next { s with
        blk := { s.blk with
          txq := Q', txIrqEn := true, encBusy := true, encIdx := 1,
          encB := ⟨c, p1, p2, p3, c ^^^ p1 ^^^ p2 ^^^ p3⟩ } } ∧
      Q'.cap = Q.cap ∧ Q'.startIdx = Q.startIdx ∧ Q'.endIdx = (Q.endIdx + 1) % Q.cap ∧ Q'.count = Q.count + 1 ∧
      storageRead Q'.buf Q.endIdx = some c ∧
      (∀ k, k ≠ Q.endIdx → storageRead Q'.buf k = storageRead Q.buf k) ∧
      contents .txq Q' = contents .txq Q ++ [c])

/-- R180, a later step of an `ENCODE` under way: one enqueue attempt on `enc_b[enc_idx]`. A full `TXQ` aborts it with `ok = 0`,
the bytes enqueued before stay; the fifth byte ends it with `ok = 1`; any other leaves it under way. -/
def Obligations.EncodeLaterSteps : Prop :=
  ∀ (s : State) (rest : List Stimulus) (v : Byte), BlockInv s.blk → s.blk.encBusy = true →
    s.inputs = .resume :: rest → v = frameGet s.blk.encB s.blk.encIdx.toNat →
    ∃ t, step s = .next t ∧
      t = { s with
        inputs := rest, out := t.out,
        blk := { s.blk with
          txq := t.blk.txq, txIrqEn := t.blk.txIrqEn, encBusy := t.blk.encBusy, encIdx := t.blk.encIdx } } ∧
      (s.blk.txq.count = s.blk.txq.cap →
        t.blk.txq = s.blk.txq ∧ t.blk.txIrqEn = s.blk.txIrqEn ∧ t.blk.encBusy = false ∧
        t.out = [.rsp .m (done false 0)]) ∧
      (s.blk.txq.count ≠ s.blk.txq.cap →
        contents .txq t.blk.txq = contents .txq s.blk.txq ++ [v] ∧ t.blk.txIrqEn = true ∧
        (∀ k, k ≠ s.blk.txq.endIdx → storageRead t.blk.txq.buf k = storageRead s.blk.txq.buf k) ∧
        (s.blk.encIdx = 4 → t.blk.encBusy = false ∧ t.out = [.rsp .m (done true 0)]) ∧
        (s.blk.encIdx ≠ 4 → t.blk.encBusy = true ∧ t.blk.encIdx.toNat = s.blk.encIdx.toNat + 1 ∧ t.out = []))

/-- R180 to R183 with no event between: with five free slots an `ENCODE` puts its five bytes (R181) into `TXQ`, in wire order
and together, and answers `ok = 1` with its fifth step; with fewer, the first that fit stay enqueued and the step that
finds `TXQ` full answers `ok = 0`. -/
def Obligations.EncodeWithoutEventsBetween : Prop :=
  ∀ (s : State) (w : Word40) (c p1 p2 p3 : Byte) (rest : List Stimulus) (room : Nat),
    BlockInv s.blk → s.blk.encBusy = false → decode .req w = .ok (.encode c p1 p2 p3) →
    s.inputs = .request .m w :: (List.replicate 4 .resume ++ rest) → s.blk.txq.count + room = s.blk.txq.cap →
    (5 ≤ room → ∃ t, runSteps 5 s = .next t ∧
      contents .txq t.blk.txq = contents .txq s.blk.txq ++ [c, p1, p2, p3, c ^^^ p1 ^^^ p2 ^^^ p3] ∧
      t.blk.txIrqEn = true ∧ t.blk.encBusy = false ∧ t.out = [.rsp .m (done true 0)] ∧ t.inputs = rest ∧
      t.blk.rxq = s.blk.rxq ∧ t.blk.f = s.blk.f ∧ t.blk.position = s.blk.position ∧ t.blk.pkt = s.blk.pkt) ∧
    (room < 5 → ∃ t, runSteps (room + 1) s = .next t ∧
      contents .txq t.blk.txq =
        contents .txq s.blk.txq ++ [c, p1, p2, p3, c ^^^ p1 ^^^ p2 ^^^ p3].take room ∧
      t.blk.txq.count = t.blk.txq.cap ∧ (0 < room → t.blk.txIrqEn = true) ∧ t.blk.encBusy = false ∧
      t.out = [.rsp .m (done false 0)] ∧
      t.blk.rxq = s.blk.rxq ∧ t.blk.f = s.blk.f ∧ t.blk.position = s.blk.position ∧ t.blk.pkt = s.blk.pkt)

/-- R183: room for the rest of an `ENCODE` is kept by every request on `drx` and `dtx`, and used up one by one by its own
steps, so an `ENCODE` that began with five free slots succeeds whatever events fall between. -/
def Obligations.EventsNeverTakeAnEncodesRoom : Prop :=
  ∀ s : State, BlockInv s.blk → s.blk.encBusy = true →
    s.blk.txq.count + (5 - s.blk.encIdx.toNat) ≤ s.blk.txq.cap →
    (∀ (p : Port) (w : Word40) (rest : List Stimulus), p ≠ .m → s.inputs = .request p w :: rest →
      ∃ t, step s = .next t ∧
      t.blk.encBusy = true ∧ t.blk.encIdx = s.blk.encIdx ∧ t.blk.encB = s.blk.encB ∧
      t.blk.txq.count + (5 - t.blk.encIdx.toNat) ≤ t.blk.txq.cap) ∧
    (∀ (rest : List Stimulus), s.inputs = .resume :: rest → ∃ t, step s = .next t ∧
      contents .txq t.blk.txq = contents .txq s.blk.txq ++ [frameGet s.blk.encB s.blk.encIdx.toNat] ∧
      ((t.blk.encBusy = true ∧ t.blk.encIdx.toNat = s.blk.encIdx.toNat + 1 ∧ t.blk.encB = s.blk.encB ∧
          t.blk.txq.count + (5 - t.blk.encIdx.toNat) ≤ t.blk.txq.cap) ∨
        (s.blk.encIdx = 4 ∧ t.blk.encBusy = false ∧ t.out = [.rsp .m (done true 0)])))

/-- R184, `NOP`: code 0x0, any port; it answers `ok = 1`, `data = 0` and neither reads nor writes any state. -/
def Obligations.NopChangesNothing : Prop :=
  RequestCode 0x0 (fun _ => .nop) ∧
  ∀ s : State, reqReady s.port s.blk = true →
    exec .nop s = .next { s with out := s.out ++ [.rsp s.port (done true 0)] }

/-- R185, the round trip: from `position == 0`, feeding the five bytes of `ENC5(c, p1, p2, p3)` in order answers `ok = 0` four
times and then `ok = 1` with the four bytes, and leaves `position == 0` and the four bytes in `PKT`. -/
def Obligations.FeedingAnEncodedFrameDeliversIt : Prop :=
  ∀ (c p1 p2 p3 : Byte) (s : State), MainReady s → s.blk.position = 0 →
    ∃ t, execAll ((frameBytes (enc5 c p1 p2 p3)).map .feed) s = .next t ∧
      t.out = s.out ++ [.rsp .m (done false 0), .rsp .m (done false 0), .rsp .m (done false 0),
        .rsp .m (done false 0), .rsp .m (done true (packData c p1 p2 p3))] ∧
      t.blk.position = 0 ∧ t.blk.pkt = ⟨c, p1, p2, p3⟩ ∧
      t.blk.rxq = s.blk.rxq ∧ t.blk.txq = s.blk.txq ∧ t.blk.txIrqEn = s.blk.txIrqEn

/-- R186: what the framer does to a whole stream, fed from `position == 0` (`h` empty) or behind the bytes `h` fed since the
last completion. Every feed answers as the completion times say, by the last five bytes since the last completion; and
the registers are then what R186 says of the bytes fed since. A stream of valid frames completes at every fifth byte. -/
def Obligations.FramerFollowsTheCompletionTimes : Prop :=
  (∀ b : Block, b.position = 0 → FramerSees [] b) ∧
  (∀ (bs h : List Byte) (s : State), MainReady s → FramerSees h s.blk →
    ∃ t, execAll (bs.map .feed) s = .next t ∧
      t.out = s.out ++ (streamResponses h bs).map (.rsp .m) ∧
      FramerSees (sinceCompletion h bs) t.blk) ∧
  (∀ (fs : List Frame) (s : State), MainReady s → s.blk.position = 0 → (∀ r ∈ fs, r.valid = true) →
    ∃ t, execAll ((fs.flatMap frameBytes).map .feed) s = .next t ∧ t.blk.position = 0 ∧
      t.out = s.out ++ (fs.flatMap fun r => List.replicate 4 (done false 0) ++
        [done true (packData r.command r.parameter1 r.parameter2 r.parameter3)]).map (.rsp .m))

/-- R187: a frame with exactly one byte changed, then a valid frame, fed from `position == 0`. If none of the four windows that
mix their bytes has XOR zero, nine feeds answer "not yet complete" and the tenth delivers the valid frame. If window `k` is
the first that has, the feed of its last byte is the first to answer "packet complete": a false completion, with the first
four bytes of that window; `position` returns to 0, the bytes left are taken as the start of a new packet, and the second
frame is not delivered. -/
def Obligations.ResynchronisationAfterOneDamagedByte : Prop :=
  ∀ (g b : Frame) (i : Nat) (v : Byte) (s : State) (a : List Byte), MainReady s → s.blk.position = 0 →
    g.valid = true → b.valid = true → i < 5 → v ≠ frameGet g i → a = frameBytes (frameSet g i v) →
    ((∀ k, k < 4 → xorAll (((a ++ frameBytes b).drop (k + 1)).take 5) ≠ 0) →
      ∃ t, execAll ((a ++ frameBytes b).map .feed) s = .next t ∧
        t.out = s.out ++ List.replicate 9 (.rsp .m (done false 0)) ++
          [.rsp .m (done true (packData b.command b.parameter1 b.parameter2 b.parameter3))] ∧
        t.blk.position = 0 ∧ t.blk.pkt = ⟨b.command, b.parameter1, b.parameter2, b.parameter3⟩) ∧
    (∀ (k : Nat) (w0 w1 w2 w3 w4 : Byte), k < 4 →
      ((a ++ frameBytes b).drop (k + 1)).take 5 = [w0, w1, w2, w3, w4] → xorAll [w0, w1, w2, w3, w4] = 0 →
      (∀ j, j < k → xorAll (((a ++ frameBytes b).drop (j + 1)).take 5) ≠ 0) →
      ∃ t u, execAll (((a ++ frameBytes b).take (6 + k)).map .feed) s = .next t ∧
        t.out = s.out ++ List.replicate (5 + k) (.rsp .m (done false 0)) ++
          [.rsp .m (done true (packData w0 w1 w2 w3))] ∧
        t.blk.position = 0 ∧ t.blk.pkt = ⟨w0, w1, w2, w3⟩ ∧
        execAll (((a ++ frameBytes b).drop (6 + k)).map .feed) t = .next u ∧
        u.out = t.out ++ List.replicate (4 - k) (.rsp .m (done false 0)) ∧
        u.blk.position.toNat = 4 - k ∧ u.blk.pkt = ⟨w0, w1, w2, w3⟩)

/-! ### The wire commands -/

/-- A wire packet on the receive line is five `RX_EVENT`s of its bytes in wire order, one after the other (the `wire:` line of
R126), whatever its code (R97): `CMD_STARTUP`, `CMD_FLASH_PROGRAM`, `CMD_FLASH_READ`, `CMD_VERSION`, `CMD_PROTOCOL_MODE`,
`CMD_TOWER_NUMBER`, `CMD_TIME`, `CMD_TOWER_MODE`, `CMD_ANALOG_INPUT` or none of them. One step of the model (log entries 14
and 15). -/
def Obligations.PacketOnTheLineIsFiveRxEvents : Prop :=
  ∀ (s : State) (w : Word40) (rest : List Stimulus), s.inputs = .packet .line w :: rest →
    step s = andThen
      (performAll ((frameBytes (pktFrame w)).map fun b => .request .drx (encode (.rxEvent b))) s [])
      fun t => .next { t with inputs := rest, port := s.port, route := .line }

/-- The nine wire commands on the receive line, `CMD_STARTUP`, `CMD_FLASH_PROGRAM`, `CMD_FLASH_READ`, `CMD_VERSION`,
`CMD_PROTOCOL_MODE`, `CMD_TOWER_NUMBER`, `CMD_TIME`, `CMD_TOWER_MODE`, `CMD_ANALOG_INPUT`: of the five bytes the first that
find room join `RXQ` in wire order and the rest are dropped (R126, R153; log entry 14): `end` advances by as many, and only
their slots of the storage are written; the framer, `TXQ` and `tx_irq_en` are as before. -/
def Obligations.WireCommandArrivesInTheReceiveQueue : Prop :=
  ∀ (i : Instr) (r : Frame) (s : State), wireBytes i = some r → s.route = .line → BlockInv s.blk →
    ∃ t, exec i s = .next t ∧
      contents .rxq t.blk.rxq =
        contents .rxq s.blk.rxq ++
          [r.command, r.parameter1, r.parameter2, r.parameter3, r.checksum].take (s.blk.rxq.cap - s.blk.rxq.count) ∧
      t = { s with
        blk := { s.blk with rxq := t.blk.rxq },
        rxStream := s.rxStream ++ [r.command, r.parameter1, r.parameter2, r.parameter3, r.checksum],
        out := t.out } ∧
      t.blk.rxq.cap = s.blk.rxq.cap ∧ t.blk.rxq.startIdx = s.blk.rxq.startIdx ∧
      t.blk.rxq.count = min (s.blk.rxq.count + 5) s.blk.rxq.cap ∧
      t.blk.rxq.endIdx = (s.blk.rxq.endIdx + min 5 (s.blk.rxq.cap - s.blk.rxq.count)) % s.blk.rxq.cap ∧
      (∀ k, (∀ j, j < min 5 (s.blk.rxq.cap - s.blk.rxq.count) → k ≠ (s.blk.rxq.endIdx + j) % s.blk.rxq.cap) →
        storageRead t.blk.rxq.buf k = storageRead s.blk.rxq.buf k) ∧
      t.out = s.out ++ (List.range 5).map (fun k => .rsp .drx (done (decide (s.blk.rxq.count + k < s.blk.rxq.cap)) 0))

/-- The nine wire commands fed to the framer (R100), `CMD_STARTUP`, `CMD_FLASH_PROGRAM`, `CMD_FLASH_READ`, `CMD_VERSION`,
`CMD_PROTOCOL_MODE`, `CMD_TOWER_NUMBER`, `CMD_TIME`, `CMD_TOWER_MODE`, `CMD_ANALOG_INPUT`: from `position == 0` a command with
its right checksum completes at the fifth byte with its first four bytes, bit 7 of the command as it came (R95, R174; T46);
with a wrong one it does not, and the window has shifted once. And a packet word of any code (R97: also one in no row of the
table), fed at any position, is five `FEED` requests of its bytes in wire order. One step of the model (log entries 14 and
15). -/
def Obligations.WireCommandIsDeliveredByTheFramer : Prop :=
  (∀ (s : State) (w : Word40) (rest : List Stimulus), s.inputs = .packet .feed w :: rest → s.blk.encBusy = false →
    step s = andThen
      (performAll ((frameBytes (pktFrame w)).map fun b => .request .m (encode (.feed b))) s [])
      fun t => .next { t with inputs := rest, port := s.port, route := .feed }) ∧
  ∀ (i : Instr) (r : Frame) (s : State), wireBytes i = some r → s.route = .feed → s.blk.encBusy = false →
    s.blk.position = 0 →
    (i.wellFormed = true → exec i s = .next { s with
      blk := { s.blk with f := r, pkt := ⟨r.command, r.parameter1, r.parameter2, r.parameter3⟩ },
      out := s.out ++ List.replicate 4 (.rsp .m (done false 0)) ++
        [.rsp .m (done true (packData r.command r.parameter1 r.parameter2 r.parameter3))] }) ∧
    (i.wellFormed = false → exec i s = .next { s with
      blk := { s.blk with f := ⟨r.parameter1, r.parameter2, r.parameter3, r.checksum, r.checksum⟩, position := 4 },
      out := s.out ++ List.replicate 5 (.rsp .m (done false 0)) })

/-- The nine wire commands on their way to the host (R100: a packet the block sends through `ENCODE`), `CMD_STARTUP`,
`CMD_FLASH_PROGRAM`, `CMD_FLASH_READ`, `CMD_VERSION`, `CMD_PROTOCOL_MODE`, `CMD_TOWER_NUMBER`, `CMD_TIME`, `CMD_TOWER_MODE`,
`CMD_ANALOG_INPUT`: the same step as an `ENCODE` of their first four bytes, the command byte whole (R174; log entry
14). And a packet word of any code (R97: also one in no row of the table) is one `ENCODE` request of its first four bytes. -/
def Obligations.WireCommandIsSentByEncode : Prop :=
  (∀ (s : State) (w : Word40) (rest : List Stimulus), s.inputs = .packet .send w :: rest → s.blk.encBusy = false →
    step s = andThen
      (step { s with inputs :=
        [.request .m (encode (.encode (wordByte w 4) (wordByte w 3) (wordByte w 2) (wordByte w 1)))] })
      fun t => .next { t with inputs := rest, port := s.port, route := .send }) ∧
  ∀ (i : Instr) (r : Frame) (s : State), wireBytes i = some r → s.route = .send → MainReady s → BlockInv s.blk →
    exec i s = exec (.encode r.command r.parameter1 r.parameter2 r.parameter3) s ∧ ∃ t, exec i s = .next t

/-! ### The whole block -/

/-- The values R37 gives after reset (R230, T50), whatever the capacities `N_RX, N_TX >= 1` are: no slot of
storage has a value (the model's form of an unspecified storage, log entry 5), and every port is ready (R232). -/
def Obligations.ResetValues : Prop :=
  State.reset.blk.rxq.startIdx = 0 ∧ State.reset.blk.rxq.endIdx = 0 ∧ State.reset.blk.rxq.count = 0 ∧
  State.reset.blk.txq.startIdx = 0 ∧ State.reset.blk.txq.endIdx = 0 ∧ State.reset.blk.txq.count = 0 ∧
  State.reset.blk.txIrqEn = false ∧ State.reset.blk.position = 0 ∧ State.reset.blk.encBusy = false ∧
  1 ≤ State.reset.blk.rxq.cap ∧ 1 ≤ State.reset.blk.txq.cap ∧
  (∀ i, storageRead State.reset.blk.rxq.buf i = none) ∧ (∀ i, storageRead State.reset.blk.txq.buf i = none) ∧
  ∀ p, reqReady p State.reset.blk = true

/-- The invariant of R24, R30, R32 and R61 holds after reset (R24: "It holds after reset"). -/
def Obligations.ResetMeetsTheInvariant : Prop := BlockInv State.reset.blk ∧ Armed State.reset.blk

/-- Every step keeps the invariant: the ranges of R24 with `end == (start + count) mod N`, the canonical form of storage (the
model's, log entry 5), the cursor in `[0, 5)` (R30), the encoder's index (R32), every queued slot written (R132, R134). -/
def Obligations.StepKeepsTheInvariant : Prop :=
  ∀ s t : State, BlockInv s.blk → step s = .next t → BlockInv t.blk

/-- Where the invariant holds no step faults or is refused by the model: the block never stops (R200), and no access to
storage is out of range (R61; the fault is the model's, log entry 6). -/
def Obligations.NoStepFaults : Prop := ∀ s : State, BlockInv s.blk → ∃ t, step s = .next t

/-- So a run of any length from a state that meets the invariant meets no fault. -/
def Obligations.EveryRunIsSafe : Prop := ∀ (n : Nat) (s : State), BlockInv s.blk → SafeRun n s

/-- The capacities are fixed (R6, D5). -/
def Obligations.CapacitiesNeverChange : Prop :=
  ∀ s t : State, step s = .next t → t.blk.rxq.cap = s.blk.rxq.cap ∧ t.blk.txq.cap = s.blk.txq.cap

/-- A rising edge with `rst == 1` (R40, R230): the values of R37, whatever the ports carry, with no request accepted and no
response; storage (D9) and both streams (R233) as they are, `F`, `PKT`, `enc_idx` and `enc_b` unspecified (log entry 11). -/
def Obligations.ResetEdgeRestoresTheStart : Prop :=
  ∀ (s : State) (pins : Pins) (rest : List Stimulus), s.inputs = .edge pins :: rest → pins.rst = true →
    ∃ t, step s = .next t ∧ t.inputs = rest ∧ t.out = [] ∧
      t.blk.rxq = { s.blk.rxq with startIdx := 0, endIdx := 0, count := 0 } ∧
      t.blk.txq = { s.blk.txq with startIdx := 0, endIdx := 0, count := 0 } ∧
      t.blk.txIrqEn = false ∧ t.blk.position = 0 ∧ t.blk.encBusy = false ∧
      t.rxStream = s.rxStream ∧ t.txStream = s.txStream

/-- A rising edge without reset is the requests on `drx`, `dtx` and `m` taken one after the other in that order, each on the
state the one before it left (R43); while an `ENCODE` is under way the turn of `m` is its next enqueue attempt (R44).
So the clocked block is one of the interleavings of R74 (the edge as one step is the model's, log entry 21). -/
def Obligations.ClockEdgeIsAnInterleaving : Prop :=
  ∀ (s : State) (drx dtx m : Option Word40) (rest : List Stimulus),
    s.inputs = .edge { rst := false, drx := drx, dtx := dtx, m := m } :: rest →
    step s = andThen
      (performAll ((drx.map (Stimulus.request .drx)).toList ++ (dtx.map (Stimulus.request .dtx)).toList ++
        (if s.blk.encBusy then [.resume] else (m.map (Stimulus.request .m)).toList)) s [])
      fun t => .next { t with inputs := rest }

/-- R45, where the table has no `w`: an instruction leaves every piece of state that the table does not let it write, and of a
queue it writes the storage, `start` and `end` each only where their column says so. A push writes the slot at `end` and no
other; a packet on the receive line, five pushes, only the five slots from there. A wire command has the row of the
operations that carry it: five `RX_EVENT`s, five `FEED`s or an `ENCODE` (the model's reading, log entry 14). -/
def Obligations.NothingElseIsWritten : Prop :=
  ∀ (i : Instr) (s t : State), exec i s = .next t →
    (writesRxq i s.route = false → t.blk.rxq = s.blk.rxq) ∧
    (writesTxq i s.route = false → t.blk.txq = s.blk.txq) ∧
    (writesIrq i s.route = false → t.blk.txIrqEn = s.blk.txIrqEn) ∧
    (writesWindow i s.route = false → t.blk.f = s.blk.f ∧ t.blk.pkt = s.blk.pkt) ∧
    (writesPosition i s.route = false → t.blk.position = s.blk.position) ∧
    (writesEnc i s.route = false →
      t.blk.encBusy = s.blk.encBusy ∧ t.blk.encIdx = s.blk.encIdx ∧ t.blk.encB = s.blk.encB) ∧
    ∀ q : QSel,
      (t.blk.queue q).cap = (s.blk.queue q).cap ∧
      (writesBuf q i s.route = false → (t.blk.queue q).buf = (s.blk.queue q).buf) ∧
      (writesStart q i = false → (t.blk.queue q).startIdx = (s.blk.queue q).startIdx) ∧
      (writesEnd q i s.route = false → (t.blk.queue q).endIdx = (s.blk.queue q).endIdx) ∧
      ∀ k, (∀ j, j < pushCount q i s.route → k ≠ ((s.blk.queue q).endIdx + j) % (s.blk.queue q).cap) →
        storageRead (t.blk.queue q).buf k = storageRead (s.blk.queue q).buf k

/-- R28: `tx_irq_en` is set only by a successful `TRY_SEND`, alone or as a step of `ENCODE` (a byte joined `TXQ`), and cleared
only by a `TX_EVENT` that finds `TXQ` empty, by `TP_INIT` and by reset: so for every instruction, and for every step, the
later steps of an `ENCODE` and the rising edges among them. (A packet on its way out is an `ENCODE`: log entry 14.) -/
def Obligations.NotificationSetAndCleared : Prop :=
  (∀ (i : Instr) (s t : State), exec i s = .next t → s.blk.txIrqEn = false → t.blk.txIrqEn = true →
    (∃ b, offered i s.route = some b) ∧ t.blk.txq.count = s.blk.txq.count + 1) ∧
  (∀ (i : Instr) (s t : State), exec i s = .next t → s.blk.txIrqEn = true → t.blk.txIrqEn = false →
    i = .tpInit ∨ (i = .txEvent ∧ s.port = .dtx ∧ s.blk.txq.count = 0)) ∧
  (∀ s t : State, step s = .next t → s.blk.txIrqEn = false → t.blk.txIrqEn = true →
    (∃ x rest, s.inputs = x :: rest ∧ mayArm s.blk x = true) ∧ t.blk.txq.count = s.blk.txq.count + 1) ∧
  ∀ s t : State, step s = .next t → s.blk.txIrqEn = true → t.blk.txIrqEn = false →
    ∃ x rest, s.inputs = x :: rest ∧ mayDisarm s.blk x = true

/-- R69: `NOP`, `Q_INIT`, `TP_INIT` and `FR_INIT` are idempotent: done twice they leave the block as done once. -/
def Obligations.InitialisationsAreIdempotent : Prop :=
  ∀ (i : Instr) (s : State), MainReady s → i ∈ [.nop, .qInit .rxq, .qInit .txq, .tpInit, .frInit] →
    ∃ t u, exec i s = .next t ∧ exec i t = .next u ∧ u.blk = t.blk

/-- R42, the outputs `pkt`, `p_req_ready`, `p_rsp_valid` and `p_rsp` (how the model reads the last two from a step is log
entry 22). `pkt` shows the four bytes of `PKT`, `PKT[0]` on top; `p_req_ready` is 1 on `drx` and `dtx` and `not enc_busy` on `m`. After a rising edge with reset no port shows a response. After one without,
`drx` and `dtx` show the one response of the request they presented, and none if they presented none; `m` shows none if it
presented none with no `ENCODE` under way, and else the one response of the edge, or none while an `ENCODE` is under way. -/
def Obligations.OutputsShowThePacketAndTheResponse : Prop :=
  (∀ b : Block, (pktPin b).extractLsb' 24 8 = b.pkt.command ∧ (pktPin b).extractLsb' 16 8 = b.pkt.parameter1 ∧
    (pktPin b).extractLsb' 8 8 = b.pkt.parameter2 ∧ (pktPin b).extractLsb' 0 8 = b.pkt.parameter3 ∧
    reqReady .drx b = true ∧ reqReady .dtx b = true ∧ reqReady .m b = !b.encBusy) ∧
  ∀ (s t : State) (pins : Pins) (rest : List Stimulus), s.inputs = .edge pins :: rest → step s = .next t →
    (pins.rst = true → ∀ p, rspPin p t = none) ∧
    (pins.rst = false →
      (∀ p, pins.request p = none → (p = .m → s.blk.encBusy = false) → rspPin p t = none) ∧
      (∀ p, p ≠ .m → pins.request p ≠ none → ∃ r, responsesOn p t.out = [r] ∧ rspPin p t = some (rspWord r)) ∧
      ((pins.request .m ≠ none ∨ s.blk.encBusy = true) →
        (∃ r, responsesOn .m t.out = [r] ∧ rspPin .m t = some (rspWord r)) ∨
          (responsesOn .m t.out = [] ∧ rspPin .m t = none ∧ t.blk.encBusy = true)))
end

