-- ==== Sys2Proof/Laws/Storage.lean ====
section
/-! SUPPORT. Queue storage: a read after a write, every other slot as before, and the canonical form kept. -/

namespace Sys2Proof.Machine

theorem storageRead_write_same (m : List Host.Cell) (i : Nat) (v : Byte) :
    storageRead (storageWrite m i v) i = some v := by
  induction m with
  | nil => simp [storageWrite, storageRead]
  | cons c rest ih =>
    unfold storageWrite
    split
    · simp [storageRead]
    · split
      · simp [storageRead]
      · next h1 h2 => simp [storageRead, Ne.symm h2, ih]

theorem storageRead_write_other (m : List Host.Cell) {i j : Nat} (v : Byte) (h : j ≠ i) :
    storageRead (storageWrite m i v) j = storageRead m j := by
  induction m with
  | nil => simp [storageWrite, storageRead, Ne.symm h]
  | cons c rest ih =>
    unfold storageWrite
    split
    · simp [storageRead, Ne.symm h]
    · split
      · next h2 => subst h2; simp [storageRead, Ne.symm h]
      · simp [storageRead, ih]

/-- The first index of a storage after a write. -/
theorem storageWrite_head (m : List Host.Cell) (i : Nat) (v : Byte) :
    ∃ c rest, storageWrite m i v = c :: rest ∧ (c.1 = i ∨ ∃ d r, m = d :: r ∧ c.1 = d.1) := by
  cases m with
  | nil => exact ⟨_, _, rfl, .inl rfl⟩
  | cons d r =>
    unfold storageWrite
    split
    · exact ⟨_, _, rfl, .inl rfl⟩
    · split
      · exact ⟨_, _, rfl, .inl rfl⟩
      · exact ⟨_, _, rfl, .inr ⟨_, _, rfl, rfl⟩⟩

theorem storageWf_tail {c : Host.Cell} {rest : List Host.Cell} (h : storageWf (c :: rest) = true) :
    storageWf rest = true := by
  cases rest with
  | nil => rfl
  | cons d r => simp [storageWf] at h ⊢; exact h.2

theorem storageWf_cons {c d : Host.Cell} {r : List Host.Cell} (h : c.1 < d.1) (hr : storageWf (d :: r) = true) :
    storageWf (c :: d :: r) = true := by
  unfold storageWf; simp [h, hr]

theorem storageWf_lt {c d : Host.Cell} {r : List Host.Cell} (h : storageWf (c :: d :: r) = true) : c.1 < d.1 := by
  unfold storageWf at h; simp at h; exact h.1

/-- A write keeps the canonical form. -/
theorem storageWf_write {m : List Host.Cell} (i : Nat) (v : Byte) (h : storageWf m = true) :
    storageWf (storageWrite m i v) = true := by
  induction m with
  | nil => rfl
  | cons c rest ih =>
    unfold storageWrite
    split
    next hlt => exact storageWf_cons hlt h
    next hge =>
      split
      next heq =>
        cases rest with
        | nil => rfl
        | cons d r => exact storageWf_cons (by have := storageWf_lt h; omega) (storageWf_tail h)
      next hne =>
        have hw := ih (storageWf_tail h)
        obtain ⟨d, r, hd, hcase⟩ := storageWrite_head rest i v
        rw [hd] at hw ⊢
        refine storageWf_cons ?_ hw
        rcases hcase with hi | ⟨e, r', he, hde⟩
        · omega
        · subst he; have := storageWf_lt h; omega

/-- A write inside the bounds keeps every listed index inside them. -/
theorem storageWrite_lt {m : List Host.Cell} {i n : Nat} (v : Byte) (hi : i < n) (h : ∀ c ∈ m, c.1 < n) :
    ∀ c ∈ storageWrite m i v, c.1 < n := by
  induction m with
  | nil => intro c hc; simp [storageWrite] at hc; subst hc; exact hi
  | cons d rest ih =>
    have hd := h d (by simp)
    have hrest : ∀ c ∈ rest, c.1 < n := fun c hc => h c (by simp [hc])
    unfold storageWrite
    split
    · intro c hc
      rcases List.mem_cons.mp hc with rfl | hc
      · exact hi
      · exact h c hc
    · split
      · intro c hc
        rcases List.mem_cons.mp hc with rfl | hc
        · exact hi
        · exact hrest c hc
      · intro c hc
        rcases List.mem_cons.mp hc with rfl | hc
        · exact hd
        · exact ih hrest c hc

/-- The storage of a machine right after reset is in canonical form. -/
theorem storageWf_reset (sel : QSel) : storageWf (State.reset.blk.queue sel).buf = true := by cases sel <;> rfl

end Sys2Proof.Machine
end

