-- ==== Sys2Proof/Laws/Queue.lean ====
section
/-! SUPPORT. The Byte Queue: what `push` and `pop` can do, once; what they do to `contents`; the invariant kept. -/

namespace Sys2Proof.Machine

/-- Two positions less than a capacity apart use different slots. -/
theorem slot_ne {n a i j : Nat} (h : i < j) (hj : j < i + n) : (a + i) % n ≠ (a + j) % n := by
  intro he
  have h0 := Nat.sub_mod_eq_zero_of_mod_eq he.symm
  have hd : n ∣ (a + j) - (a + i) := Nat.dvd_of_mod_eq_zero h0
  have := Nat.le_of_dvd (by omega) hd
  omega

theorem Queue.full_iff (q : Queue) : q.full = true ↔ q.count = q.cap := by simp [Queue.full]
theorem Queue.empty_iff (q : Queue) : q.empty = true ↔ q.count = 0 := by simp [Queue.empty]

/-- The queue after a successful push. -/
def Queue.pushed (q : Queue) (b : Byte) : Queue :=
  { q with buf := storageWrite q.buf q.endIdx b, count := q.count + 1, endIdx := (q.endIdx + 1) % q.cap }

/-- The queue after a successful pop. -/
def Queue.popped (q : Queue) : Queue :=
  { q with count := q.count - 1, startIdx := (q.startIdx + 1) % q.cap }

@[simp] theorem Queue.pushed_cap (q : Queue) (b : Byte) : (q.pushed b).cap = q.cap := rfl
@[simp] theorem Queue.pushed_startIdx (q : Queue) (b : Byte) : (q.pushed b).startIdx = q.startIdx := rfl
@[simp] theorem Queue.pushed_endIdx (q : Queue) (b : Byte) : (q.pushed b).endIdx = (q.endIdx + 1) % q.cap := rfl
@[simp] theorem Queue.pushed_count (q : Queue) (b : Byte) : (q.pushed b).count = q.count + 1 := rfl
@[simp] theorem Queue.pushed_buf (q : Queue) (b : Byte) : (q.pushed b).buf = storageWrite q.buf q.endIdx b := rfl
@[simp] theorem Queue.popped_cap (q : Queue) : q.popped.cap = q.cap := rfl
@[simp] theorem Queue.popped_startIdx (q : Queue) : q.popped.startIdx = (q.startIdx + 1) % q.cap := rfl
@[simp] theorem Queue.popped_endIdx (q : Queue) : q.popped.endIdx = q.endIdx := rfl
@[simp] theorem Queue.popped_count (q : Queue) : q.popped.count = q.count - 1 := rfl
@[simp] theorem Queue.popped_buf (q : Queue) : q.popped.buf = q.buf := rfl

theorem Queue.push_full (sel : QSel) {q : Queue} (b : Byte) (h : q.count = q.cap) : q.push sel b = .ok none := by
  simp [Queue.push, Queue.full, h]

theorem Queue.push_room (sel : QSel) {q : Queue} (b : Byte) (h : q.count ≠ q.cap) (he : q.endIdx < q.cap) :
    q.push sel b = .ok (some (q.pushed b)) := by
  simp [Queue.push, Queue.full, h, memWrite, he, Queue.pushed, nextIndex]

theorem Queue.push_cases {sel : QSel} {q : Queue} {b : Byte} {r : Option Queue} (h : q.push sel b = .ok r) :
    (q.count = q.cap ∧ r = none) ∨ (q.count ≠ q.cap ∧ q.endIdx < q.cap ∧ r = some (q.pushed b)) := by
  by_cases hc : q.count = q.cap
  · rw [Queue.push_full sel b hc] at h; cases h; exact .inl ⟨hc, rfl⟩
  · by_cases he : q.endIdx < q.cap
    · rw [Queue.push_room sel b hc he] at h; cases h; exact .inr ⟨hc, he, rfl⟩
    · simp [Queue.push, Queue.full, hc, memWrite, he] at h

theorem Queue.pop_empty (sel : QSel) {q : Queue} (h : q.count = 0) : q.pop sel = .ok none := by
  simp [Queue.pop, Queue.empty, h]

theorem Queue.pop_some (sel : QSel) {q : Queue} (h : q.count ≠ 0) (hs : q.startIdx < q.cap) :
    q.pop sel = .ok (some (slotByte sel q q.startIdx, q.popped)) := by
  simp [Queue.pop, Queue.empty, h, memRead, hs, Queue.popped, nextIndex]

theorem Queue.pop_cases {sel : QSel} {q : Queue} {r : Option (Byte × Queue)} (h : q.pop sel = .ok r) :
    (q.count = 0 ∧ r = none) ∨
    (q.count ≠ 0 ∧ q.startIdx < q.cap ∧ r = some (slotByte sel q q.startIdx, q.popped)) := by
  by_cases hc : q.count = 0
  · rw [Queue.pop_empty sel hc] at h; cases h; exact .inl ⟨hc, rfl⟩
  · by_cases hs : q.startIdx < q.cap
    · rw [Queue.pop_some sel hc hs] at h; cases h; exact .inr ⟨hc, hs, rfl⟩
    · simp [Queue.pop, Queue.empty, hc, memRead, hs] at h

/-! ### `contents` -/

@[simp] theorem contents_length (sel : QSel) (q : Queue) : (contents sel q).length = q.count := by simp [contents]

@[simp] theorem contents_init (sel : QSel) (q : Queue) : contents sel q.init = [] := rfl

theorem contents_eq_nil {sel : QSel} {q : Queue} : contents sel q = [] ↔ q.count = 0 := by
  rw [← List.length_eq_zero_iff, contents_length]

theorem slotByte_pushed_same (sel : QSel) (q : Queue) (b : Byte) : slotByte sel (q.pushed b) q.endIdx = b := by
  simp [slotByte, storageRead_write_same]

theorem slotByte_pushed_other (sel : QSel) (q : Queue) (b : Byte) {j : Nat} (h : j ≠ q.endIdx) :
    slotByte sel (q.pushed b) j = slotByte sel q j := by
  simp [slotByte, storageRead_write_other _ _ h]

theorem contents_pushed (sel : QSel) {q : Queue} (b : Byte) (hi : QueueInv q) (h : q.count < q.cap) :
    contents sel (q.pushed b) = contents sel q ++ [b] := by
  have hlast : slotByte sel (q.pushed b) ((q.startIdx + q.count) % q.cap) = b := by
    rw [← hi.end_eq]; exact slotByte_pushed_same sel q b
  have hrest : ∀ i ∈ List.range q.count,
      slotByte sel (q.pushed b) ((q.startIdx + i) % q.cap) = slotByte sel q ((q.startIdx + i) % q.cap) := by
    intro i hir
    have hlt := List.mem_range.mp hir
    apply slotByte_pushed_other
    rw [hi.end_eq]
    exact slot_ne hlt (by omega)
  unfold contents
  simp only [Queue.pushed_count, Queue.pushed_startIdx, Queue.pushed_cap, List.range_succ, List.map_append,
    List.map_cons, List.map_nil, hlast]
  rw [List.map_congr_left hrest]

theorem contents_popped (sel : QSel) {q : Queue} (hi : QueueInv q) (h : q.count ≠ 0) :
    contents sel q = slotByte sel q q.startIdx :: contents sel q.popped := by
  obtain ⟨k, hk⟩ := Nat.exists_eq_succ_of_ne_zero h
  have hz : (q.startIdx + 0) % q.cap = q.startIdx := by simp [Nat.mod_eq_of_lt hi.start_lt]
  unfold contents
  simp only [hk, Queue.popped_count, Queue.popped_startIdx, Queue.popped_cap, List.range_succ_eq_map, List.map_cons,
    List.map_map, hz, Nat.succ_sub_one]
  congr 1
  apply List.map_congr_left
  intro i _
  have hi' : q.startIdx + i.succ = q.startIdx + 1 + i := by omega
  simp only [Function.comp, slotByte, Queue.popped_buf, Nat.mod_add_mod, hi']

/-! ### The invariant -/

theorem QueueInv.fresh {n : Nat} (h : 0 < n) : QueueInv (Queue.fresh n) where
  cap_pos := h
  start_lt := h
  end_lt := h
  count_le := Nat.zero_le _
  end_eq := (Nat.zero_mod n).symm
  buf_wf := rfl
  buf_lt := fun _ hc => absurd hc List.not_mem_nil
  written := fun _ hi => absurd hi (Nat.not_lt_zero _)

theorem QueueInv.init {q : Queue} (h : QueueInv q) : QueueInv q.init where
  cap_pos := h.cap_pos
  start_lt := h.cap_pos
  end_lt := h.cap_pos
  count_le := Nat.zero_le _
  end_eq := (Nat.zero_mod q.cap).symm
  buf_wf := h.buf_wf
  buf_lt := h.buf_lt
  written := fun _ hi => absurd hi (Nat.not_lt_zero _)

theorem QueueInv.pushed {q : Queue} (b : Byte) (h : QueueInv q) (hc : q.count ≠ q.cap) : QueueInv (q.pushed b) where
  cap_pos := h.cap_pos
  start_lt := h.start_lt
  end_lt := Nat.mod_lt _ h.cap_pos
  count_le := by have := h.count_le; simp; omega
  end_eq := by simp [h.end_eq, Nat.add_assoc]
  buf_wf := storageWf_write _ _ h.buf_wf
  buf_lt := storageWrite_lt _ h.end_lt h.buf_lt
  written := by
    intro i hi
    simp only [Queue.pushed_count, Queue.pushed_startIdx, Queue.pushed_cap, Queue.pushed_buf] at hi ⊢
    by_cases he : (q.startIdx + i) % q.cap = q.endIdx
    · rw [he, storageRead_write_same]; rfl
    · rw [storageRead_write_other _ _ he]
      apply h.written
      have : i ≠ q.count := by intro hic; subst hic; exact he h.end_eq.symm
      omega

theorem QueueInv.popped {q : Queue} (h : QueueInv q) (hc : q.count ≠ 0) : QueueInv q.popped where
  cap_pos := h.cap_pos
  start_lt := Nat.mod_lt _ h.cap_pos
  end_lt := h.end_lt
  count_le := by have := h.count_le; simp; omega
  end_eq := by
    simp only [Queue.popped_endIdx, Queue.popped_startIdx, Queue.popped_count, Queue.popped_cap, Nat.mod_add_mod,
      h.end_eq]
    congr 1; omega
  buf_wf := h.buf_wf
  buf_lt := h.buf_lt
  written := by
    intro i hi
    simp only [Queue.popped_count, Queue.popped_startIdx, Queue.popped_cap, Queue.popped_buf, Nat.mod_add_mod] at hi ⊢
    have := h.written (i + 1) (by omega)
    rwa [← Nat.add_assoc, Nat.add_right_comm] at this

end Sys2Proof.Machine
end

