-- ==== Sys2Proof/Laws/State.lean ====
section
/-! SUPPORT. One lemma per field for each update of the state, true by `rfl`, so that no proof unfolds a record update. -/

namespace Sys2Proof.Machine

@[simp] theorem State.respond_blk (s : State) (p : Port) (ok : Bool) (d : DataWord) : (s.respond p ok d).blk = s.blk := rfl
@[simp] theorem State.respond_inputs (s : State) (p : Port) (ok : Bool) (d : DataWord) : (s.respond p ok d).inputs = s.inputs := rfl
@[simp] theorem State.respond_port (s : State) (p : Port) (ok : Bool) (d : DataWord) : (s.respond p ok d).port = s.port := rfl
@[simp] theorem State.respond_route (s : State) (p : Port) (ok : Bool) (d : DataWord) : (s.respond p ok d).route = s.route := rfl
@[simp] theorem State.respond_out (s : State) (p : Port) (ok : Bool) (d : DataWord) : (s.respond p ok d).out = s.out ++ [.rsp p { err := false, ok := ok, data := d }] := rfl
@[simp] theorem State.respond_rxStream (s : State) (p : Port) (ok : Bool) (d : DataWord) : (s.respond p ok d).rxStream = s.rxStream := rfl
@[simp] theorem State.respond_txStream (s : State) (p : Port) (ok : Bool) (d : DataWord) : (s.respond p ok d).txStream = s.txStream := rfl
@[simp] theorem State.respond_free (s : State) (p : Port) (ok : Bool) (d : DataWord) : (s.respond p ok d).free = s.free := rfl

@[simp] theorem State.refuse_blk (s : State) (p : Port) : (s.refuse p).blk = s.blk := rfl
@[simp] theorem State.refuse_inputs (s : State) (p : Port) : (s.refuse p).inputs = s.inputs := rfl
@[simp] theorem State.refuse_port (s : State) (p : Port) : (s.refuse p).port = s.port := rfl
@[simp] theorem State.refuse_route (s : State) (p : Port) : (s.refuse p).route = s.route := rfl
@[simp] theorem State.refuse_out (s : State) (p : Port) : (s.refuse p).out = s.out ++ [.rsp p { err := true, ok := false, data := 0 }] := rfl
@[simp] theorem State.refuse_rxStream (s : State) (p : Port) : (s.refuse p).rxStream = s.rxStream := rfl
@[simp] theorem State.refuse_txStream (s : State) (p : Port) : (s.refuse p).txStream = s.txStream := rfl
@[simp] theorem State.refuse_free (s : State) (p : Port) : (s.refuse p).free = s.free := rfl

@[simp] theorem State.respondAny_blk (s : State) (p : Port) : (s.respondAny p).blk = s.blk := rfl
@[simp] theorem State.respondAny_inputs (s : State) (p : Port) : (s.respondAny p).inputs = s.inputs := rfl
@[simp] theorem State.respondAny_port (s : State) (p : Port) : (s.respondAny p).port = s.port := rfl
@[simp] theorem State.respondAny_route (s : State) (p : Port) : (s.respondAny p).route = s.route := rfl
@[simp] theorem State.respondAny_out (s : State) (p : Port) : (s.respondAny p).out = s.out ++ [.rsp p { err := false, ok := false, data := zext32 (Config.freeByte s.free) }] := rfl
@[simp] theorem State.respondAny_rxStream (s : State) (p : Port) : (s.respondAny p).rxStream = s.rxStream := rfl
@[simp] theorem State.respondAny_txStream (s : State) (p : Port) : (s.respondAny p).txStream = s.txStream := rfl
@[simp] theorem State.respondAny_free (s : State) (p : Port) : (s.respondAny p).free = s.free + 1 := rfl

@[simp] theorem State.emitSent_blk (s : State) (v : Byte) : (s.emitSent v).blk = s.blk := rfl
@[simp] theorem State.emitSent_inputs (s : State) (v : Byte) : (s.emitSent v).inputs = s.inputs := rfl
@[simp] theorem State.emitSent_port (s : State) (v : Byte) : (s.emitSent v).port = s.port := rfl
@[simp] theorem State.emitSent_route (s : State) (v : Byte) : (s.emitSent v).route = s.route := rfl
@[simp] theorem State.emitSent_out (s : State) (v : Byte) : (s.emitSent v).out = s.out ++ [.sent v] := rfl
@[simp] theorem State.emitSent_rxStream (s : State) (v : Byte) : (s.emitSent v).rxStream = s.rxStream := rfl
@[simp] theorem State.emitSent_txStream (s : State) (v : Byte) : (s.emitSent v).txStream = s.txStream ++ [v] := rfl
@[simp] theorem State.emitSent_free (s : State) (v : Byte) : (s.emitSent v).free = s.free := rfl

@[simp] theorem State.quiet_blk (s : State)  : (s.quiet).blk = s.blk := rfl
@[simp] theorem State.quiet_inputs (s : State)  : (s.quiet).inputs = s.inputs := rfl
@[simp] theorem State.quiet_port (s : State)  : (s.quiet).port = s.port := rfl
@[simp] theorem State.quiet_route (s : State)  : (s.quiet).route = s.route := rfl
@[simp] theorem State.quiet_out (s : State)  : (s.quiet).out = [] := rfl
@[simp] theorem State.quiet_rxStream (s : State)  : (s.quiet).rxStream = s.rxStream := rfl
@[simp] theorem State.quiet_txStream (s : State)  : (s.quiet).txStream = s.txStream := rfl
@[simp] theorem State.quiet_free (s : State)  : (s.quiet).free = s.free := rfl

@[simp] theorem State.take_blk (s : State) (rest : List Stimulus) : (s.take rest).blk = s.blk := rfl
@[simp] theorem State.take_inputs (s : State) (rest : List Stimulus) : (s.take rest).inputs = rest := rfl
@[simp] theorem State.take_port (s : State) (rest : List Stimulus) : (s.take rest).port = s.port := rfl
@[simp] theorem State.take_route (s : State) (rest : List Stimulus) : (s.take rest).route = s.route := rfl
@[simp] theorem State.take_out (s : State) (rest : List Stimulus) : (s.take rest).out = [] := rfl
@[simp] theorem State.take_rxStream (s : State) (rest : List Stimulus) : (s.take rest).rxStream = s.rxStream := rfl
@[simp] theorem State.take_txStream (s : State) (rest : List Stimulus) : (s.take rest).txStream = s.txStream := rfl
@[simp] theorem State.take_free (s : State) (rest : List Stimulus) : (s.take rest).free = s.free := rfl

@[simp] theorem State.onPort_blk (s : State) (p : Port) : (s.onPort p).blk = s.blk := rfl
@[simp] theorem State.onPort_inputs (s : State) (p : Port) : (s.onPort p).inputs = s.inputs := rfl
@[simp] theorem State.onPort_port (s : State) (p : Port) : (s.onPort p).port = p := rfl
@[simp] theorem State.onPort_route (s : State) (p : Port) : (s.onPort p).route = s.route := rfl
@[simp] theorem State.onPort_out (s : State) (p : Port) : (s.onPort p).out = s.out := rfl
@[simp] theorem State.onPort_rxStream (s : State) (p : Port) : (s.onPort p).rxStream = s.rxStream := rfl
@[simp] theorem State.onPort_txStream (s : State) (p : Port) : (s.onPort p).txStream = s.txStream := rfl
@[simp] theorem State.onPort_free (s : State) (p : Port) : (s.onPort p).free = s.free := rfl

@[simp] theorem State.onRoute_blk (s : State) (r : Route) : (s.onRoute r).blk = s.blk := rfl
@[simp] theorem State.onRoute_inputs (s : State) (r : Route) : (s.onRoute r).inputs = s.inputs := rfl
@[simp] theorem State.onRoute_port (s : State) (r : Route) : (s.onRoute r).port = s.port := rfl
@[simp] theorem State.onRoute_route (s : State) (r : Route) : (s.onRoute r).route = r := rfl
@[simp] theorem State.onRoute_out (s : State) (r : Route) : (s.onRoute r).out = s.out := rfl
@[simp] theorem State.onRoute_rxStream (s : State) (r : Route) : (s.onRoute r).rxStream = s.rxStream := rfl
@[simp] theorem State.onRoute_txStream (s : State) (r : Route) : (s.onRoute r).txStream = s.txStream := rfl
@[simp] theorem State.onRoute_free (s : State) (r : Route) : (s.onRoute r).free = s.free := rfl

@[simp] theorem Block.setQueue_rxq_rxq (b : Block) (q : Queue) : (b.setQueue .rxq q).rxq = q := rfl
@[simp] theorem Block.setQueue_rxq_txq (b : Block) (q : Queue) : (b.setQueue .rxq q).txq = b.txq := rfl
@[simp] theorem Block.setQueue_rxq_txIrqEn (b : Block) (q : Queue) : (b.setQueue .rxq q).txIrqEn = b.txIrqEn := rfl
@[simp] theorem Block.setQueue_rxq_f (b : Block) (q : Queue) : (b.setQueue .rxq q).f = b.f := rfl
@[simp] theorem Block.setQueue_rxq_position (b : Block) (q : Queue) : (b.setQueue .rxq q).position = b.position := rfl
@[simp] theorem Block.setQueue_rxq_pkt (b : Block) (q : Queue) : (b.setQueue .rxq q).pkt = b.pkt := rfl
@[simp] theorem Block.setQueue_rxq_encBusy (b : Block) (q : Queue) : (b.setQueue .rxq q).encBusy = b.encBusy := rfl
@[simp] theorem Block.setQueue_rxq_encIdx (b : Block) (q : Queue) : (b.setQueue .rxq q).encIdx = b.encIdx := rfl
@[simp] theorem Block.setQueue_rxq_encB (b : Block) (q : Queue) : (b.setQueue .rxq q).encB = b.encB := rfl

@[simp] theorem Block.setQueue_txq_rxq (b : Block) (q : Queue) : (b.setQueue .txq q).rxq = b.rxq := rfl
@[simp] theorem Block.setQueue_txq_txq (b : Block) (q : Queue) : (b.setQueue .txq q).txq = q := rfl
@[simp] theorem Block.setQueue_txq_txIrqEn (b : Block) (q : Queue) : (b.setQueue .txq q).txIrqEn = b.txIrqEn := rfl
@[simp] theorem Block.setQueue_txq_f (b : Block) (q : Queue) : (b.setQueue .txq q).f = b.f := rfl
@[simp] theorem Block.setQueue_txq_position (b : Block) (q : Queue) : (b.setQueue .txq q).position = b.position := rfl
@[simp] theorem Block.setQueue_txq_pkt (b : Block) (q : Queue) : (b.setQueue .txq q).pkt = b.pkt := rfl
@[simp] theorem Block.setQueue_txq_encBusy (b : Block) (q : Queue) : (b.setQueue .txq q).encBusy = b.encBusy := rfl
@[simp] theorem Block.setQueue_txq_encIdx (b : Block) (q : Queue) : (b.setQueue .txq q).encIdx = b.encIdx := rfl
@[simp] theorem Block.setQueue_txq_encB (b : Block) (q : Queue) : (b.setQueue .txq q).encB = b.encB := rfl

@[simp] theorem Block.tpInit_rxq (b : Block)  : (b.tpInit).rxq = b.rxq.init := rfl
@[simp] theorem Block.tpInit_txq (b : Block)  : (b.tpInit).txq = b.txq.init := rfl
@[simp] theorem Block.tpInit_txIrqEn (b : Block)  : (b.tpInit).txIrqEn = false := rfl
@[simp] theorem Block.tpInit_f (b : Block)  : (b.tpInit).f = b.f := rfl
@[simp] theorem Block.tpInit_position (b : Block)  : (b.tpInit).position = b.position := rfl
@[simp] theorem Block.tpInit_pkt (b : Block)  : (b.tpInit).pkt = b.pkt := rfl
@[simp] theorem Block.tpInit_encBusy (b : Block)  : (b.tpInit).encBusy = b.encBusy := rfl
@[simp] theorem Block.tpInit_encIdx (b : Block)  : (b.tpInit).encIdx = b.encIdx := rfl
@[simp] theorem Block.tpInit_encB (b : Block)  : (b.tpInit).encB = b.encB := rfl

@[simp] theorem Block.encodeStart_rxq (b : Block) (r : Frame) : (b.encodeStart r).rxq = b.rxq := rfl
@[simp] theorem Block.encodeStart_txq (b : Block) (r : Frame) : (b.encodeStart r).txq = b.txq := rfl
@[simp] theorem Block.encodeStart_txIrqEn (b : Block) (r : Frame) : (b.encodeStart r).txIrqEn = b.txIrqEn := rfl
@[simp] theorem Block.encodeStart_f (b : Block) (r : Frame) : (b.encodeStart r).f = b.f := rfl
@[simp] theorem Block.encodeStart_position (b : Block) (r : Frame) : (b.encodeStart r).position = b.position := rfl
@[simp] theorem Block.encodeStart_pkt (b : Block) (r : Frame) : (b.encodeStart r).pkt = b.pkt := rfl
@[simp] theorem Block.encodeStart_encBusy (b : Block) (r : Frame) : (b.encodeStart r).encBusy = true := rfl
@[simp] theorem Block.encodeStart_encIdx (b : Block) (r : Frame) : (b.encodeStart r).encIdx = 0 := rfl
@[simp] theorem Block.encodeStart_encB (b : Block) (r : Frame) : (b.encodeStart r).encB = r := rfl

@[simp] theorem Queue.init_cap (q : Queue) : q.init.cap = q.cap := rfl
@[simp] theorem Queue.init_startIdx (q : Queue) : q.init.startIdx = 0 := rfl
@[simp] theorem Queue.init_endIdx (q : Queue) : q.init.endIdx = 0 := rfl
@[simp] theorem Queue.init_count (q : Queue) : q.init.count = 0 := rfl
@[simp] theorem Queue.init_buf (q : Queue) : q.init.buf = q.buf := rfl

@[simp] theorem Block.queue_rxq (b : Block) : b.queue .rxq = b.rxq := rfl
@[simp] theorem Block.queue_txq (b : Block) : b.queue .txq = b.txq := rfl

theorem Block.queue_setQueue (b : Block) (sel : QSel) (q : Queue) : (b.setQueue sel q).queue sel = q := by
  cases sel <;> rfl

@[simp] theorem Block.initQueue_rxq (b : Block) : b.initQueue .rxq = { b with rxq := b.rxq.init } := rfl
@[simp] theorem Block.initQueue_txq (b : Block) : b.initQueue .txq = { b with txq := b.txq.init } := rfl

@[simp] theorem andThen_next (s : State) (k : State → Host.Outcome State Fault Refusal) :
    andThen (.next s) k = k s := rfl
@[simp] theorem andThen_fault (e : Fault) (k : State → Host.Outcome State Fault Refusal) :
    andThen (.fault e) k = .fault e := rfl
@[simp] theorem andThen_refused (r : Refusal) (k : State → Host.Outcome State Fault Refusal) :
    andThen (.refused r) k = .refused r := rfl

/-- If the second of two steps answers, so did the first. -/
theorem andThen_eq_next {o : Host.Outcome State Fault Refusal} {k : State → Host.Outcome State Fault Refusal}
    {t : State} (h : andThen o k = .next t) : ∃ s, o = .next s ∧ k s = .next t := by
  cases o with
  | next s => exact ⟨s, rfl, h⟩
  | fault e => cases h
  | refused r => cases h

@[simp] theorem reqReady_drx (b : Block) : reqReady .drx b = true := rfl
@[simp] theorem reqReady_dtx (b : Block) : reqReady .dtx b = true := rfl
@[simp] theorem reqReady_m (b : Block) : reqReady .m b = !b.encBusy := rfl

/-- An accepted request runs its operation. -/
theorem serve_accepted {s : State} (op : State → Host.Outcome State Fault Refusal)
    (h : reqReady s.port s.blk = true) : s.serve true op = op s := by simp [State.serve, h]

/-- A request the port does not accept is refused (R124). -/
theorem serve_refused {s : State} (op : State → Host.Outcome State Fault Refusal)
    (h : reqReady s.port s.blk = true) : s.serve false op = .next (s.refuse s.port) := by simp [State.serve, h]

/-- A port that is not ready accepts nothing (R42). -/
theorem serve_notReady {s : State} {a : Bool} (op : State → Host.Outcome State Fault Refusal)
    (h : reqReady s.port s.blk = false) : s.serve a op = .next s := by simp [State.serve, h]

/-- All that serving a request can do. -/
theorem serve_cases {s t : State} {a : Bool} {op : State → Host.Outcome State Fault Refusal}
    (h : s.serve a op = .next t) :
    (reqReady s.port s.blk = false ∧ t = s) ∨
    (reqReady s.port s.blk = true ∧ a = false ∧ t = s.refuse s.port) ∨
    (reqReady s.port s.blk = true ∧ a = true ∧ op s = .next t) := by
  unfold State.serve at h
  split at h
  next hr =>
    split at h
    next ha => exact .inr (.inr ⟨hr, ha, h⟩)
    next ha => cases h; exact .inr (.inl ⟨hr, by simpa using ha, rfl⟩)
  next hr => cases h; exact .inl ⟨by simpa using hr, rfl⟩

end Sys2Proof.Machine
end

