-- ==== Sys2Proof/Laws/Block.lean ====
section
/-! SUPPORT. The block's shared operations: for each, once, everything it can do; the block's invariant kept by each. -/

namespace Sys2Proof.Machine

theorem BlockInv.queue {b : Block} (h : BlockInv b) (sel : QSel) : QueueInv (b.queue sel) := by
  cases sel
  · exact h.rx
  · exact h.tx

theorem BlockInv.setQueue {b : Block} (h : BlockInv b) (sel : QSel) {q : Queue} (hq : QueueInv q) :
    BlockInv (b.setQueue sel q) := by
  cases sel
  · exact ⟨hq, h.tx, h.position_le, h.encIdx_le⟩
  · exact ⟨h.rx, hq, h.position_le, h.encIdx_le⟩

theorem BlockInv.fresh {m n : Nat} (hm : 0 < m) (hn : 0 < n) : BlockInv (Block.fresh m n) where
  rx := QueueInv.fresh hm
  tx := QueueInv.fresh hn
  position_le := Nat.zero_le 4
  encIdx_le := by intro h; cases h

theorem BlockInv.tpInit {b : Block} (h : BlockInv b) : BlockInv b.tpInit :=
  ⟨h.rx.init, h.tx.init, h.position_le, h.encIdx_le⟩

/-! ### Push and pop -/

theorem Block.push_full (b : Block) (sel : QSel) (v : Byte) (h : (b.queue sel).count = (b.queue sel).cap) :
    b.push sel v = .ok (false, b) := by simp [Block.push, Queue.push_full sel v h]

theorem Block.push_room (b : Block) (sel : QSel) (v : Byte) (h : (b.queue sel).count ≠ (b.queue sel).cap)
    (he : (b.queue sel).endIdx < (b.queue sel).cap) :
    b.push sel v = .ok (true, b.setQueue sel ((b.queue sel).pushed v)) := by
  simp [Block.push, Queue.push_room sel v h he]

theorem Block.push_cases {b b' : Block} {sel : QSel} {v : Byte} {ok : Bool} (h : b.push sel v = .ok (ok, b')) :
    ((b.queue sel).count = (b.queue sel).cap ∧ ok = false ∧ b' = b) ∨
    ((b.queue sel).count ≠ (b.queue sel).cap ∧ (b.queue sel).endIdx < (b.queue sel).cap ∧ ok = true ∧
      b' = b.setQueue sel ((b.queue sel).pushed v)) := by
  unfold Block.push at h
  split at h
  · cases h
  · next hq =>
    rcases Queue.push_cases hq with ⟨hc, _⟩ | ⟨_, _, hr⟩
    · cases h; exact .inl ⟨hc, rfl, rfl⟩
    · cases hr
  · next q hq =>
    rcases Queue.push_cases hq with ⟨_, hr⟩ | ⟨hc, he, hr⟩
    · cases hr
    · cases hr; cases h; exact .inr ⟨hc, he, rfl, rfl⟩

theorem Block.pop_empty (b : Block) (sel : QSel) (h : (b.queue sel).count = 0) : b.pop sel = .ok (none, b) := by
  simp [Block.pop, Queue.pop_empty sel h]

theorem Block.pop_some (b : Block) (sel : QSel) (h : (b.queue sel).count ≠ 0)
    (hs : (b.queue sel).startIdx < (b.queue sel).cap) :
    b.pop sel = .ok (some (slotByte sel (b.queue sel) (b.queue sel).startIdx), b.setQueue sel (b.queue sel).popped) := by
  simp [Block.pop, Queue.pop_some sel h hs]

theorem Block.pop_cases {b b' : Block} {sel : QSel} {r : Option Byte} (h : b.pop sel = .ok (r, b')) :
    ((b.queue sel).count = 0 ∧ r = none ∧ b' = b) ∨
    ((b.queue sel).count ≠ 0 ∧ (b.queue sel).startIdx < (b.queue sel).cap ∧
      r = some (slotByte sel (b.queue sel) (b.queue sel).startIdx) ∧ b' = b.setQueue sel (b.queue sel).popped) := by
  unfold Block.pop at h
  split at h
  · cases h
  · next hq =>
    rcases Queue.pop_cases hq with ⟨hc, _⟩ | ⟨_, _, hr⟩
    · cases h; exact .inl ⟨hc, rfl, rfl⟩
    · cases hr
  · next v q hq =>
    rcases Queue.pop_cases hq with ⟨_, hr⟩ | ⟨hc, hs, hr⟩
    · cases hr
    · cases hr; cases h; exact .inr ⟨hc, hs, rfl, rfl⟩

theorem Block.trySend_full (b : Block) (v : Byte) (h : b.txq.count = b.txq.cap) : b.trySend v = .ok (false, b) := by
  simp [Block.trySend, Block.push_full b .txq v h]

theorem Block.trySend_room (b : Block) (v : Byte) (h : b.txq.count ≠ b.txq.cap) (he : b.txq.endIdx < b.txq.cap) :
    b.trySend v = .ok (true, { b with txq := b.txq.pushed v, txIrqEn := true }) := by
  simp [Block.trySend, Block.push_room b .txq v h he, Block.setQueue]

theorem Block.trySend_cases {b b' : Block} {v : Byte} {ok : Bool} (h : b.trySend v = .ok (ok, b')) :
    (b.txq.count = b.txq.cap ∧ ok = false ∧ b' = b) ∨
    (b.txq.count ≠ b.txq.cap ∧ b.txq.endIdx < b.txq.cap ∧ ok = true ∧
      b' = { b with txq := b.txq.pushed v, txIrqEn := true }) := by
  unfold Block.trySend at h
  split at h
  · cases h
  · next b₁ hp =>
    rcases Block.push_cases hp with ⟨_, hok, _⟩ | ⟨hc, he, _, hb⟩
    · cases hok
    · subst hb; cases h; exact .inr ⟨hc, he, rfl, rfl⟩
  · next b₁ hp =>
    rcases Block.push_cases hp with ⟨hc, _, hb⟩ | ⟨_, _, hok, _⟩
    · subst hb; cases h; exact .inl ⟨hc, rfl, rfl⟩
    · cases hok

/-! ### The framer -/

theorem Block.feed_below (b : Block) (v : Byte) (h : b.position.toNat < 4) :
    b.feed v = (none, { b with f := frameSet b.f b.position.toNat v, position := b.position + 1 }) := by
  simp [Block.feed, h]

theorem Block.feed_match (b : Block) (v : Byte) (h : 4 ≤ b.position.toNat)
    (hx : xor4 b.f.command b.f.parameter1 b.f.parameter2 b.f.parameter3 = v) :
    b.feed v = (some (framePacket b.f),
      { b with f := { b.f with checksum := v }, pkt := framePacket b.f, position := 0 }) := by
  simp [Block.feed, Nat.not_lt.mpr h, hx]

theorem Block.feed_mismatch (b : Block) (v : Byte) (h : 4 ≤ b.position.toNat)
    (hx : xor4 b.f.command b.f.parameter1 b.f.parameter2 b.f.parameter3 ≠ v) :
    b.feed v = (none, { b with f := shiftWindow b.f v }) := by
  simp [Block.feed, Nat.not_lt.mpr h, hx]

/-- All that a feed can do. -/
theorem Block.feed_cases (b : Block) (v : Byte) :
    (b.position.toNat < 4 ∧
      b.feed v = (none, { b with f := frameSet b.f b.position.toNat v, position := b.position + 1 })) ∨
    (4 ≤ b.position.toNat ∧ xor4 b.f.command b.f.parameter1 b.f.parameter2 b.f.parameter3 = v ∧
      b.feed v = (some (framePacket b.f),
        { b with f := { b.f with checksum := v }, pkt := framePacket b.f, position := 0 })) ∨
    (4 ≤ b.position.toNat ∧ xor4 b.f.command b.f.parameter1 b.f.parameter2 b.f.parameter3 ≠ v ∧
      b.feed v = (none, { b with f := shiftWindow b.f v })) := by
  by_cases h : b.position.toNat < 4
  · exact .inl ⟨h, Block.feed_below b v h⟩
  · have h := Nat.not_lt.mp h
    by_cases hx : xor4 b.f.command b.f.parameter1 b.f.parameter2 b.f.parameter3 = v
    · exact .inr (.inl ⟨h, hx, Block.feed_match b v h hx⟩)
    · exact .inr (.inr ⟨h, hx, Block.feed_mismatch b v h hx⟩)

/-- A feed touches the window, the cursor and `PKT` only (R45). -/
theorem Block.feed_frame (b : Block) (v : Byte) :
    (b.feed v).2.rxq = b.rxq ∧ (b.feed v).2.txq = b.txq ∧ (b.feed v).2.txIrqEn = b.txIrqEn ∧
    (b.feed v).2.encBusy = b.encBusy ∧ (b.feed v).2.encIdx = b.encIdx ∧ (b.feed v).2.encB = b.encB := by
  rcases Block.feed_cases b v with ⟨_, h⟩ | ⟨_, _, h⟩ | ⟨_, _, h⟩ <;> rw [h] <;> exact ⟨rfl, rfl, rfl, rfl, rfl, rfl⟩

theorem BitVec3_succ {p : BitVec 3} (h : p.toNat < 4) : (p + 1).toNat = p.toNat + 1 := by
  rw [BitVec.toNat_add]; simp; omega

theorem BlockInv.feed {b : Block} (h : BlockInv b) (v : Byte) : BlockInv (b.feed v).2 := by
  rcases Block.feed_cases b v with ⟨hp, he⟩ | ⟨_, _, he⟩ | ⟨_, _, he⟩ <;> rw [he]
  · exact ⟨h.rx, h.tx, by rw [BitVec3_succ hp]; omega, h.encIdx_le⟩
  · exact ⟨h.rx, h.tx, Nat.zero_le 4, h.encIdx_le⟩
  · exact ⟨h.rx, h.tx, h.position_le, h.encIdx_le⟩

/-! ### The encoder -/

/-- All that an enqueue attempt can do when it meets no fault. -/
theorem Block.encodeAttempt_cases {b b' : Block} {r : Option Bool} (h : b.encodeAttempt = .ok (r, b')) :
    (b.encIdx.toNat < 5 ∧ b.txq.count = b.txq.cap ∧ r = some false ∧ b' = { b with encBusy := false }) ∨
    (b.encIdx.toNat = 4 ∧ b.txq.count ≠ b.txq.cap ∧ b.txq.endIdx < b.txq.cap ∧ r = some true ∧
      b' = { b with txq := b.txq.pushed (frameGet b.encB b.encIdx.toNat), txIrqEn := true,
                    encIdx := b.encIdx + 1, encBusy := false }) ∨
    (b.encIdx.toNat < 4 ∧ b.txq.count ≠ b.txq.cap ∧ b.txq.endIdx < b.txq.cap ∧ r = none ∧
      b' = { b with txq := b.txq.pushed (frameGet b.encB b.encIdx.toNat), txIrqEn := true,
                    encIdx := b.encIdx + 1 }) ∨
    (5 ≤ b.encIdx.toNat ∧ r = some true ∧ b' = { b with encBusy := false }) := by
  unfold Block.encodeAttempt at h
  split at h
  next hi =>
    split at h
    · cases h
    · next b₁ ht =>
      rcases Block.trySend_cases ht with ⟨hc, _, hb⟩ | ⟨_, _, hok, _⟩
      · subst hb; cases h; exact .inl ⟨hi, hc, rfl, rfl⟩
      · cases hok
    · next b₁ ht =>
      rcases Block.trySend_cases ht with ⟨_, hok, _⟩ | ⟨hc, he, _, hb⟩
      · cases hok
      · subst hb
        split at h
        next h4 => cases h; exact .inr (.inl ⟨h4, hc, he, rfl, rfl⟩)
        next h4 => cases h; exact .inr (.inr (.inl ⟨by omega, hc, he, rfl, rfl⟩))
  next hi => cases h; exact .inr (.inr (.inr ⟨by omega, rfl, rfl⟩))

theorem Block.encodeAttempt_full (b : Block) (hi : b.encIdx.toNat < 5) (hc : b.txq.count = b.txq.cap) :
    b.encodeAttempt = .ok (some false, { b with encBusy := false }) := by
  simp [Block.encodeAttempt, hi, Block.trySend_full b _ hc]

theorem Block.encodeAttempt_more (b : Block) (hi : b.encIdx.toNat < 4) (hc : b.txq.count ≠ b.txq.cap)
    (he : b.txq.endIdx < b.txq.cap) :
    b.encodeAttempt = .ok (none, { b with
      txq := b.txq.pushed (frameGet b.encB b.encIdx.toNat), txIrqEn := true, encIdx := b.encIdx + 1 }) := by
  have h5 : b.encIdx.toNat < 5 := by omega
  have h4 : b.encIdx.toNat ≠ 4 := by omega
  simp [Block.encodeAttempt, h5, Block.trySend_room b _ hc he, h4]

theorem Block.encodeAttempt_last (b : Block) (hi : b.encIdx.toNat = 4) (hc : b.txq.count ≠ b.txq.cap)
    (he : b.txq.endIdx < b.txq.cap) :
    b.encodeAttempt = .ok (some true, { b with
      txq := b.txq.pushed (frameGet b.encB b.encIdx.toNat), txIrqEn := true, encIdx := b.encIdx + 1,
      encBusy := false }) := by
  simp [Block.encodeAttempt, hi, Block.trySend_room b _ hc he]

/-! ### No fault where the invariant holds (R61) -/

theorem Block.push_answers {b : Block} (h : BlockInv b) (sel : QSel) (v : Byte) :
    ∃ ok b', b.push sel v = .ok (ok, b') := by
  by_cases hc : (b.queue sel).count = (b.queue sel).cap
  · exact ⟨_, _, Block.push_full b sel v hc⟩
  · exact ⟨_, _, Block.push_room b sel v hc (h.queue sel).end_lt⟩

theorem Block.pop_answers {b : Block} (h : BlockInv b) (sel : QSel) : ∃ r b', b.pop sel = .ok (r, b') := by
  by_cases hc : (b.queue sel).count = 0
  · exact ⟨_, _, Block.pop_empty b sel hc⟩
  · exact ⟨_, _, Block.pop_some b sel hc (h.queue sel).start_lt⟩

theorem Block.trySend_answers {b : Block} (h : BlockInv b) (v : Byte) : ∃ ok b', b.trySend v = .ok (ok, b') := by
  by_cases hc : b.txq.count = b.txq.cap
  · exact ⟨_, _, Block.trySend_full b v hc⟩
  · exact ⟨_, _, Block.trySend_room b v hc h.tx.end_lt⟩

theorem Block.encodeAttempt_answers {b : Block} (h : BlockInv b) : ∃ r b', b.encodeAttempt = .ok (r, b') := by
  by_cases hi : b.encIdx.toNat < 5
  · by_cases hc : b.txq.count = b.txq.cap
    · exact ⟨_, _, Block.encodeAttempt_full b hi hc⟩
    · by_cases h4 : b.encIdx.toNat = 4
      · exact ⟨_, _, Block.encodeAttempt_last b h4 hc h.tx.end_lt⟩
      · exact ⟨_, _, Block.encodeAttempt_more b (by omega) hc h.tx.end_lt⟩
  · exact ⟨_, _, by unfold Block.encodeAttempt; rw [if_neg hi]⟩

/-! ### The moves of the block: what any step is made of -/

/-- One elementary change of the block. Every step is a chain of them (`step_moves`). -/
inductive Move : Block → Block → Prop where
  | init (sel : QSel) (b : Block) : Move b (b.initQueue sel)
  | push (sel : QSel) (v : Byte) (b : Block) (hc : (b.queue sel).count ≠ (b.queue sel).cap)
      (he : (b.queue sel).endIdx < (b.queue sel).cap) : Move b (b.setQueue sel ((b.queue sel).pushed v))
  | pop (sel : QSel) (b : Block) (hc : (b.queue sel).count ≠ 0)
      (hs : (b.queue sel).startIdx < (b.queue sel).cap) : Move b (b.setQueue sel (b.queue sel).popped)
  | irq (e : Bool) (b : Block) : Move b { b with txIrqEn := e }
  | feed (v : Byte) (b : Block) : Move b (b.feed v).2
  | cursor (b : Block) : Move b { b with position := 0 }
  | encodeStart (r : Frame) (b : Block) : Move b (b.encodeStart r)
  | encodeNext (b : Block) (h : b.encIdx.toNat < 4) : Move b { b with encIdx := b.encIdx + 1 }
  | encodeEnd (i : BitVec 3) (b : Block) : Move b { b with encBusy := false, encIdx := i }
  | unspecified (f : Frame) (p : Packet) (e : Frame) (b : Block) : Move b { b with f := f, pkt := p, encB := e }

/-- A chain of moves. -/
abbrev Moves : Block → Block → Prop := Relation.ReflTransGen Move

theorem BlockInv.move {b b' : Block} (h : BlockInv b) (m : Move b b') : BlockInv b' := by
  cases m with
  | init sel => exact h.setQueue sel (h.queue sel).init
  | push sel v _ hc he => exact h.setQueue sel ((h.queue sel).pushed v hc)
  | pop sel _ hc hs => exact h.setQueue sel ((h.queue sel).popped hc)
  | irq e => exact ⟨h.rx, h.tx, h.position_le, h.encIdx_le⟩
  | feed v => exact h.feed v
  | cursor => exact ⟨h.rx, h.tx, Nat.zero_le 4, h.encIdx_le⟩
  | encodeStart r => exact ⟨h.rx, h.tx, h.position_le, fun _ => Nat.zero_le 4⟩
  | encodeNext _ hi =>
    refine ⟨h.rx, h.tx, h.position_le, fun _ => ?_⟩
    show (b.encIdx + 1).toNat ≤ 4
    rw [BitVec3_succ hi]; omega
  | encodeEnd i => exact ⟨h.rx, h.tx, h.position_le, fun hb => by cases hb⟩
  | unspecified f p e => exact ⟨h.rx, h.tx, h.position_le, h.encIdx_le⟩

theorem BlockInv.moves {b b' : Block} (h : BlockInv b) (m : Moves b b') : BlockInv b' := by
  induction m with
  | refl => exact h
  | tail _ hm ih => exact ih.move hm

theorem Moves.push {b b' : Block} {sel : QSel} {v : Byte} {ok : Bool} (h : b.push sel v = .ok (ok, b')) :
    Moves b b' := by
  rcases Block.push_cases h with ⟨_, _, rfl⟩ | ⟨hc, he, _, rfl⟩
  · exact .refl
  · exact .single (.push sel v b hc he)

theorem Moves.pop {b b' : Block} {sel : QSel} {r : Option Byte} (h : b.pop sel = .ok (r, b')) : Moves b b' := by
  rcases Block.pop_cases h with ⟨_, _, rfl⟩ | ⟨hc, hs, _, rfl⟩
  · exact .refl
  · exact .single (.pop sel b hc hs)

theorem Moves.trySend {b b' : Block} {v : Byte} {ok : Bool} (h : b.trySend v = .ok (ok, b')) : Moves b b' := by
  rcases Block.trySend_cases h with ⟨_, _, rfl⟩ | ⟨hc, he, _, rfl⟩
  · exact .refl
  · exact (Relation.ReflTransGen.single (.push .txq v b hc he)).tail (.irq true _)

theorem Moves.encodeAttempt {b b' : Block} {r : Option Bool} (h : b.encodeAttempt = .ok (r, b')) : Moves b b' := by
  rcases Block.encodeAttempt_cases h with ⟨_, _, _, rfl⟩ | ⟨_, hc, he, _, rfl⟩ | ⟨hi, hc, he, _, rfl⟩ | ⟨_, _, rfl⟩
  · exact .single (.encodeEnd b.encIdx b)
  · exact ((Relation.ReflTransGen.single (.push .txq _ b hc he)).tail (.irq true _)).tail (.encodeEnd _ _)
  · exact ((Relation.ReflTransGen.single (.push .txq (frameGet b.encB b.encIdx.toNat) b hc he)).tail (.irq true _)).tail
      (.encodeNext { b with txq := b.txq.pushed (frameGet b.encB b.encIdx.toNat), txIrqEn := true } hi)
  · exact .single (.encodeEnd b.encIdx b)

end Sys2Proof.Machine
end

