-- ==== Sys2Proof/Laws/Codec.lean ====
section
/-! SUPPORT. The fields of a packed word are what was packed: request words (R110), data words (R112), packet words
(R91) and command bytes (R95). -/

namespace Sys2Proof

/-- A byte is known by its eight bits. -/
theorem byte_ext {a b : Byte} (h0 : a.getLsbD 0 = b.getLsbD 0) (h1 : a.getLsbD 1 = b.getLsbD 1)
    (h2 : a.getLsbD 2 = b.getLsbD 2) (h3 : a.getLsbD 3 = b.getLsbD 3) (h4 : a.getLsbD 4 = b.getLsbD 4)
    (h5 : a.getLsbD 5 = b.getLsbD 5) (h6 : a.getLsbD 6 = b.getLsbD 6) (h7 : a.getLsbD 7 = b.getLsbD 7) : a = b := by
  apply BitVec.eq_of_getLsbD_eq
  intro i hi
  have : i = 0 ∨ i = 1 ∨ i = 2 ∨ i = 3 ∨ i = 4 ∨ i = 5 ∨ i = 6 ∨ i = 7 := by omega
  rcases this with rfl | rfl | rfl | rfl | rfl | rfl | rfl | rfl <;> assumption

@[simp] theorem reqOp_packReq (op : BitVec 4) (q : BitVec 1) (d : DataWord) : reqOp (packReq op q d) = op := by
  apply BitVec.eq_of_getLsbD_eq
  intro i hi
  have : i = 0 ∨ i = 1 ∨ i = 2 ∨ i = 3 := by omega
  rcases this with rfl | rfl | rfl | rfl <;> simp [reqOp, packReq]

@[simp] theorem reqQ_packReq (op : BitVec 4) (q : QSel) (d : DataWord) : reqQ (packReq op (qBit q) d) = q := by
  cases q <;> simp [reqQ, packReq, qBit]

@[simp] theorem reqB_packReq (op : BitVec 4) (q : BitVec 1) (b : Byte) :
    reqB (packReq op q (b.setWidth 32)) = b := by
  apply byte_ext <;> simp [reqB, packReq]

@[simp] theorem reqC_packReq (op : BitVec 4) (q : BitVec 1) (c p1 p2 p3 : Byte) :
    reqC (packReq op q (packData c p1 p2 p3)) = c := by
  apply byte_ext <;> simp [reqC, packReq, packData]

@[simp] theorem reqP1_packReq (op : BitVec 4) (q : BitVec 1) (c p1 p2 p3 : Byte) :
    reqP1 (packReq op q (packData c p1 p2 p3)) = p1 := by
  apply byte_ext <;> simp [reqP1, packReq, packData]

@[simp] theorem reqP2_packReq (op : BitVec 4) (q : BitVec 1) (c p1 p2 p3 : Byte) :
    reqP2 (packReq op q (packData c p1 p2 p3)) = p2 := by
  apply byte_ext <;> simp [reqP2, packReq, packData]

@[simp] theorem reqP3_packReq (op : BitVec 4) (q : BitVec 1) (c p1 p2 p3 : Byte) :
    reqP3 (packReq op q (packData c p1 p2 p3)) = p3 := by
  apply byte_ext <;> simp [reqP3, packReq, packData]

@[simp] theorem pktFrame_packPkt (r : Frame) : pktFrame (packPkt r) = r := by
  have h : ∀ a b c d e : Byte, pktFrame (packPkt ⟨a, b, c, d, e⟩) = ⟨a, b, c, d, e⟩ := by
    intro a b c d e
    simp only [pktFrame, packPkt, Frame.mk.injEq]
    refine ⟨?_, ?_, ?_, ?_, ?_⟩ <;> apply byte_ext <;> simp
  exact h _ _ _ _ _

/-- The code of a packed packet is the low seven bits of its command byte (R95). -/
theorem pktCode_packPkt (r : Frame) : pktCode (packPkt r) = r.command.setWidth 7 := by
  apply BitVec.eq_of_getLsbD_eq
  intro i hi
  have : i = 0 ∨ i = 1 ∨ i = 2 ∨ i = 3 ∨ i = 4 ∨ i = 5 ∨ i = 6 := by omega
  rcases this with rfl | rfl | rfl | rfl | rfl | rfl | rfl <;> simp [pktCode, packPkt]

/-- The acknowledge bit of a packed packet is bit 7 of its command byte (R95). -/
theorem pktAck_packPkt (r : Frame) : pktAck (packPkt r) = r.command.getLsbD 7 := by simp [pktAck, packPkt]

@[simp] theorem commandByte_code (ack : Bool) (code : BitVec 7) : (commandByte ack code).setWidth 7 = code := by
  apply BitVec.eq_of_getLsbD_eq
  intro i hi
  have : i = 0 ∨ i = 1 ∨ i = 2 ∨ i = 3 ∨ i = 4 ∨ i = 5 ∨ i = 6 := by omega
  rcases this with rfl | rfl | rfl | rfl | rfl | rfl | rfl <;> simp [commandByte]

@[simp] theorem commandByte_ack (ack : Bool) (code : BitVec 7) : (commandByte ack code).getLsbD 7 = ack := by
  cases ack <;> simp [commandByte]

/-- The command byte of a packet word is its code under its acknowledge bit (R95). -/
theorem commandByte_fields (w : Word40) : commandByte (pktAck w) (pktCode w) = (pktFrame w).command := by
  cases h : w.getLsbD 39 <;> apply byte_ext <;> simp_all [commandByte, pktAck, pktCode, pktFrame]

/-- The decoder's command byte is R95's `k` or `k | 0x80`. -/
theorem commandByte_eq_wireCommand (ack : Bool) (code : BitVec 7) :
    commandByte ack code = wireCommand (code.setWidth 8) ack := by
  revert ack code; decide

end Sys2Proof
end

