-- ==== Sys2Proof/Laws/Steps.lean ====
section
/-! SUPPORT. The shared operations as transitions of the machine: each is a chain of the block's moves, and none faults
where the invariant holds. -/

namespace Sys2Proof.Machine

/-- A transition whose next states are reached by moves, and which answers wherever the invariant holds. -/
structure Tame (k : State → Host.Outcome State Fault Refusal) : Prop where
  moves : ∀ {s t}, k s = .next t → Moves s.blk t.blk
  answers : ∀ {s}, BlockInv s.blk → Answers (k s)

theorem Tame.inv {k : State → Host.Outcome State Fault Refusal} (h : Tame k) {s t : State} (hi : BlockInv s.blk)
    (ht : k s = .next t) : BlockInv t.blk := hi.moves (h.moves ht)

theorem Tame.pure {f : State → State} (h : ∀ s, Moves s.blk (f s).blk) : Tame (fun s => .next (f s)) where
  moves := by intro s t ht; cases ht; exact h s
  answers := fun _ => ⟨_, rfl⟩

theorem Tame.andThen {j k : State → Host.Outcome State Fault Refusal} (hj : Tame j) (hk : Tame k) :
    Tame (fun s => Machine.andThen (j s) k) where
  moves := by
    intro s t ht
    obtain ⟨u, hu, hkt⟩ := andThen_eq_next ht
    exact (hj.moves hu).trans (hk.moves hkt)
  answers := by
    intro s hi
    obtain ⟨u, hu⟩ := hj.answers hi
    obtain ⟨t, ht⟩ := hk.answers (hj.inv hi hu)
    exact ⟨t, by simp [hu, ht]⟩

theorem Tame.serve {a : State → Bool} {op : State → Host.Outcome State Fault Refusal} (h : Tame op) :
    Tame (fun s => s.serve (a s) op) where
  moves := by
    intro s t ht
    rcases serve_cases ht with ⟨_, rfl⟩ | ⟨_, _, rfl⟩ | ⟨_, _, ho⟩
    · exact .refl
    · exact .refl
    · exact h.moves ho
  answers := by
    intro s hi
    unfold State.serve
    split
    · split
      · exact h.answers hi
      · exact ⟨_, rfl⟩
    · exact ⟨_, rfl⟩

theorem Tame.finishPush {g : State → Except Fault (Bool × Block)} {u : State → State} {p : Port}
    (hm : ∀ {s ok b}, g s = .ok (ok, b) → Moves s.blk b)
    (ha : ∀ {s}, BlockInv s.blk → ∃ ok b, g s = .ok (ok, b)) : Tame (fun s => (u s).finishPush p (g s)) where
  moves := by
    intro s t ht
    cases hg : g s with
    | error e => simp only [hg, State.finishPush] at ht; cases ht
    | ok r => simp only [hg, State.finishPush] at ht; cases ht; exact hm hg
  answers := by
    intro s hi
    obtain ⟨ok, b, hg⟩ := ha hi
    exact ⟨_, by simp only [hg, State.finishPush]; rfl⟩

theorem Tame.finishPop {g : State → Except Fault (Option Byte × Block)} {p : Port}
    (hm : ∀ {s r b}, g s = .ok (r, b) → Moves s.blk b)
    (ha : ∀ {s}, BlockInv s.blk → ∃ r b, g s = .ok (r, b)) : Tame (fun s => s.finishPop p (g s)) where
  moves := by
    intro s t ht
    cases hg : g s with
    | error e => simp only [hg, State.finishPop] at ht; cases ht
    | ok r =>
      obtain ⟨r, b⟩ := r
      cases r <;> (simp only [hg, State.finishPop] at ht; cases ht; exact hm hg)
  answers := by
    intro s hi
    obtain ⟨r, b, hg⟩ := ha hi
    cases r <;> exact ⟨_, by simp only [hg, State.finishPop]; rfl⟩

/-! ### The shared steps -/

theorem finishFeed_blk (s : State) (p : Port) (r : Option Packet × Block) : (s.finishFeed p r).blk = r.2 := by
  obtain ⟨k, b⟩ := r
  cases k <;> rfl

theorem Tame.rxEventStep (v : Byte) : Tame (rxEventStep v) :=
  Tame.finishPush (u := fun s => { s with rxStream := s.rxStream ++ [v] }) Moves.push
    (fun hi => Block.push_answers hi .rxq v)

theorem Tame.feedStep (v : Byte) : Tame (feedStep v) :=
  Tame.pure (fun s => by rw [finishFeed_blk]; exact .single (.feed v s.blk))

theorem Tame.encodeStep : Tame encodeStep where
  moves := by
    intro s t ht
    cases hg : s.blk.encodeAttempt with
    | error e => simp only [Machine.encodeStep, hg] at ht; cases ht
    | ok r =>
      obtain ⟨r, b⟩ := r
      cases r <;> (simp only [Machine.encodeStep, hg] at ht; cases ht; exact Moves.encodeAttempt hg)
  answers := by
    intro s hi
    obtain ⟨r, b, hg⟩ := Block.encodeAttempt_answers hi
    cases r <;> exact ⟨_, by simp only [Machine.encodeStep, hg]; rfl⟩

theorem Tame.encodeFirst (r : Frame) : Tame (encodeFirst r) where
  moves := fun ht => (Relation.ReflTransGen.single (.encodeStart r _)).trans (Tame.encodeStep.moves ht)
  answers := fun hi => Tame.encodeStep.answers (hi.move (.encodeStart r _))

theorem Tame.eachByte {k : Byte → State → Host.Outcome State Fault Refusal} (h : ∀ v, Tame (k v)) (r : Frame) :
    Tame (eachByte k r) :=
  ((((h r.command).andThen (h r.parameter1)).andThen (h r.parameter2)).andThen (h r.parameter3)).andThen (h r.checksum)

theorem Tame.carryPacket (r : Frame) : Tame (carryPacket r) where
  moves := by
    intro s t ht
    unfold Machine.carryPacket at ht
    split at ht
    · exact (Tame.eachByte Tame.rxEventStep r).moves ht
    · split at ht
      · exact (Tame.eachByte Tame.feedStep r).moves ht
      · cases ht; exact .refl
    · split at ht
      · exact (Tame.encodeFirst _).moves ht
      · cases ht; exact .refl
  answers := by
    intro s hi
    unfold Machine.carryPacket
    split
    · exact (Tame.eachByte Tame.rxEventStep r).answers hi
    · split
      · exact (Tame.eachByte Tame.feedStep r).answers hi
      · exact ⟨_, rfl⟩
    · split
      · exact (Tame.encodeFirst _).answers hi
      · exact ⟨_, rfl⟩

end Sys2Proof.Machine
end

