-- ==== Sys2Proof/Laws/Exec.lean ====
section
/-! SUPPORT. What an instruction is once its request is accepted: one equation per instruction, cited in place of its
definition; chains of instructions; the responses of the shared operations. -/

namespace Sys2Proof.Machine

/-! ### An accepted request -/

/-- Where the main flow may issue, port `m` is ready. -/
theorem mainReady_reqReady {s : State} (h : MainReady s) : reqReady s.port s.blk = true := by simp [h.1, h.2]

/-- An operation of the main flow runs where the main flow may issue. -/
theorem serve_main {s : State} (op : State → Host.Outcome State Fault Refusal) (h : MainReady s) :
    s.serve (s.port == .m) op = op s := by simp [State.serve, h.1, h.2]

/-- On a ready port a request is refused or runs. -/
theorem serve_ready {s : State} (a : Bool) (op : State → Host.Outcome State Fault Refusal)
    (h : reqReady s.port s.blk = true) : s.serve a op = if a then op s else .next (s.refuse s.port) := by
  simp [State.serve, h]

theorem exec_nop_ready {s : State} (h : reqReady s.port s.blk = true) : exec .nop s = .next (s.respond s.port true 0) :=
  by rw [exec, execNop, serve_accepted _ h]

theorem exec_qInit_main {s : State} (h : MainReady s) (q : QSel) :
    exec (.qInit q) s = .next ({ s with blk := s.blk.initQueue q }.respond .m true 0) := by
  rw [exec, execQInit, serve_main _ h]

theorem exec_qPush_main {s : State} (h : MainReady s) (q : QSel) (b : Byte) :
    exec (.qPush q b) s = s.finishPush .m (s.blk.push q b) := by
  rw [exec, execQPush, serve_main _ h]

theorem exec_qPop_main {s : State} (h : MainReady s) (q : QSel) :
    exec (.qPop q) s = s.finishPop .m (s.blk.pop q) := by
  rw [exec, execQPop, serve_main _ h]

theorem exec_tpInit_main {s : State} (h : MainReady s) :
    exec .tpInit s = .next ({ s with blk := s.blk.tpInit }.respond .m true 0) := by
  rw [exec, execTpInit, serve_main _ h]

theorem exec_rxEvent_drx {s : State} (h : s.port = .drx) (b : Byte) : exec (.rxEvent b) s = rxEventStep b s := by
  rw [exec, execRxEvent, serve_ready _ _ (by simp [h]), if_pos (by simp [h])]

theorem exec_txEvent_dtx {s : State} (h : s.port = .dtx) (he : s.blk.txIrqEn = true) :
    exec .txEvent s =
      match s.blk.pop .txq with
      | .error e => .fault e
      | .ok (some v, b) => .next (({ s with blk := b }.emitSent v).respond .dtx true (zext32 v))
      | .ok (none, b) => .next ({ s with blk := { b with txIrqEn := false } }.respondAny .dtx) := by
  rw [exec, execTxEvent, serve_ready _ _ (by simp [h]), if_pos (by simp [h, he])]
  all_goals rfl

theorem exec_tryRecv_main {s : State} (h : MainReady s) :
    exec .tryRecv s = s.finishPop .m (s.blk.pop .rxq) := by
  rw [exec, execTryRecv, serve_main _ h]

theorem exec_trySend_main {s : State} (h : MainReady s) (b : Byte) :
    exec (.trySend b) s = s.finishPush .m (s.blk.trySend b) := by
  rw [exec, execTrySend, serve_main _ h]

theorem exec_frInit_main {s : State} (h : MainReady s) :
    exec .frInit s = .next ({ s with blk := { s.blk with position := 0 } }.respond .m true 0) := by
  rw [exec, execFrInit, serve_main _ h]

theorem exec_feed_main {s : State} (h : MainReady s) (b : Byte) : exec (.feed b) s = feedStep b s := by
  rw [exec, execFeed, serve_main _ h]

theorem exec_poll_main {s : State} (h : MainReady s) :
    exec .poll s =
      match s.blk.pop .rxq with
      | .error e => .fault e
      | .ok (some v, b) => feedStep v { s with blk := b }
      | .ok (none, b) => .next ({ s with blk := b }.respond .m false 0) := by
  rw [exec, execPoll, serve_main _ h]
  all_goals rfl

/-- A `POLL` of an empty `RXQ` (R178). -/
theorem exec_poll_empty {s : State} (h : MainReady s) (hc : s.blk.rxq.count = 0) :
    exec .poll s = .next (s.respond .m false 0) := by
  rw [exec_poll_main h, Block.pop_empty s.blk .rxq hc]

/-- A `POLL` with a byte queued is the pop and the feed (R178). -/
theorem exec_poll_some {s : State} (h : MainReady s) (hc : s.blk.rxq.count ≠ 0) (hs : s.blk.rxq.startIdx < s.blk.rxq.cap) :
    exec .poll s = feedStep (slotByte .rxq s.blk.rxq s.blk.rxq.startIdx)
      { s with blk := { s.blk with rxq := s.blk.rxq.popped } } := by
  rw [exec_poll_main h, Block.pop_some s.blk .rxq hc hs]
  rfl

theorem exec_encode_main {s : State} (h : MainReady s) (c p1 p2 p3 : Byte) :
    exec (.encode c p1 p2 p3) s = encodeFirst (enc5 c p1 p2 p3) s := by
  rw [exec, execEncode, serve_main _ h]

/-- A wire command is the packet of its five bytes, carried. -/
theorem exec_wireCommand {i : Instr} {r : Frame} (h : wireBytes i = some r) (s : State) :
    exec i s = carryPacket r s := by
  have hb : ∀ (ack : Bool) (k : BitVec 7), commandByte ack k = if ack then (k.setWidth 8 ||| 0x80) else k.setWidth 8 := by
    decide
  cases i <;> simp only [wireBytes] at h <;> cases h <;>
    (refine congrArg (fun c => carryPacket ⟨c, _, _, _, _⟩ s) ?_; rw [hb]; rfl)

/-- A packet word of any code, in the table or not, is the packet of its five bytes, carried (R97). -/
theorem servePacket_eq (r : Route) (w : Word40) (s : State) :
    servePacket r w s = carryPacket (pktFrame w) (s.onRoute r) := by
  have command : ∀ k : BitVec 7, (pktCode w).toNat = k.toNat →
      commandFrame k (pktAck w) (pktFrame w).parameter1 (pktFrame w).parameter2 (pktFrame w).parameter3
        (pktFrame w).checksum = pktFrame w := by
    intro k hk
    rw [← BitVec.eq_of_toNat_eq hk, commandFrame, commandByte_fields]
  unfold servePacket
  cases hd : decode .pkt w with
  | error e => rfl
  | ok i =>
    simp only [decode, decodePkt] at hd
    split at hd <;> cases hd <;> exact congrArg (carryPacket · _) (command _ (by assumption))

/-! ### Chains -/

theorem execAll_append (a b : List Instr) (s : State) : execAll (a ++ b) s = andThen (execAll a s) (execAll b) := by
  induction a generalizing s with
  | nil => rfl
  | cons i a ih => simp only [List.cons_append, execAll]; cases exec i s <;> simp [andThen, ih]

/-- The five bytes of a frame, one step each. -/
theorem eachByte_eq (k : Byte → State → Host.Outcome State Fault Refusal) (r : Frame) (s : State) :
    eachByte k r s = andThen (andThen (andThen (andThen (k r.command s) (k r.parameter1)) (k r.parameter2))
      (k r.parameter3)) (k r.checksum) := rfl

/-! ### Responses -/

theorem responsesOn_append (p : Port) (a b : List Output) :
    responsesOn p (a ++ b) = responsesOn p a ++ responsesOn p b := by
  induction a with
  | nil => rfl
  | cons x a ih => cases x <;> simp only [List.cons_append, responsesOn, ih]; split <;> rfl

/-- An operation that pushes gives one response. -/
theorem finishPush_out {s t : State} {p : Port} {r : Except Fault (Bool × Block)} (h : s.finishPush p r = .next t) :
    ∃ ok, t.out = s.out ++ [.rsp p (done ok 0)] := by
  unfold State.finishPush at h
  split at h
  · cases h
  · cases h; exact ⟨_, rfl⟩

/-- An operation that pops and returns the byte gives one response. -/
theorem finishPop_out {s t : State} {p : Port} {r : Except Fault (Option Byte × Block)} (h : s.finishPop p r = .next t) :
    ∃ ok d, t.out = s.out ++ [.rsp p (done ok d)] := by
  unfold State.finishPop at h
  split at h
  · cases h
  · cases h; exact ⟨_, _, rfl⟩
  · cases h; exact ⟨_, _, rfl⟩

/-- A feed gives one response. -/
theorem feedStep_out {s t : State} {v : Byte} (h : feedStep v s = .next t) :
    ∃ ok d, t.out = s.out ++ [.rsp .m (done ok d)] := by
  unfold feedStep State.finishFeed at h
  cases h
  split <;> exact ⟨_, _, rfl⟩

/-- A step of an `ENCODE` gives one response, or none and the `ENCODE` goes on. -/
theorem encodeStep_out {s t : State} (h : encodeStep s = .next t) :
    (∃ ok, t.out = s.out ++ [.rsp .m (done ok 0)]) ∨ (t.out = s.out ∧ t.blk.encBusy = s.blk.encBusy) := by
  unfold encodeStep at h
  split at h
  · cases h
  · cases h; exact .inl ⟨_, rfl⟩
  · next b hb =>
    cases h
    refine .inr ⟨rfl, ?_⟩
    rcases Block.encodeAttempt_cases hb with ⟨_, _, h, _⟩ | ⟨_, _, _, h, _⟩ | ⟨_, _, _, _, rfl⟩ | ⟨_, h, _⟩
    · cases h
    · cases h
    · rfl
    · cases h

end Sys2Proof.Machine
end

