-- ==== Sys2Proof/Laws/Effect.lean ====
section
/-! SUPPORT. What an instruction can do to the block, said once for all instructions; what each shared operation leaves
as it is; small facts about runs and queues. -/

namespace Sys2Proof.Machine

/-! ### The block after a shared step -/

/-- An operation that pushes leaves the block its push gave. -/
theorem finishPush_blk {s t : State} {p : Port} {r : Except Fault (Bool × Block)} (h : s.finishPush p r = .next t) :
    ∃ ok, r = .ok (ok, t.blk) := by
  unfold State.finishPush at h
  split at h
  · cases h
  · cases h; exact ⟨_, rfl⟩

/-- An operation that pops leaves the block its pop gave. -/
theorem finishPop_blk {s t : State} {p : Port} {r : Except Fault (Option Byte × Block)}
    (h : s.finishPop p r = .next t) : ∃ v, r = .ok (v, t.blk) := by
  unfold State.finishPop at h
  split at h
  · cases h
  · cases h; exact ⟨_, rfl⟩
  · cases h; exact ⟨_, rfl⟩

/-- A feed leaves the block its `Block.feed` gave. -/
theorem feedStep_blk {s t : State} {v : Byte} (h : feedStep v s = .next t) : t.blk = (s.blk.feed v).2 := by
  unfold feedStep at h; cases h; exact finishFeed_blk _ _ _

/-- A step of an `ENCODE` leaves the block its attempt gave. -/
theorem encodeStep_blk {s t : State} (h : encodeStep s = .next t) : ∃ r, s.blk.encodeAttempt = .ok (r, t.blk) := by
  unfold encodeStep at h
  split at h
  · cases h
  · cases h; exact ⟨_, by assumption⟩
  · cases h; exact ⟨_, by assumption⟩

/-! ### The streams after a shared step -/

theorem finishPush_streams {s t : State} {p : Port} {r : Except Fault (Bool × Block)} (h : s.finishPush p r = .next t) :
    t.txStream = s.txStream ∧ t.rxStream = s.rxStream := by
  unfold State.finishPush at h
  split at h <;> cases h
  exact ⟨rfl, rfl⟩

theorem finishPop_streams {s t : State} {p : Port} {r : Except Fault (Option Byte × Block)}
    (h : s.finishPop p r = .next t) : t.txStream = s.txStream ∧ t.rxStream = s.rxStream := by
  unfold State.finishPop at h
  split at h <;> cases h <;> exact ⟨rfl, rfl⟩

theorem feedStep_streams {s t : State} {v : Byte} (h : feedStep v s = .next t) :
    t.txStream = s.txStream ∧ t.rxStream = s.rxStream := by
  unfold feedStep State.finishFeed at h
  cases h
  split <;> exact ⟨rfl, rfl⟩

theorem encodeStep_streams {s t : State} (h : encodeStep s = .next t) :
    t.txStream = s.txStream ∧ t.rxStream = s.rxStream := by
  unfold encodeStep at h
  split at h <;> cases h <;> exact ⟨rfl, rfl⟩

theorem rxEventStep_streams {s t : State} {v : Byte} (h : rxEventStep v s = .next t) :
    t.txStream = s.txStream ∧ t.rxStream = s.rxStream ++ [v] := finishPush_streams h

/-! ### What the operations of the block leave as it is -/

/-- A push leaves the other queue, the notification, the framer and the encoder. -/
theorem Block.push_frame {b B : Block} {q : QSel} {v : Byte} {ok : Bool} (h : b.push q v = .ok (ok, B)) :
    (q ≠ .rxq → B.rxq = b.rxq) ∧ (q ≠ .txq → B.txq = b.txq) ∧ B.txIrqEn = b.txIrqEn ∧ B.f = b.f ∧ B.pkt = b.pkt ∧
      B.position = b.position ∧ B.encBusy = b.encBusy ∧ B.encIdx = b.encIdx ∧ B.encB = b.encB := by
  rcases Block.push_cases h with ⟨_, _, rfl⟩ | ⟨_, _, _, rfl⟩ <;> cases q <;> simp [Block.setQueue]

/-- A pop leaves the other queue, the notification, the framer and the encoder. -/
theorem Block.pop_frame {b B : Block} {q : QSel} {v : Option Byte} (h : b.pop q = .ok (v, B)) :
    (q ≠ .rxq → B.rxq = b.rxq) ∧ (q ≠ .txq → B.txq = b.txq) ∧ B.txIrqEn = b.txIrqEn ∧ B.f = b.f ∧ B.pkt = b.pkt ∧
      B.position = b.position ∧ B.encBusy = b.encBusy ∧ B.encIdx = b.encIdx ∧ B.encB = b.encB := by
  rcases Block.pop_cases h with ⟨_, _, rfl⟩ | ⟨_, _, _, rfl⟩ <;> cases q <;> simp [Block.setQueue]

/-- An enqueue leaves `RXQ`, the framer and the encoder. -/
theorem Block.trySend_frame {b B : Block} {v : Byte} {ok : Bool} (h : b.trySend v = .ok (ok, B)) :
    B.rxq = b.rxq ∧ B.f = b.f ∧ B.pkt = b.pkt ∧ B.position = b.position ∧ B.encBusy = b.encBusy ∧
      B.encIdx = b.encIdx ∧ B.encB = b.encB := by
  rcases Block.trySend_cases h with ⟨_, _, rfl⟩ | ⟨_, _, _, rfl⟩ <;> simp

/-- An enqueue attempt of an `ENCODE` leaves `RXQ`, the framer and the five bytes. -/
theorem Block.encodeAttempt_frame {b B : Block} {r : Option Bool} (h : b.encodeAttempt = .ok (r, B)) :
    B.rxq = b.rxq ∧ B.f = b.f ∧ B.pkt = b.pkt ∧ B.position = b.position ∧ B.encB = b.encB := by
  rcases Block.encodeAttempt_cases h with ⟨_, _, _, rfl⟩ | ⟨_, _, _, _, rfl⟩ | ⟨_, _, _, _, rfl⟩ | ⟨_, _, rfl⟩ <;> simp

/-- What holds between the states of each of five steps, and goes through, holds between the first and the last. -/
theorem eachByte_rel {k : Byte → State → Host.Outcome State Fault Refusal} (R : State → State → Prop)
    (ht : ∀ a b c, R a b → R b c → R a c) (hk : ∀ v s t, k v s = .next t → R s t) {r : Frame} {s t : State}
    (h : eachByte k r s = .next t) : R s t := by
  rw [eachByte_eq] at h
  obtain ⟨u4, h, h5⟩ := andThen_eq_next h
  obtain ⟨u3, h, h4⟩ := andThen_eq_next h
  obtain ⟨u2, h, h3⟩ := andThen_eq_next h
  obtain ⟨u1, h1, h2⟩ := andThen_eq_next h
  exact ht _ _ _ (ht _ _ _ (ht _ _ _ (ht _ _ _ (hk _ _ _ h1) (hk _ _ _ h2)) (hk _ _ _ h3)) (hk _ _ _ h4)) (hk _ _ _ h5)

/-- Five `RX_EVENT`s leave all but `RXQ`. -/
theorem eachByte_rxEventStep_frame {r : Frame} {s t : State} (h : eachByte rxEventStep r s = .next t) :
    t.blk.txq = s.blk.txq ∧ t.blk.txIrqEn = s.blk.txIrqEn ∧ t.blk.f = s.blk.f ∧ t.blk.pkt = s.blk.pkt ∧
      t.blk.position = s.blk.position ∧ t.blk.encBusy = s.blk.encBusy ∧ t.blk.encIdx = s.blk.encIdx ∧
      t.blk.encB = s.blk.encB := by
  refine eachByte_rel (R := fun s t => t.blk.txq = s.blk.txq ∧ t.blk.txIrqEn = s.blk.txIrqEn ∧ t.blk.f = s.blk.f ∧
      t.blk.pkt = s.blk.pkt ∧ t.blk.position = s.blk.position ∧ t.blk.encBusy = s.blk.encBusy ∧
      t.blk.encIdx = s.blk.encIdx ∧ t.blk.encB = s.blk.encB) ?_ ?_ h
  · intro a b c h1 h2; simp_all
  · intro v s t h
    obtain ⟨ok, h⟩ := finishPush_blk h
    have := Block.push_frame h
    simp_all

/-! ### The slots that pushes write -/

/-- At most `n` pushes into a queue: they take nothing out, `end` moves on by as many as happened, and they write the slots
it passed and no other. -/
def PushedUpTo (n : Nat) (q Q : Queue) : Prop :=
  ∃ m, m ≤ n ∧ Q.cap = q.cap ∧ Q.startIdx = q.startIdx ∧ Q.count = q.count + m ∧
    (m = 0 → Q.endIdx = q.endIdx) ∧ (m ≠ 0 → Q.endIdx = (q.endIdx + m) % q.cap) ∧
    ∀ k, (∀ j, j < m → k ≠ (q.endIdx + j) % q.cap) → storageRead Q.buf k = storageRead q.buf k

theorem PushedUpTo.refl (n : Nat) (q : Queue) : PushedUpTo n q q :=
  ⟨0, n.zero_le, rfl, rfl, rfl, fun _ => rfl, fun h => absurd rfl h, fun _ _ => rfl⟩

theorem PushedUpTo.pushed {q : Queue} (v : Byte) (he : q.endIdx < q.cap) : PushedUpTo 1 q (q.pushed v) :=
  ⟨1, Nat.le_refl 1, rfl, rfl, rfl, fun h => absurd h (by decide), fun _ => rfl, fun k hk =>
    storageRead_write_other _ _ (by simpa [Nat.mod_eq_of_lt he] using hk 0 Nat.one_pos)⟩

theorem PushedUpTo.trans {m n : Nat} {q Q R : Queue} (h : PushedUpTo m q Q) (h' : PushedUpTo n Q R) :
    PushedUpTo (m + n) q R := by
  obtain ⟨a, ha, c1, s1, n1, z1, e1, w1⟩ := h
  obtain ⟨b, hb, c2, s2, n2, z2, e2, w2⟩ := h'
  have pass : ∀ j, a ≠ 0 → (Q.endIdx + j) % Q.cap = (q.endIdx + (a + j)) % q.cap := by
    intro j h0
    rw [c1, e1 h0, Nat.mod_add_mod, Nat.add_assoc]
  refine ⟨a + b, by omega, c2.trans c1, s2.trans s1, by omega, fun h => (z2 (by omega)).trans (z1 (by omega)), ?_, ?_⟩
  · intro h
    by_cases hb0 : b = 0
    · subst hb0; rw [z2 rfl, e1 (by omega), Nat.add_zero]
    · by_cases ha0 : a = 0
      · subst ha0; rw [e2 hb0, c1, z1 rfl, Nat.zero_add]
      · rw [e2 hb0, pass b ha0]
  · intro k hk
    rw [w2 k, w1 k fun j hj => hk j (by omega)]
    intro j hj
    by_cases ha0 : a = 0
    · subst ha0; rw [c1, z1 rfl]; exact hk j (by omega)
    · rw [pass j ha0]; exact hk (a + j) (by omega)

/-- A push is at most one. -/
theorem Block.push_pushedUpTo {b B : Block} {q : QSel} {v : Byte} {ok : Bool} (h : b.push q v = .ok (ok, B)) :
    PushedUpTo 1 (b.queue q) (B.queue q) := by
  rcases Block.push_cases h with ⟨_, _, rfl⟩ | ⟨_, he, _, rfl⟩
  · exact .refl 1 _
  · cases q <;> exact .pushed v he

/-- An enqueue is at most one push. -/
theorem Block.trySend_pushedUpTo {b B : Block} {v : Byte} {ok : Bool} (h : b.trySend v = .ok (ok, B)) :
    PushedUpTo 1 b.txq B.txq := by
  rcases Block.trySend_cases h with ⟨_, _, rfl⟩ | ⟨_, he, _, rfl⟩
  · exact .refl 1 _
  · exact .pushed v he

/-- An attempt of an `ENCODE` is at most one push. -/
theorem Block.encodeAttempt_pushedUpTo {b B : Block} {r : Option Bool} (h : b.encodeAttempt = .ok (r, B)) :
    PushedUpTo 1 b.txq B.txq := by
  rcases Block.encodeAttempt_cases h with ⟨_, _, _, rfl⟩ | ⟨_, _, he, _, rfl⟩ | ⟨_, _, he, _, rfl⟩ | ⟨_, _, rfl⟩
  · exact .refl 1 _
  · exact .pushed _ he
  · exact .pushed _ he
  · exact .refl 1 _

/-- Five `RX_EVENT`s are at most five pushes. -/
theorem eachByte_rxEventStep_pushedUpTo {r : Frame} {s t : State} (h : eachByte rxEventStep r s = .next t) :
    PushedUpTo 5 s.blk.rxq t.blk.rxq := by
  have one : ∀ {v : Byte} {s t : State}, rxEventStep v s = .next t → PushedUpTo 1 s.blk.rxq t.blk.rxq := by
    intro v s t h
    obtain ⟨_, h⟩ := finishPush_blk h
    exact Block.push_pushedUpTo h
  rw [eachByte_eq] at h
  obtain ⟨u4, h, h5⟩ := andThen_eq_next h
  obtain ⟨u3, h, h4⟩ := andThen_eq_next h
  obtain ⟨u2, h, h3⟩ := andThen_eq_next h
  obtain ⟨u1, h1, h2⟩ := andThen_eq_next h
  exact ((((one h1).trans (one h2)).trans (one h3)).trans (one h4)).trans (one h5)

/-- Five feeds leave both queues, the notification and the encoder. -/
theorem eachByte_feedStep_frame {r : Frame} {s t : State} (h : eachByte feedStep r s = .next t) :
    t.blk.rxq = s.blk.rxq ∧ t.blk.txq = s.blk.txq ∧ t.blk.txIrqEn = s.blk.txIrqEn ∧ t.blk.encBusy = s.blk.encBusy ∧
      t.blk.encIdx = s.blk.encIdx ∧ t.blk.encB = s.blk.encB := by
  refine eachByte_rel (R := fun s t => t.blk.rxq = s.blk.rxq ∧ t.blk.txq = s.blk.txq ∧
      t.blk.txIrqEn = s.blk.txIrqEn ∧ t.blk.encBusy = s.blk.encBusy ∧ t.blk.encIdx = s.blk.encIdx ∧
      t.blk.encB = s.blk.encB) ?_ ?_ h
  · intro a b c h1 h2; simp_all
  · intro v s t h
    have := Block.feed_frame s.blk v
    rw [feedStep_blk h]
    exact this

/-! ### Every instruction -/

/-- What an instruction that answers a next state has done to the block. -/
inductive Effect : Instr → State → Block → Prop where
  | none {i s} : Effect i s s.blk
  | qInit {q s} : Effect (.qInit q) s (s.blk.initQueue q)
  | qPush {q b s ok B} (h : s.blk.push q b = .ok (ok, B)) : Effect (.qPush q b) s B
  | qPop {q s v B} (h : s.blk.pop q = .ok (v, B)) : Effect (.qPop q) s B
  | tpInit {s} : Effect .tpInit s s.blk.tpInit
  | rxEvent {b s ok B} (h : s.blk.push .rxq b = .ok (ok, B)) : Effect (.rxEvent b) s B
  | txSome {s v B} (hp : s.port = .dtx) (he : s.blk.txIrqEn = true) (h : s.blk.pop .txq = .ok (some v, B)) :
      Effect .txEvent s B
  | txNone {s B} (hp : s.port = .dtx) (he : s.blk.txIrqEn = true) (h : s.blk.pop .txq = .ok (none, B)) :
      Effect .txEvent s { B with txIrqEn := false }
  | tryRecv {s v B} (h : s.blk.pop .rxq = .ok (v, B)) : Effect .tryRecv s B
  | trySend {b s ok B} (h : s.blk.trySend b = .ok (ok, B)) : Effect (.trySend b) s B
  | frInit {s} : Effect .frInit s { s.blk with position := 0 }
  | feed {b s} : Effect (.feed b) s (s.blk.feed b).2
  | poll {s v B} (h : s.blk.pop .rxq = .ok (some v, B)) : Effect .poll s (B.feed v).2
  | pollNone {s B} (h : s.blk.pop .rxq = .ok (none, B)) : Effect .poll s B
  | encode {c p1 p2 p3 s r B} (h : (s.blk.encodeStart (enc5 c p1 p2 p3)).encodeAttempt = .ok (r, B)) :
      Effect (.encode c p1 p2 p3) s B
  | line {i r s t} (hw : wireBytes i = some r) (hr : s.route = .line) (h : eachByte rxEventStep r s = .next t) :
      Effect i s t.blk
  | wfeed {i r s t} (hw : wireBytes i = some r) (hr : s.route = .feed) (h : eachByte feedStep r s = .next t) :
      Effect i s t.blk
  | send {i r s rr B} (hw : wireBytes i = some r) (hr : s.route = .send) (h : (s.blk.encodeStart (enc5 r.command r.parameter1 r.parameter2 r.parameter3)).encodeAttempt = .ok (rr, B)) :
      Effect i s B

/-- An instruction is an operation or a wire command. -/
theorem req_or_wire (i : Instr) : i.format = .req ∨ ∃ r, wireBytes i = some r := by
  cases i <;> first | exact .inl rfl | exact .inr ⟨_, rfl⟩

/-- The block after an instruction is one of these. -/
theorem exec_effect {i : Instr} {s t : State} (h : exec i s = .next t) : Effect i s t.blk := by
  rcases req_or_wire i with hf | ⟨r, hw⟩
  · cases i <;> simp only [Instr.format] at hf <;> first | (cases hf; done) | skip
    all_goals simp only [exec, execNop, execQInit, execQPush, execQPop, execTpInit, execRxEvent, execTxEvent,
      execTryRecv, execTrySend, execFrInit, execFeed, execPoll, execEncode] at h
    all_goals (rcases serve_cases h with ⟨_, rfl⟩ | ⟨_, _, rfl⟩ | ⟨_, ha, ho⟩; exact .none; exact .none)
    · cases ho; exact .none
    · cases ho; exact .qInit
    · obtain ⟨ok, h⟩ := finishPush_blk ho; exact .qPush h
    · obtain ⟨ok, h⟩ := finishPop_blk ho; exact .qPop h
    · cases ho; exact .tpInit
    · obtain ⟨ok, h⟩ := finishPush_blk ho; exact .rxEvent h
    · simp at ha
      split at ho
      · cases ho
      · cases ho; exact .txSome ha.1 ha.2 (by assumption)
      · cases ho; exact .txNone ha.1 ha.2 (by assumption)
    · obtain ⟨ok, h⟩ := finishPop_blk ho; exact .tryRecv h
    · obtain ⟨ok, h⟩ := finishPush_blk ho; exact .trySend h
    · cases ho; exact .frInit
    · rw [feedStep_blk ho]; exact .feed
    · split at ho
      · cases ho
      · rw [feedStep_blk ho]; exact .poll (by assumption)
      · cases ho; exact .pollNone (by assumption)
    · obtain ⟨ok, h⟩ := encodeStep_blk ho; exact .encode h
  · rw [exec_wireCommand hw] at h
    unfold carryPacket at h
    split at h
    · exact .line hw (by assumption) h
    · split at h
      · exact .wfeed hw (by assumption) h
      · cases h; exact .none
    · split at h
      · obtain ⟨rr, h⟩ := encodeStep_blk h
        exact .send hw (by assumption) h
      · cases h; exact .none

/-! ### Runs and queues -/

/-- A run's first step. -/
theorem runSteps_succ (n : Nat) (s : State) : runSteps (n + 1) s = andThen (step s) (runSteps n) := by
  unfold runSteps
  simp only [Host.Core.run]
  split <;> (rename_i r h; have h : step s = _ := h; rw [h]; rfl)

/-- In a queue that holds a byte, the slot at `start` has been written (R132). -/
theorem QueueInv.written_start {q : Queue} (hi : QueueInv q) (hc : q.count ≠ 0) (sel : QSel) :
    storageRead q.buf q.startIdx = some (slotByte sel q q.startIdx) := by
  have := hi.written 0 (by omega)
  simp [Nat.mod_eq_of_lt hi.start_lt] at this
  obtain ⟨v, hv⟩ := Option.isSome_iff_exists.mp this
  simp [slotByte, hv]

end Sys2Proof.Machine
end

