-- ==== Sys2Proof/Laws/PerInstr.lean ====
section
/-! SUPPORT. Per instruction: the encoder's word matches its row of the opcode table, on the bits the row's mask keeps. -/

namespace Sys2Proof.Laws

/-- The `match` of an instruction's row in spec/opcode_table.json. -/
def rowMatch : Instr → Word40
  | .nop => 0x0000000000
  | .qInit _ => 0x1000000000
  | .qPush _ _ => 0x2000000000
  | .qPop _ => 0x3000000000
  | .tpInit => 0x4000000000
  | .rxEvent _ => 0x5000000000
  | .txEvent => 0x6000000000
  | .tryRecv => 0x7000000000
  | .trySend _ => 0x8000000000
  | .frInit => 0x9000000000
  | .feed _ => 0xA000000000
  | .poll => 0xB000000000
  | .encode _ _ _ _ => 0xC000000000
  | .cmdStartup _ _ _ _ _ => 0x0400000000
  | .cmdFlashProgram _ _ _ _ _ => 0x0700000000
  | .cmdFlashRead _ _ _ _ _ => 0x0800000000
  | .cmdVersion _ _ _ _ _ => 0x0900000000
  | .cmdProtocolMode _ _ _ _ _ => 0x0A00000000
  | .cmdTowerNumber _ _ _ _ _ => 0x0B00000000
  | .cmdTime _ _ _ _ _ => 0x0C00000000
  | .cmdTowerMode _ _ _ _ _ => 0x0D00000000
  | .cmdAnalogInput _ _ _ _ _ => 0x5000000000

/-- The `mask` of an instruction's row in spec/opcode_table.json. -/
def rowMask (i : Instr) : Word40 :=
  match i.format with
  | .req => 0xF000000000
  | .pkt => 0x7F00000000

/-- The bits of a request word that its row fixes are its operation code (R111). -/
theorem packReq_masked (op : BitVec 4) (q : BitVec 1) (d : DataWord) :
    packReq op q d &&& 0xF000000000#40 = op.setWidth 40 <<< 36 := by
  apply BitVec.eq_of_getLsbD_eq
  intro i hi
  interval_cases i <;> simp [packReq]

/-- The bits of a packet word that its row fixes are the low seven of its command byte (R100). -/
theorem packPkt_masked (r : Frame) :
    packPkt r &&& 0x7F00000000#40 = (r.command.setWidth 7).setWidth 40 <<< 32 := by
  apply BitVec.eq_of_getLsbD_eq
  intro i hi
  interval_cases i <;> simp [packPkt]

/-- A command frame's fixed bits are its code. -/
theorem commandFrame_masked (code : BitVec 7) (ack : Bool) (p1 p2 p3 k : Byte) :
    packPkt (commandFrame code ack p1 p2 p3 k) &&& 0x7F00000000#40 = code.setWidth 40 <<< 32 := by
  rw [packPkt_masked]; simp [commandFrame]

/-- The word of an instruction agrees with its row of the table. -/
def MatchesTableRow.Statement (i : Instr) : Prop := encode i &&& rowMask i = rowMatch i

namespace MatchesTableRow

theorem nop : Statement (.nop) := packReq_masked _ _ _
theorem qInit (q : QSel) : Statement (.qInit q) := packReq_masked _ _ _
theorem qPush (q : QSel) (b : Byte) : Statement (.qPush q b) := packReq_masked _ _ _
theorem qPop (q : QSel) : Statement (.qPop q) := packReq_masked _ _ _
theorem tpInit : Statement (.tpInit) := packReq_masked _ _ _
theorem rxEvent (b : Byte) : Statement (.rxEvent b) := packReq_masked _ _ _
theorem txEvent : Statement (.txEvent) := packReq_masked _ _ _
theorem tryRecv : Statement (.tryRecv) := packReq_masked _ _ _
theorem trySend (b : Byte) : Statement (.trySend b) := packReq_masked _ _ _
theorem frInit : Statement (.frInit) := packReq_masked _ _ _
theorem feed (b : Byte) : Statement (.feed b) := packReq_masked _ _ _
theorem poll : Statement (.poll) := packReq_masked _ _ _
theorem encode (c p1 p2 p3 : Byte) : Statement (.encode c p1 p2 p3) := packReq_masked _ _ _
theorem cmdStartup (ack : Bool) (p1 p2 p3 chk : Byte) : Statement (.cmdStartup ack p1 p2 p3 chk) :=
  commandFrame_masked _ _ _ _ _ _
theorem cmdFlashProgram (ack : Bool) (p1 p2 p3 chk : Byte) : Statement (.cmdFlashProgram ack p1 p2 p3 chk) :=
  commandFrame_masked _ _ _ _ _ _
theorem cmdFlashRead (ack : Bool) (p1 p2 p3 chk : Byte) : Statement (.cmdFlashRead ack p1 p2 p3 chk) :=
  commandFrame_masked _ _ _ _ _ _
theorem cmdVersion (ack : Bool) (p1 p2 p3 chk : Byte) : Statement (.cmdVersion ack p1 p2 p3 chk) :=
  commandFrame_masked _ _ _ _ _ _
theorem cmdProtocolMode (ack : Bool) (p1 p2 p3 chk : Byte) : Statement (.cmdProtocolMode ack p1 p2 p3 chk) :=
  commandFrame_masked _ _ _ _ _ _
theorem cmdTowerNumber (ack : Bool) (p1 p2 p3 chk : Byte) : Statement (.cmdTowerNumber ack p1 p2 p3 chk) :=
  commandFrame_masked _ _ _ _ _ _
theorem cmdTime (ack : Bool) (p1 p2 p3 chk : Byte) : Statement (.cmdTime ack p1 p2 p3 chk) :=
  commandFrame_masked _ _ _ _ _ _
theorem cmdTowerMode (ack : Bool) (p1 p2 p3 chk : Byte) : Statement (.cmdTowerMode ack p1 p2 p3 chk) :=
  commandFrame_masked _ _ _ _ _ _
theorem cmdAnalogInput (ack : Bool) (p1 p2 p3 chk : Byte) : Statement (.cmdAnalogInput ack p1 p2 p3 chk) :=
  commandFrame_masked _ _ _ _ _ _

end MatchesTableRow

end Sys2Proof.Laws
end

