-- ==== Sys2Proof/Tests/Slice0.lean ====
section
/-! SUPPORT. Tests: words written out from the spec, the well-formedness smoke, one-step tests with expected values from
95_test_vectors.md, and for each statement with hypotheses a witness that meets them. -/

namespace Sys2Proof.Tests

open Sys2Proof Sys2Proof.Machine

/-! ### Decoding: words written out bit by bit (95_test_vectors.md section 2: E1 to E17) -/

theorem test_decode_nop : decode .req 0x0000000000 = .ok .nop := by decide
theorem test_decode_qInit : decode .req 0x1000000000 = .ok (.qInit .rxq) ∧
    decode .req 0x1800000000 = .ok (.qInit .txq) := by decide
theorem test_decode_qPush : decode .req 0x2000000011 = .ok (.qPush .rxq 0x11) ∧
    decode .req 0x2800000011 = .ok (.qPush .txq 0x11) := by decide
theorem test_decode_qPop : decode .req 0x3000000000 = .ok (.qPop .rxq) ∧
    decode .req 0x3800000000 = .ok (.qPop .txq) := by decide
theorem test_decode_tpInit : decode .req 0x4000000000 = .ok .tpInit ∧
    decode .req 0x4800000000 = .ok .tpInit := by decide
theorem test_decode_rxEvent : decode .req 0x5000000004 = .ok (.rxEvent 0x04) ∧
    decode .req 0x57FFFFFF04 = .ok (.rxEvent 0x04) := by decide
theorem test_decode_txEvent : decode .req 0x6000000000 = .ok .txEvent ∧
    decode .req 0x6FFFFFFFFF = .ok .txEvent := by decide
theorem test_decode_tryRecv : decode .req 0x7000000000 = .ok .tryRecv := by decide
theorem test_decode_trySend : decode .req 0x80000000A1 = .ok (.trySend 0xA1) := by decide
theorem test_decode_frInit : decode .req 0x9000000000 = .ok .frInit := by decide
theorem test_decode_feed : decode .req 0xA00000002C = .ok (.feed 0x2C) := by decide
theorem test_decode_poll : decode .req 0xB000000000 = .ok .poll := by decide
theorem test_decode_encode : decode .req 0xC004010203 = .ok (.encode 0x04 0x01 0x02 0x03) ∧
    decode .req 0xC00B013412 = .ok (.encode 0x0B 0x01 0x34 0x12) := by decide
theorem test_decode_reserved : decode .req 0xD000000000 = .error (.reservedOperation 0xD) ∧
    decode .req 0xE000000000 = .error (.reservedOperation 0xE) ∧
    decode .req 0xF000000000 = .error (.reservedOperation 0xF) := by decide

/-! The example frames of R101 to R109, the first byte in `W[39:32]` (R91). -/

theorem test_decode_cmdStartup : decode .pkt 0x0400000004 = .ok (.cmdStartup false 0x00 0x00 0x00 0x04) ∧
    decode .pkt 0x8400000084 = .ok (.cmdStartup true 0x00 0x00 0x00 0x84) := by decide
theorem test_decode_cmdFlashProgram :
    decode .pkt 0x870200AB2E = .ok (.cmdFlashProgram true 0x02 0x00 0xAB 0x2E) := by decide
theorem test_decode_cmdFlashRead :
    decode .pkt 0x080500000D = .ok (.cmdFlashRead false 0x05 0x00 0x00 0x0D) := by decide
theorem test_decode_cmdVersion :
    decode .pkt 0x097601007E = .ok (.cmdVersion false 0x76 0x01 0x00 0x7E) := by decide
theorem test_decode_cmdProtocolMode :
    decode .pkt 0x0A0101000A = .ok (.cmdProtocolMode false 0x01 0x01 0x00 0x0A) := by decide
theorem test_decode_cmdTowerNumber :
    decode .pkt 0x0B0134122C = .ok (.cmdTowerNumber false 0x01 0x34 0x12 0x2C) := by decide
theorem test_decode_cmdTime :
    decode .pkt 0x0C0C22381A = .ok (.cmdTime false 0x0C 0x22 0x38 0x1A) := by decide
theorem test_decode_cmdTowerMode :
    decode .pkt 0x0D0201000E = .ok (.cmdTowerMode false 0x02 0x01 0x00 0x0E) := by decide
theorem test_decode_cmdAnalogInput :
    decode .pkt 0x5000230172 = .ok (.cmdAnalogInput false 0x00 0x23 0x01 0x72) ∧
    decode .pkt 0xD0002301F2 = .ok (.cmdAnalogInput true 0x00 0x23 0x01 0xF2) := by decide
theorem test_decode_unrecognised : decode .pkt 0x0000000000 = .error (.unrecognisedCommand 0x00) ∧
    decode .pkt 0xFF00000000 = .error (.unrecognisedCommand 0x7F) := by decide

/-- The encoder on E3, E5, E17 and on the frame of R102. -/
theorem test_encode : encode (.qInit .txq) = 0x1800000000 ∧ encode (.qPush .txq 0x11) = 0x2800000011 ∧
    encode (.encode 0x0B 0x01 0x34 0x12) = 0xC00B013412 ∧
    encode (.cmdFlashProgram true 0x02 0x00 0xAB 0x2E) = 0x870200AB2E := by decide

/-- The `match` words of the table's rows, and the one they share (log entry 16). -/
theorem test_table_words : decodeTableWord 40 0x0000000000 = some .nop ∧
    decodeTableWord 40 0x5000000000 = some (.rxEvent 0x00) ∧
    decodeTableWord 40 0xC000000000 = some (.encode 0 0 0 0) ∧
    decodeTableWord 40 0x0400000000 = some (.cmdStartup false 0 0 0 0) ∧
    decodeTableWord 40 0x0D00000000 = some (.cmdTowerMode false 0 0 0 0) ∧
    decodeTableWord 40 0x5000230172 = some (.cmdAnalogInput false 0x00 0x23 0x01 0x72) ∧
    decodeTableWord 40 0xD000000000 = some (.cmdAnalogInput true 0 0 0 0) ∧
    decodeTableWord 40 0xF000000000 = none := by decide

/-! ### Well-formedness: each check refuses a wrong checksum and admits the right one -/

theorem test_wf_cmdStartup : Instr.wellFormed (.cmdStartup false 0 0 0 0x05) = false ∧
    Instr.wellFormed (.cmdStartup false 0 0 0 0x04) = true := by decide
theorem test_wf_cmdFlashProgram : Instr.wellFormed (.cmdFlashProgram true 0x02 0 0xAB 0xAE) = false ∧
    Instr.wellFormed (.cmdFlashProgram true 0x02 0 0xAB 0x2E) = true := by decide
theorem test_wf_cmdFlashRead : Instr.wellFormed (.cmdFlashRead false 0x05 0 0 0x0C) = false ∧
    Instr.wellFormed (.cmdFlashRead false 0x05 0 0 0x0D) = true := by decide
theorem test_wf_cmdVersion : Instr.wellFormed (.cmdVersion false 0x76 1 0 0x7F) = false ∧
    Instr.wellFormed (.cmdVersion false 0x76 1 0 0x7E) = true := by decide
theorem test_wf_cmdProtocolMode : Instr.wellFormed (.cmdProtocolMode false 1 1 0 0x0B) = false ∧
    Instr.wellFormed (.cmdProtocolMode false 1 1 0 0x0A) = true := by decide
theorem test_wf_cmdTowerNumber : Instr.wellFormed (.cmdTowerNumber false 1 0x34 0x12 0x2D) = false ∧
    Instr.wellFormed (.cmdTowerNumber false 1 0x34 0x12 0x2C) = true := by decide
theorem test_wf_cmdTime : Instr.wellFormed (.cmdTime false 0x0C 0x22 0x38 0x1B) = false ∧
    Instr.wellFormed (.cmdTime false 0x0C 0x22 0x38 0x1A) = true := by decide
theorem test_wf_cmdTowerMode : Instr.wellFormed (.cmdTowerMode false 2 1 0 0x0F) = false ∧
    Instr.wellFormed (.cmdTowerMode false 2 1 0 0x0E) = true := by decide
theorem test_wf_cmdAnalogInput : Instr.wellFormed (.cmdAnalogInput false 0 0x23 0x01 0x73) = false ∧
    Instr.wellFormed (.cmdAnalogInput false 0 0x23 0x01 0x72) = true := by decide

/-! ### Response words (E20 to E24) -/

theorem test_response_words : rspWord (done true 0) = 0x100000000 ∧ rspWord (done false 0) = 0x000000000 ∧
    rspWord (done true (zext32 0x5A)) = 0x10000005A ∧ rspWord (done true (packData 0x0B 0x01 0x34 0x12)) = 0x10B013412 ∧
    rspWord refusal = 0x200000000 := by decide

/-! ### One step each -/

/-- A queue written `start/end/count` with its written slots, as 95_test_vectors.md writes it. -/
def queue (cap startIdx endIdx count : Nat) (slots : List Byte) : Queue where
  cap := cap
  startIdx := startIdx
  endIdx := endIdx
  count := count
  buf := (List.range slots.length).zip slots

/-- A state with two queues and the notification, otherwise as after reset, a request on port `p`. -/
def portState (p : Port) (rx tx : Queue) (irq : Bool) : State :=
  { State.fresh 1 1 with blk := { Block.fresh 1 1 with rxq := rx, txq := tx, txIrqEn := irq }, port := p }

/-- The empty queue of capacity 4. -/
def none4 : Queue := Queue.fresh 4

/-- A framer with a window and a cursor, the queues empty. -/
def framer (f : Frame) (pos : BitVec 3) : State :=
  { State.fresh 4 4 with blk := { Block.fresh 4 4 with f := f, position := pos } }

/-- Something of the next state, if there is one. -/
def after {α : Type} (o : Host.Outcome State Fault Refusal) (f : State → α) : Option α :=
  match o with
  | .next t => some (f t)
  | _ => none

/-- R184: `NOP` in any state, on any port. -/
theorem test_nop : after (exec .nop (portState .dtx none4 (queue 4 0 1 1 [0xA1]) true)) (fun t => (t.blk.txq, t.blk.txIrqEn, t.out)) =
    some (queue 4 0 1 1 [0xA1], true, [.rsp .dtx (done true 0)]) := by decide

/-- T4: `Q_INIT` leaves the storage. -/
theorem test_qInit : after (exec (.qInit .rxq) (portState .m (queue 4 1 3 2 [0x11, 0x22, 0x33]) none4 true))
    (fun t => (t.blk.rxq, t.blk.txIrqEn)) = some (queue 4 0 0 0 [0x11, 0x22, 0x33], true) := by decide

/-- T1, line 4: the push at the last slot wraps. -/
theorem test_qPush_wrap : after (exec (.qPush .rxq 0x44) (portState .m (queue 4 0 3 3 [0x11, 0x22, 0x33]) none4 false))
    (fun t => (t.blk.rxq, t.out)) = some (queue 4 0 0 4 [0x11, 0x22, 0x33, 0x44], [.rsp .m (done true 0)]) := by decide

/-- T1, line 10: a push into a full queue. -/
theorem test_qPush_full : after (exec (.qPush .rxq 0x88) (portState .m (queue 4 2 2 4 [0x66, 0x77, 0x33, 0x44]) none4 false))
    (fun t => (t.blk.rxq, t.out)) = some (queue 4 2 2 4 [0x66, 0x77, 0x33, 0x44], [.rsp .m (done false 0)]) := by decide

/-- T2, line 8: capacity 3, `start` goes from 2 to 0. -/
theorem test_qPop_wrap : after (exec (.qPop .txq) (portState .m none4 (queue 3 2 1 2 [0x04, 0x02, 0x03]) false))
    (fun t => (t.blk.txq, t.out)) = some (queue 3 0 1 1 [0x04, 0x02, 0x03], [.rsp .m (done true 0x03)]) := by decide

/-- T1, line 15: a pop from an empty queue; the byte is not specified. -/
theorem test_qPop_empty : after (exec (.qPop .rxq) (portState .m (queue 4 2 2 0 [0x66, 0x77, 0x33, 0x44]) none4 false))
    (fun t => (t.blk.rxq, (responsesOn .m t.out).map Rsp.ok)) =
      some (queue 4 2 2 0 [0x66, 0x77, 0x33, 0x44], [false]) := by decide

/-- T11, line 10: `TP_INIT`. -/
theorem test_tpInit : after (exec .tpInit (portState .m none4 (queue 2 0 1 1 [0xB1, 0xA2]) true))
    (fun t => (t.blk.txq, t.blk.txIrqEn)) = some (queue 2 0 0 0 [0xB1, 0xA2], false) := by decide

/-- T10, line 2. -/
theorem test_rxEvent : after (exec (.rxEvent 0x01) (portState .drx (queue 2 0 1 1 [0x04]) none4 false))
    (fun t => (t.blk.rxq, t.blk.rxq.full, t.rxStream)) = some (queue 2 0 0 2 [0x04, 0x01], true, [0x01]) := by decide

/-- T10, line 3: the byte is lost. -/
theorem test_rxEvent_full : after (exec (.rxEvent 0x02) (portState .drx (queue 2 0 0 2 [0x04, 0x01]) none4 false))
    (fun t => (t.blk.rxq, t.out)) = some (queue 2 0 0 2 [0x04, 0x01], [.rsp .drx (done false 0)]) := by decide

/-- T11, line 6: draining the queue does not disarm. -/
theorem test_txEvent : after (exec .txEvent (portState .dtx none4 (queue 2 1 0 1 [0xA1, 0xA2]) true))
    (fun t => (t.blk.txq, t.blk.txIrqEn, t.out)) =
      some (queue 2 0 0 0 [0xA1, 0xA2], true, [.sent 0xA2, .rsp .dtx (done true 0xA2)]) := by decide

/-- T11, line 7: the event that finds nothing disarms. -/
theorem test_txEvent_empty : after (exec .txEvent (portState .dtx none4 (queue 2 0 0 0 [0xA1, 0xA2]) true))
    (fun t => (t.blk.txq, t.blk.txIrqEn, t.txStream)) = some (queue 2 0 0 0 [0xA1, 0xA2], false, []) := by decide

/-- T12: `TX_EVENT` while disarmed, a byte queued. -/
theorem test_txEvent_refused : after (exec .txEvent (portState .dtx none4 (queue 4 0 1 1 [0xC1]) false))
    (fun t => (t.blk.txq, t.out)) = some (queue 4 0 1 1 [0xC1], [.rsp .dtx refusal]) := by decide

/-- T10, line 5. -/
theorem test_tryRecv : after (exec .tryRecv (portState .m (queue 2 1 0 1 [0x04, 0x01]) none4 false))
    (fun t => (t.blk.rxq, t.out)) = some (queue 2 0 0 0 [0x04, 0x01], [.rsp .m (done true 0x01)]) := by decide

/-- T11, line 9: the re-arming. -/
theorem test_trySend : after (exec (.trySend 0xB1) (portState .m none4 (queue 2 0 0 0 [0xA1, 0xA2]) false))
    (fun t => (t.blk.txq, t.blk.txIrqEn)) = some (queue 2 0 1 1 [0xB1, 0xA2], true) := by decide

/-- T13: a failing enqueue does not arm. -/
theorem test_trySend_full : after (exec (.trySend 0xC2) (portState .m none4 (queue 1 0 0 1 [0xC1]) false))
    (fun t => (t.blk.txq, t.blk.txIrqEn, t.out)) = some (queue 1 0 0 1 [0xC1], false, [.rsp .m (done false 0)]) := by decide

/-- T25: `FR_INIT` in mid-frame. -/
theorem test_frInit : after (exec .frInit (framer ⟨0x04, 0x01, 0, 0, 0⟩ 2)) (fun t => (t.blk.f, t.blk.position)) =
    some (⟨0x04, 0x01, 0, 0, 0⟩, 0) := by decide

/-- T20, line 5, with the outputs `pkt` and `m_rsp` (R42). -/
theorem test_feed_match : after (exec (.feed 0x04) (framer ⟨0x04, 0x01, 0x02, 0x03, 0⟩ 4))
    (fun t => (t.blk.f, t.blk.position, t.blk.pkt, pktPin t.blk, rspPin .m t)) =
      some (⟨0x04, 0x01, 0x02, 0x03, 0x04⟩, 0, ⟨0x04, 0x01, 0x02, 0x03⟩, 0x04010203, some 0x104010203) := by decide

/-- T21, line 10. -/
theorem test_feed_shift : after (exec (.feed 0x05) (framer ⟨0x04, 0x01, 0x02, 0x03, 0x04⟩ 4))
    (fun t => (t.blk.f, t.blk.position, t.out)) =
      some (⟨0x01, 0x02, 0x03, 0x05, 0x05⟩, 4, [.rsp .m (done false 0)]) := by decide

/-- T45: at most one byte per `POLL`. -/
theorem test_poll : after (exec .poll (portState .m (queue 4 0 2 2 [0x04, 0x01]) none4 false))
    (fun t => (t.blk.rxq, t.blk.position, t.blk.f.command, t.out)) =
      some (queue 4 1 2 1 [0x04, 0x01], 1, 0x04, [.rsp .m (done false 0)]) := by decide

/-- T45: an empty `RXQ`. -/
theorem test_poll_empty : exec .poll (portState .m none4 none4 false) =
    .next { portState .m none4 none4 false with out := [.rsp .m (done false 0)] } := by rfl

/-- T41: `ENCODE` into a full queue ends at step 0. -/
theorem test_encode_full : after (exec (.encode 0x50 0x00 0x23 0x01) (portState .m none4 (queue 4 0 0 4 [1, 2, 3, 4]) true))
    (fun t => (t.blk.txq, t.blk.encBusy, t.out)) =
      some (queue 4 0 0 4 [1, 2, 3, 4], false, [.rsp .m (done false 0)]) := by decide

/-- The state of T44 between step 3 and step 4, after the `TX_EVENT`. -/
def t44 : State :=
  { portState .m none4 (queue 4 1 0 3 [0x50, 0x00, 0x23, 0x01]) true with
    blk := { (portState .m none4 (queue 4 1 0 3 [0x50, 0x00, 0x23, 0x01]) true).blk with
      encBusy := true, encIdx := 4, encB := ⟨0x50, 0x00, 0x23, 0x01, 0x72⟩ }
    inputs := [.resume] }

/-- T44: step 4 of the `ENCODE`. -/
theorem test_encode_last : after (step t44) (fun t => (t.blk.txq, t.blk.encBusy, t.out)) =
    some (queue 4 1 1 4 [0x72, 0x00, 0x23, 0x01], false, [.rsp .m (done true 0)]) := by decide

/-! T46: the example frames, each to the framer at `position == 0`: its last response. -/

/-- The last response of a wire command fed to the framer. -/
def fed (i : Instr) : Option (Option Rsp) :=
  after (exec i { State.fresh 4 4 with route := .feed }) (fun t => (responsesOn .m t.out).getLast?)

theorem test_cmdStartup : fed (.cmdStartup false 0 0 0 0x04) = some (some (done true 0x04000000)) := by decide
theorem test_cmdStartup_ack : fed (.cmdStartup true 0 0 0 0x84) = some (some (done true 0x84000000)) := by decide
theorem test_cmdFlashProgram : fed (.cmdFlashProgram true 0x02 0 0xAB 0x2E) = some (some (done true 0x870200AB)) := by decide
theorem test_cmdFlashRead : fed (.cmdFlashRead false 0x05 0 0 0x0D) = some (some (done true 0x08050000)) := by decide
theorem test_cmdVersion : fed (.cmdVersion false 0x76 1 0 0x7E) = some (some (done true 0x09760100)) := by decide
theorem test_cmdProtocolMode : fed (.cmdProtocolMode false 1 1 0 0x0A) = some (some (done true 0x0A010100)) := by decide
theorem test_cmdTowerNumber : fed (.cmdTowerNumber false 1 0x34 0x12 0x2C) = some (some (done true 0x0B013412)) := by decide
theorem test_cmdTime : fed (.cmdTime false 0x0C 0x22 0x38 0x1A) = some (some (done true 0x0C0C2238)) := by decide
theorem test_cmdTowerMode : fed (.cmdTowerMode false 2 1 0 0x0E) = some (some (done true 0x0D020100)) := by decide
theorem test_cmdAnalogInput : fed (.cmdAnalogInput false 0 0x23 0x01 0x72) = some (some (done true 0x50002301)) := by decide

/-- A frame on the receive line at a queue with two free slots: two bytes stay, three are lost (R126, R153). -/
theorem test_cmdTowerNumber_line :
    after (exec (.cmdTowerNumber false 1 0x34 0x12 0x2C) { State.fresh 2 4 with route := .line }) (fun t => t.blk.rxq) =
      some (queue 2 0 0 2 [0x0B, 0x01]) := by decide

/-- P4, line 1, its first step. -/
theorem test_cmdAnalogInput_send :
    after (exec (.cmdAnalogInput false 0 0x23 0x01 0x72) { State.fresh 4 4 with route := .send })
      (fun t => (t.blk.txq, t.blk.txIrqEn, t.blk.encIdx, t.blk.encB)) =
      some (queue 4 0 1 1 [0x50], true, 1, ⟨0x50, 0x00, 0x23, 0x01, 0x72⟩) := by decide

/-- T50: after reset with capacities 4. -/
theorem test_reset : (State.fresh 4 4).blk.rxq.empty = true ∧ (State.fresh 4 4).blk.txq.full = false ∧
    (State.fresh 4 4).blk.txIrqEn = false ∧ (State.fresh 4 4).blk.position = 0 := by decide

/-- R43: a `TX_EVENT` and a `TRY_SEND` at one edge: the byte queued before goes first. -/
theorem test_edge : after (step { portState .m none4 (queue 4 0 1 1 [0xA1]) true with
    inputs := [.edge ⟨false, none, some 0x6000000000, some 0x80000000A2⟩] }) (fun t => (t.blk.txq, t.txStream)) =
      some (queue 4 1 2 1 [0xA1, 0xA2], [0xA1]) := by decide

/-! ### The hypotheses of the statements are met

One theorem per statement that has hypotheses, with a state or operands for each of its clauses. -/

/-- A queue of capacity `c` holding `n` bytes from slot 0 on. -/
def holding (c n : Nat) : Queue := queue c 0 (n % c) n (List.replicate n 0x5A)

theorem holding_inv : QueueInv (holding 1 1) ∧ QueueInv (holding 2 1) ∧ QueueInv (holding 4 3) ∧
    QueueInv (holding 4 4) ∧ QueueInv (holding 8 3) ∧ QueueInv (holding 8 4) := by
  refine ⟨?_, ?_, ?_, ?_, ?_, ?_⟩ <;> exact ⟨by decide, by decide, by decide, by decide, by decide, by decide, by decide, by decide⟩

/-- The start state with capacities 4, nothing queued. -/
def idle : State := State.fresh 4 4

theorem idle_main : MainReady idle := ⟨rfl, rfl⟩
theorem idle_inv : BlockInv idle.blk := .fresh (by decide) (by decide)

/-- The invariant of a block with two queues, otherwise as after reset. -/
theorem queues_inv {rx tx : Queue} (hr : QueueInv rx) (ht : QueueInv tx) (irq : Bool) (p : Port) :
    BlockInv (portState p rx tx irq).blk := ⟨hr, ht, Nat.zero_le 4, fun h => nomatch h⟩

/-- An `ENCODE` under way, at byte `k`, with `n` of `c` slots taken. -/
def busy (c n : Nat) (k : BitVec 3) (inputs : List Stimulus) : State :=
  { State.fresh 4 4 with
    blk := { Block.fresh 4 4 with
      txq := holding c n, txIrqEn := true, encBusy := true, encIdx := k, encB := ⟨0x0B, 0x01, 0x34, 0x12, 0x2C⟩ }
    inputs := inputs }

theorem busy_inv {c n : Nat} {k : BitVec 3} {inputs : List Stimulus} (h : QueueInv (holding c n)) (hk : k.toNat ≤ 4) :
    BlockInv (busy c n k inputs).blk := ⟨.fresh (by decide), h, Nat.zero_le 4, fun _ => hk⟩

theorem witness_EncodeOfDecodeIsTheWord :
    decode .req 0x57FFFFFF04 = .ok (.rxEvent 0x04) ∧ decode .pkt 0x870200AB2E = .ok (.cmdFlashProgram true 0x02 0x00 0xAB 0x2E) := by
  decide

theorem witness_OperationCodesOfTheTable :
    (0x2800000011 : Word40).extractLsb' 36 4 = 0x2 ∧ (0x0000000000 : Word40).extractLsb' 36 4 = 0x0 ∧
    (0xC00B013412 : Word40).extractLsb' 36 4 = 0xC ∧
    ((0xD000000000 : Word40).extractLsb' 36 4).toNat ∈ [0xD, 0xE, 0xF] ∧
    ((0xFFFFFFFFFF : Word40).extractLsb' 36 4).toNat ∈ [0xD, 0xE, 0xF] := by decide

theorem witness_UnusedRequestBitsAreIgnored :
    (0x57FFFFFF04 : Word40).extractLsb' 36 4 = (0x5000000004 : Word40).extractLsb' 36 4 ∧
    (0x57FFFFFF04 : Word40) &&& usedBits 0x5 = 0x5000000004 &&& usedBits 0x5 ∧
    (0x57FFFFFF04 : Word40) ≠ 0x5000000004 ∧ Instr.format (.rxEvent 0x04) = .req := by decide

theorem witness_ReservedCodesAreRefused :
    ((0xD000000000 : Word40).extractLsb' 36 4).toNat ∈ [0xD, 0xE, 0xF] ∧
    ({ idle with inputs := [.request .m 0xD000000000] } : State).inputs = [.request .m 0xD000000000] ∧
    reqReady .m idle.blk = true ∧ reqReady .drx (busy 4 3 1 []).blk = true := by decide

theorem witness_WireCommandCodes :
    (0x8400000084 : Word40) &&& 0x7F00000000 = 0x0400000000 ∧ (0x870200AB2E : Word40) &&& 0x7F00000000 = 0x0700000000 ∧
    (0x080500000D : Word40) &&& 0x7F00000000 = 0x0800000000 ∧ (0x097601007E : Word40) &&& 0x7F00000000 = 0x0900000000 ∧
    (0x0A0101000A : Word40) &&& 0x7F00000000 = 0x0A00000000 ∧ (0x0B0134122C : Word40) &&& 0x7F00000000 = 0x0B00000000 ∧
    (0x0C0C22381A : Word40) &&& 0x7F00000000 = 0x0C00000000 ∧ (0x0D0201000E : Word40) &&& 0x7F00000000 = 0x0D00000000 ∧
    (0xD0002301F2 : Word40) &&& 0x7F00000000 = 0x5000000000 ∧
    ((0x0300000003 : Word40).extractLsb' 32 7).toNat ∉ [0x04, 0x07, 0x08, 0x09, 0x0A, 0x0B, 0x0C, 0x0D, 0x50] ∧
    ((0xFF000000FF : Word40).extractLsb' 32 7).toNat ∉ [0x04, 0x07, 0x08, 0x09, 0x0A, 0x0B, 0x0C, 0x0D, 0x50] := by decide

theorem witness_WireCommandBytesAndChecksum :
    wireBytes (.cmdTowerNumber false 1 0x34 0x12 0x2C) = some ⟨0x0B, 0x01, 0x34, 0x12, 0x2C⟩ ∧
    xor5 ⟨0x0B, 0x01, 0x34, 0x12, 0x2C⟩ = 0 ∧ wireBytes (.cmdStartup true 0 0 0 0) = some ⟨0x84, 0, 0, 0, 0⟩ ∧
    xor5 ⟨0x84, 0, 0, 0, 0⟩ ≠ 0 := by decide

theorem witness_ChecksumConsequences :
    Frame.valid ⟨0x0B, 0x01, 0x34, 0x12, 0x2C⟩ = true ∧ (0x0A : Byte) ≠ frameGet ⟨0x0B, 0x01, 0x34, 0x12, 0x2C⟩ 0 ∧
    (0x2D : Byte) ≠ frameGet ⟨0x0B, 0x01, 0x34, 0x12, 0x2C⟩ 4 ∧ (0 : Nat) < 4 ∧ 4 < 5 := by decide

theorem witness_StepRunsTheDecodedInstruction :
    decode .req 0x2000000011 = .ok (.qPush .rxq 0x11) ∧ reqReady .m idle.blk = true ∧
    ({ idle with inputs := [.request .m 0x2000000011] } : State).inputs = [.request .m 0x2000000011] ∧
    decode .pkt 0x0400000004 = .ok (.cmdStartup false 0 0 0 0x04) ∧ idle.blk.encBusy = false ∧
    (busy 4 3 1 [.packet .line 0x0400000004]).inputs = [.packet .line 0x0400000004] := by decide

theorem witness_PortsAcceptTheirOperations :
    Instr.format .poll = .req ∧ Port.drx ∉ tablePorts .poll ∧ reqReady (portState .drx none4 none4 false).port idle.blk = true ∧
    (portState .dtx none4 none4 false).blk.txIrqEn = false ∧ Port.dtx ∈ tablePorts .txEvent ∧
    (∃ t, exec .txEvent (portState .dtx none4 (holding 4 3) true) = .next t) ∧
    (∃ t, exec .poll idle = .next t) ∧ idle.port ∈ tablePorts .poll :=
  ⟨by decide, by decide, by decide, by decide, by decide, ⟨_, rfl⟩, ⟨_, rfl⟩, by decide⟩

theorem witness_MainFlowWaitsForItsEncode :
    Instr.format .poll = .req ∧ (busy 4 3 1 []).port = .m ∧ (busy 4 3 1 []).blk.encBusy = true ∧
    (busy 4 3 1 [.packet .feed 0x0400000004]).inputs = [.packet .feed 0x0400000004] ∧
    Stimulus.packet .feed 0x0400000004 ∈ [Stimulus.request .m 0x0400000004, .packet .feed 0x0400000004, .packet .send 0x0400000004] := by
  decide

theorem witness_OneResponsePerRequest :
    (∃ t, exec (.qPush .rxq 0x11) idle = .next t ∧ t.out = [.rsp .m (done true 0)]) ∧
    (∃ t, exec .txEvent idle = .next t ∧ t.out = [.rsp .m refusal]) ∧
    (∃ t, exec (.encode 1 2 3 4) idle = .next t ∧ t.out = []) ∧ reqReady idle.port idle.blk = true :=
  ⟨⟨_, rfl, rfl⟩, ⟨_, rfl, rfl⟩, ⟨_, rfl, rfl⟩, rfl⟩

theorem witness_QInitEmptiesTheQueue : MainReady idle ∧ (0 < (idle.blk.queue .txq).cap) ∧ Port.drx ≠ .m ∧
    reqReady .drx idle.blk = true ∧ (0x1800000000 : Word40).extractLsb' 36 4 = 0x1 :=
  ⟨idle_main, by decide, by decide, by decide, by decide⟩

theorem witness_QPushStoresOrFails :
    (MainReady (portState .m (holding 4 4) none4 false) ∧ (holding 4 4).count = (holding 4 4).cap) ∧
    (MainReady (portState .m (holding 4 3) none4 false) ∧ QueueInv (holding 4 3) ∧ (holding 4 3).count ≠ (holding 4 3).cap) :=
  ⟨⟨⟨rfl, rfl⟩, rfl⟩, ⟨rfl, rfl⟩, holding_inv.2.2.1, by decide⟩

theorem witness_QPopReturnsTheOldestOrFails :
    (MainReady idle ∧ (idle.blk.queue .rxq).count = 0) ∧
    (MainReady (portState .m (holding 2 1) none4 false) ∧ QueueInv (holding 2 1) ∧ (holding 2 1).count ≠ 0) :=
  ⟨⟨idle_main, rfl⟩, ⟨rfl, rfl⟩, holding_inv.2.1, by decide⟩

theorem witness_QueueIsABoundedFifo :
    (BlockInv idle.blk ∧ MainReady idle) ∧
    (BlockInv (portState .m (holding 4 4) (holding 2 1) true).blk ∧ MainReady (portState .m (holding 4 4) (holding 2 1) true)) :=
  ⟨⟨idle_inv, idle_main⟩, queues_inv holding_inv.2.2.2.1 holding_inv.2.1 _ _, rfl, rfl⟩

theorem witness_PushedBytesComeBackInOrder :
    BlockInv idle.blk ∧ MainReady idle ∧ (idle.blk.queue .rxq).count = 0 ∧
    ([0x00, 0xFF, 0x80, 0x01] : List Byte).length ≤ (idle.blk.queue .rxq).cap :=
  ⟨idle_inv, idle_main, rfl, by decide⟩

theorem witness_PushAndPopCommute :
    BlockInv (portState .m (holding 2 1) (holding 4 3) true).blk ∧ (portState .m (holding 2 1) (holding 4 3) true).blk.encBusy = false ∧
    (holding 2 1).count ≠ 0 ∧ (holding 2 1).count ≠ (holding 2 1).cap ∧
    (holding 4 3).count ≠ 0 ∧ (holding 4 3).count ≠ (holding 4 3).cap ∧
    (portState .m (holding 2 1) (holding 4 3) true).blk.txIrqEn = true :=
  ⟨queues_inv holding_inv.2.1 holding_inv.2.2.1 _ _, rfl, by decide, by decide, by decide, by decide, rfl⟩

theorem witness_FlagsFollowTheCount : QueueInv (holding 1 1) ∧ (holding 1 1).cap = 1 := ⟨holding_inv.1, rfl⟩

theorem witness_IndicesFitTheirRegisters : QueueInv (holding 1 1) ∧ QueueInv (holding 4 4) :=
  ⟨holding_inv.1, holding_inv.2.2.2.1⟩

theorem witness_AccessOutsideStorageFaults :
    (MainReady (portState .m (queue 4 0 4 0 []) none4 false) ∧ (queue 4 0 4 0 []).count ≠ (queue 4 0 4 0 []).cap ∧
      (queue 4 0 4 0 []).cap ≤ (queue 4 0 4 0 []).endIdx) ∧
    (MainReady (portState .m (queue 4 4 0 1 []) none4 false) ∧ (queue 4 4 0 1 []).count ≠ 0 ∧
      (queue 4 4 0 1 []).cap ≤ (queue 4 4 0 1 []).startIdx) :=
  ⟨⟨⟨rfl, rfl⟩, by decide, by decide⟩, ⟨rfl, rfl⟩, by decide, by decide⟩

theorem witness_TpInitEmptiesBothQueues : MainReady idle ∧ 0 < idle.blk.rxq.cap ∧ 0 < idle.blk.txq.cap :=
  ⟨idle_main, by decide, by decide⟩

theorem witness_RxEventStoresOrDrops :
    ((portState .drx (holding 4 4) none4 false).port = .drx ∧ (holding 4 4).count = (holding 4 4).cap) ∧
    ((portState .drx (holding 4 3) none4 false).port = .drx ∧ QueueInv (holding 4 3) ∧ (holding 4 3).count ≠ (holding 4 3).cap) :=
  ⟨⟨rfl, rfl⟩, rfl, holding_inv.2.2.1, by decide⟩

theorem witness_TxEventSendsOrDisarms :
    ((portState .dtx none4 none4 false).port = .dtx ∧ (portState .dtx none4 none4 false).blk.txIrqEn = false) ∧
    ((portState .dtx none4 none4 true).blk.txIrqEn = true ∧ none4.count = 0) ∧
    (QueueInv (holding 2 1) ∧ (portState .dtx none4 (holding 2 1) true).blk.txIrqEn = true ∧ (holding 2 1).count ≠ 0) :=
  ⟨⟨rfl, rfl⟩, ⟨rfl, rfl⟩, holding_inv.2.1, rfl, by decide⟩

theorem witness_TryRecvTakesTheOldestByte :
    (MainReady idle ∧ idle.blk.rxq.count = 0) ∧
    (MainReady (portState .m (holding 2 1) none4 false) ∧ QueueInv (holding 2 1) ∧ (holding 2 1).count ≠ 0) :=
  ⟨⟨idle_main, rfl⟩, ⟨rfl, rfl⟩, holding_inv.2.1, by decide⟩

theorem witness_TrySendStoresAndArms :
    (MainReady (portState .m none4 (holding 4 4) true) ∧ (holding 4 4).count = (holding 4 4).cap) ∧
    (MainReady (portState .m none4 (holding 4 3) true) ∧ QueueInv (holding 4 3) ∧ (holding 4 3).count ≠ (holding 4 3).cap) :=
  ⟨⟨⟨rfl, rfl⟩, rfl⟩, ⟨rfl, rfl⟩, holding_inv.2.2.1, by decide⟩

theorem witness_QueuedBytesKeepTheNotificationOn :
    (∀ x rest, ({ idle with inputs := [.request .m 0x80000000A1] } : State).inputs = x :: rest → noDirectQueue x = true) ∧
    Armed idle.blk ∧ ∃ t, step { idle with inputs := [.request .m 0x80000000A1] } = .next t ∧ t.blk.txq.count = 1 :=
  ⟨(by intro x rest h; cases h; decide), (by intro h; cases h), _, rfl, rfl⟩

theorem witness_TransmitStreamIsWhatWasEnqueued :
    (BlockInv idle.blk ∧ directQueue (.trySend 1) = false ∧ ∃ t, exec (.trySend 1) idle = .next t) ∧
    (BlockInv (portState .dtx none4 (holding 2 1) true).blk ∧ directQueue .txEvent = false ∧
      ∃ t, exec .txEvent (portState .dtx none4 (holding 2 1) true) = .next t ∧ t.txStream = [0x5A]) :=
  ⟨⟨idle_inv, rfl, _, rfl⟩, queues_inv (.fresh (by decide)) holding_inv.2.1 _ _, rfl, _, rfl, rfl⟩

theorem witness_ReceiveStreamIsWhatWasStored :
    (BlockInv (portState .drx (holding 4 4) none4 false).blk ∧ directQueue (.rxEvent 1) = false ∧
      ∃ t, exec (.rxEvent 1) (portState .drx (holding 4 4) none4 false) = .next t) ∧
    (BlockInv (portState .m (holding 2 1) none4 false).blk ∧ ∃ t, exec .tryRecv (portState .m (holding 2 1) none4 false) = .next t) :=
  ⟨⟨queues_inv holding_inv.2.2.2.1 (.fresh (by decide)) _ _, rfl, _, rfl⟩, queues_inv holding_inv.2.1 (.fresh (by decide)) _ _, _, rfl⟩

theorem witness_FrInitOnlyMovesTheCursor : MainReady (framer ⟨1, 2, 3, 4, 5⟩ 3) := ⟨rfl, rfl⟩

theorem witness_FeedStoresChecksAndShifts :
    MainReady (framer ⟨1, 2, 3, 4, 5⟩ 3) ∧ (framer ⟨1, 2, 3, 4, 5⟩ 3).blk.position.toNat = 3 ∧ 3 < 4 ∧
    MainReady (framer ⟨4, 1, 2, 3, 0⟩ 4) ∧ (4 : Byte) ^^^ 1 ^^^ 2 ^^^ 3 = 4 ∧ (4 : Byte) ^^^ 1 ^^^ 2 ^^^ 3 ≠ 5 :=
  ⟨⟨rfl, rfl⟩, by decide, by decide, ⟨rfl, rfl⟩, by decide, by decide⟩

theorem witness_CursorTransitions :
    MainReady (framer ⟨4, 1, 2, 3, 0⟩ 4) ∧ (framer ⟨4, 1, 2, 3, 0⟩ 4).blk.position = 4 ∧ xor4 4 1 2 3 = 4 ∧ xor4 4 1 2 3 ≠ 5 ∧
    MainReady (framer ⟨4, 1, 2, 3, 0⟩ 0) ∧ ({ idle with inputs := [.edge ⟨true, none, none, none⟩] } : State).inputs ≠ [] ∧
    writesPosition (.trySend 1) .feed = false ∧ (∃ t, exec (.trySend 1) idle = .next t) ∧ ∃ t, step (busy 4 3 4 [.resume]) = .next t :=
  ⟨⟨rfl, rfl⟩, rfl, by decide, by decide, ⟨rfl, rfl⟩, by decide, rfl, ⟨_, rfl⟩, _, rfl⟩

theorem witness_PollFeedsOneByte :
    (MainReady idle ∧ idle.blk.rxq.count = 0) ∧
    (MainReady (portState .m (holding 2 1) none4 false) ∧ QueueInv (holding 2 1) ∧ (holding 2 1).count ≠ 0) :=
  ⟨⟨idle_main, rfl⟩, ⟨rfl, rfl⟩, holding_inv.2.1, by decide⟩

theorem witness_EventsBetweenTheStepsOfAPollCommute :
    BlockInv (portState .m (holding 1 1) none4 true).blk ∧ MainReady (portState .m (holding 1 1) none4 true) ∧
    (contents .rxq (holding 1 1)).head? = some 0x5A :=
  ⟨queues_inv holding_inv.1 (.fresh (by decide)) _ _, ⟨rfl, rfl⟩, by decide⟩

theorem witness_EncodeFirstStep :
    (MainReady (portState .m none4 (holding 4 4) true) ∧ (holding 4 4).count = (holding 4 4).cap) ∧
    (MainReady (portState .m none4 (holding 4 3) true) ∧ QueueInv (holding 4 3) ∧ (holding 4 3).count ≠ (holding 4 3).cap) :=
  ⟨⟨⟨rfl, rfl⟩, rfl⟩, ⟨rfl, rfl⟩, holding_inv.2.2.1, by decide⟩

theorem witness_EncodeLaterSteps :
    (BlockInv (busy 4 4 1 [.resume]).blk ∧ (busy 4 4 1 [.resume]).blk.encBusy = true ∧ (holding 4 4).count = (holding 4 4).cap) ∧
    (BlockInv (busy 4 3 4 [.resume]).blk ∧ (busy 4 3 4 [.resume]).inputs = [.resume] ∧
      (0x2C : Byte) = frameGet (busy 4 3 4 [.resume]).blk.encB 4 ∧ (holding 4 3).count ≠ (holding 4 3).cap) ∧
    (BlockInv (busy 4 3 3 [.resume]).blk ∧ (busy 4 3 3 [.resume]).blk.encIdx ≠ 4) :=
  ⟨⟨busy_inv holding_inv.2.2.2.1 (by decide), rfl, rfl⟩,
    ⟨busy_inv holding_inv.2.2.1 (by decide), rfl, by decide, by decide⟩,
    busy_inv holding_inv.2.2.1 (by decide), by decide⟩

/-- An `ENCODE` presented where `n` of `c` slots of `TXQ` are taken, and nothing else for its five steps. -/
def encoding (c n : Nat) : State :=
  { portState .m none4 (holding c n) true with inputs := [.request .m 0xC00B013412, .resume, .resume, .resume, .resume] }

theorem witness_EncodeWithoutEventsBetween :
    decode .req 0xC00B013412 = .ok (.encode 0x0B 0x01 0x34 0x12) ∧
    (encoding 8 3).inputs = .request .m 0xC00B013412 :: (List.replicate 4 .resume ++ []) ∧
    (BlockInv (encoding 8 3).blk ∧ (encoding 8 3).blk.encBusy = false ∧ (encoding 8 3).blk.txq.count + 5 = (encoding 8 3).blk.txq.cap) ∧
    (BlockInv (encoding 8 4).blk ∧ (encoding 8 4).blk.txq.count + 4 = (encoding 8 4).blk.txq.cap) ∧
    (BlockInv (encoding 4 4).blk ∧ (encoding 4 4).blk.txq.count + 0 = (encoding 4 4).blk.txq.cap) :=
  ⟨by decide, rfl, ⟨queues_inv (.fresh (by decide)) holding_inv.2.2.2.2.1 _ .m, rfl, rfl⟩,
    ⟨queues_inv (.fresh (by decide)) holding_inv.2.2.2.2.2 _ .m, rfl⟩, queues_inv (.fresh (by decide)) holding_inv.2.2.2.1 _ .m, rfl⟩

theorem witness_EventsNeverTakeAnEncodesRoom :
    (BlockInv (busy 8 4 1 [.request .dtx 0x6000000000]).blk ∧ (busy 8 4 1 [.request .dtx 0x6000000000]).blk.encBusy = true ∧
      4 + (5 - (1 : BitVec 3).toNat) ≤ 8 ∧ Port.dtx ≠ .m) ∧
    (BlockInv (busy 4 3 4 [.resume]).blk ∧ 3 + (5 - (4 : BitVec 3).toNat) ≤ 4) :=
  ⟨⟨busy_inv holding_inv.2.2.2.2.2 (by decide), rfl, by decide, by decide⟩, busy_inv holding_inv.2.2.1 (by decide), by decide⟩

theorem witness_NopChangesNothing : reqReady idle.port idle.blk = true ∧ reqReady .dtx (busy 4 3 1 []).blk = true := by decide

theorem witness_FeedingAnEncodedFrameDeliversIt : MainReady idle ∧ idle.blk.position = 0 := ⟨idle_main, rfl⟩

theorem witness_FramerFollowsTheCompletionTimes :
    (MainReady idle ∧ FramerSees [] idle.blk ∧ idle.blk.position = 0) ∧
    (MainReady (framer ⟨0x01, 0x02, 0x03, 0x05, 0x05⟩ 4) ∧
      FramerSees [0x04, 0x01, 0x02, 0x03, 0x05] (framer ⟨0x01, 0x02, 0x03, 0x05, 0x05⟩ 4).blk) ∧
    ∀ r ∈ [(⟨0x0B, 0x01, 0x34, 0x12, 0x2C⟩ : Frame), ⟨0x08, 0x05, 0, 0, 0x0D⟩], r.valid = true :=
  ⟨⟨idle_main, ⟨rfl, rfl⟩, rfl⟩, ⟨⟨rfl, rfl⟩, rfl, rfl⟩, by decide⟩

/-- The streams of T30 (no false completion) and T31 (a false completion at the first mixed window). -/
theorem witness_ResynchronisationAfterOneDamagedByte :
    MainReady idle ∧ idle.blk.position = 0 ∧
    (Frame.valid ⟨0x04, 0x01, 0x02, 0x03, 0x04⟩ = true ∧ Frame.valid ⟨0x0B, 0x01, 0x34, 0x12, 0x2C⟩ = true ∧
      (0x12 : Byte) ≠ frameGet ⟨0x04, 0x01, 0x02, 0x03, 0x04⟩ 2 ∧
      ∀ k, k < 4 → xorAll (((frameBytes (frameSet ⟨0x04, 0x01, 0x02, 0x03, 0x04⟩ 2 0x12) ++
        frameBytes ⟨0x0B, 0x01, 0x34, 0x12, 0x2C⟩).drop (k + 1)).take 5) ≠ 0) ∧
    (Frame.valid ⟨0x04, 0x00, 0x00, 0x00, 0x04⟩ = true ∧ (0x05 : Byte) ≠ frameGet ⟨0x04, 0x01, 0x02, 0x03, 0x04⟩ 0 ∧
      ((frameBytes (frameSet ⟨0x04, 0x01, 0x02, 0x03, 0x04⟩ 0 0x05) ++ frameBytes ⟨0x04, 0, 0, 0, 0x04⟩).drop 1).take 5 =
        [0x01, 0x02, 0x03, 0x04, 0x04] ∧ xorAll [0x01, 0x02, 0x03, 0x04, 0x04] = 0) :=
  ⟨idle_main, rfl, by decide, by decide⟩

theorem witness_PacketOnTheLineIsFiveRxEvents :
    ({ idle with inputs := [.packet .line 0xFF000000FF] } : State).inputs = [.packet .line 0xFF000000FF] := rfl

theorem witness_WireCommandArrivesInTheReceiveQueue :
    wireBytes (.cmdTime false 0x0C 0x22 0x38 0x1A) = some ⟨0x0C, 0x0C, 0x22, 0x38, 0x1A⟩ ∧
    ({ idle with route := .line } : State).route = .line ∧ BlockInv ({ idle with route := .line } : State).blk ∧
    BlockInv ({ portState .m (holding 4 4) none4 false with route := .line } : State).blk ∧
    BlockInv ({ portState .m (holding 8 3) none4 false with route := .line } : State).blk :=
  ⟨by decide, rfl, idle_inv, queues_inv holding_inv.2.2.2.1 (.fresh (by decide)) _ .m, queues_inv holding_inv.2.2.2.2.1 (.fresh (by decide)) _ .m⟩

theorem witness_WireCommandIsDeliveredByTheFramer :
    wireBytes (.cmdVersion false 0x76 1 0 0x7E) = some ⟨0x09, 0x76, 1, 0, 0x7E⟩ ∧ idle.route = .feed ∧
    idle.blk.encBusy = false ∧ idle.blk.position = 0 ∧ Instr.wellFormed (.cmdVersion false 0x76 1 0 0x7E) = true ∧
    Instr.wellFormed (.cmdVersion false 0x76 1 0 0x7F) = false ∧
    ({ framer ⟨1, 2, 3, 4, 5⟩ 3 with inputs := [.packet .feed 0xFF000000FF] } : State).inputs = [.packet .feed 0xFF000000FF] ∧
    (framer ⟨1, 2, 3, 4, 5⟩ 3).blk.encBusy = false ∧
    decode .pkt 0xFF000000FF = .error (.unrecognisedCommand 0x7F) := by decide

theorem witness_WireCommandIsSentByEncode :
    wireBytes (.cmdAnalogInput false 0 0x23 0x01 0x72) = some ⟨0x50, 0, 0x23, 0x01, 0x72⟩ ∧
    ({ idle with route := .send } : State).route = .send ∧ MainReady ({ idle with route := .send } : State) ∧
    BlockInv ({ idle with route := .send } : State).blk ∧
    ({ idle with inputs := [.packet .send 0xFF000000FF] } : State).inputs = [.packet .send 0xFF000000FF] ∧
    idle.blk.encBusy = false :=
  ⟨by decide, rfl, ⟨rfl, rfl⟩, idle_inv, rfl, rfl⟩

theorem witness_StepKeepsTheInvariant :
    BlockInv ({ idle with inputs := [.request .drx 0x5000000004] } : State).blk ∧
    ∃ t, step { idle with inputs := [.request .drx 0x5000000004] } = .next t ∧ t.blk.rxq.count = 1 :=
  ⟨idle_inv, _, rfl, rfl⟩

theorem witness_NoStepFaults : BlockInv (busy 4 3 4 [.resume]).blk := busy_inv holding_inv.2.2.1 (by decide)

theorem witness_EveryRunIsSafe : BlockInv (encoding 8 3).blk := queues_inv (.fresh (by decide)) holding_inv.2.2.2.2.1 _ .m

theorem witness_CapacitiesNeverChange :
    ∃ t, step { idle with inputs := [.request .m 0x4000000000] } = .next t ∧ t.out = [.rsp .m (done true 0)] :=
  ⟨_, rfl, rfl⟩

theorem witness_ResetEdgeRestoresTheStart :
    (busy 4 3 2 [.edge ⟨true, some 0x5000000004, none, none⟩]).inputs = [.edge ⟨true, some 0x5000000004, none, none⟩] ∧
    Pins.rst ⟨true, some 0x5000000004, none, none⟩ = true := by decide

theorem witness_ClockEdgeIsAnInterleaving :
    ({ idle with inputs := [.edge ⟨false, some 0x5000000004, none, some 0xB000000000⟩] } : State).inputs =
      [.edge ⟨false, some 0x5000000004, none, some 0xB000000000⟩] ∧
    (busy 4 3 2 [.edge ⟨false, none, some 0x6000000000, none⟩]).inputs =
      [.edge ⟨false, none, some 0x6000000000, none⟩] := by decide

theorem witness_NothingElseIsWritten :
    (∃ t, exec (.encode 1 2 3 4) idle = .next t) ∧ writesRxq (.encode 1 2 3 4) .feed = false ∧
    writesWindow (.encode 1 2 3 4) .feed = false ∧ writesPosition (.encode 1 2 3 4) .feed = false ∧
    writesStart .txq (.encode 1 2 3 4) = false ∧
    (∃ t, exec .poll (portState .m (holding 2 1) none4 false) = .next t) ∧ writesTxq .poll .feed = false ∧
    writesIrq .poll .feed = false ∧ writesEnc .poll .feed = false ∧ writesBuf .rxq .poll .feed = false ∧
    writesEnd .rxq .poll .feed = false ∧ pushCount .rxq (.rxEvent 1) .feed = 1 ∧
    (∃ t, exec (.cmdStartup false 0 0 0 0x04) { portState .m (holding 8 3) none4 false with route := .line } = .next t) ∧
    pushCount .rxq (.cmdStartup false 0 0 0 0x04) .line = 5 ∧ (∀ j, j < 5 → 2 ≠ ((holding 8 3).endIdx + j) % (holding 8 3).cap) :=
  ⟨⟨_, rfl⟩, rfl, rfl, rfl, rfl, ⟨_, rfl⟩, rfl, rfl, rfl, rfl, rfl, rfl, ⟨_, rfl⟩, rfl, by decide⟩

theorem witness_NotificationSetAndCleared :
    (∃ t, exec (.trySend 1) idle = .next t ∧ idle.blk.txIrqEn = false ∧ t.blk.txIrqEn = true) ∧
    (∃ t, exec .txEvent (portState .dtx none4 none4 true) = .next t ∧ t.blk.txIrqEn = false) ∧
    (∃ t, step { idle with inputs := [.edge ⟨false, none, none, some 0xC001020304⟩] } = .next t ∧ t.blk.txIrqEn = true) ∧
    ∃ t, step { portState .m none4 none4 true with inputs := [.edge ⟨true, none, none, none⟩] } = .next t ∧
      t.blk.txIrqEn = false :=
  ⟨⟨_, rfl, rfl, rfl⟩, ⟨_, rfl, rfl⟩, ⟨_, rfl, rfl⟩, _, rfl, rfl⟩

/-- At an edge with a byte from the device and an `ENCODE`, `drx` shows a response and `m` none; at a reset edge, none. -/
theorem witness_OutputsShowThePacketAndTheResponse :
    (∃ t, step { idle with inputs := [.edge ⟨false, some 0x5000000004, none, some 0xC001020304⟩] } = .next t ∧
      rspPin .drx t = some 0x100000000 ∧ rspPin .m t = none ∧ rspPin .dtx t = none ∧ t.blk.encBusy = true) ∧
    ∃ t, step { idle with inputs := [.edge ⟨true, some 0x5000000004, none, none⟩] } = .next t ∧ rspPin .drx t = none :=
  ⟨⟨_, rfl, rfl, rfl, rfl, rfl⟩, _, rfl, rfl⟩

theorem witness_InitialisationsAreIdempotent :
    MainReady (portState .m (holding 4 4) (holding 2 1) true) ∧ Instr.frInit ∈ [Instr.nop, .qInit .rxq, .qInit .txq, .tpInit, .frInit] :=
  ⟨⟨rfl, rfl⟩, by decide⟩

end Sys2Proof.Tests
end

namespace Sys2Proof.Machine

/-! ### The flags (R26) -/

/-- A queue right after reset has room: its capacity is at least 1 (R6). -/
theorem Queue.full_fresh {n : Nat} (h : 0 < n) : (Queue.fresh n).full = false := by
  rw [Bool.eq_false_iff, ne_eq, Queue.full_iff]
  exact Nat.ne_of_lt h

/-- Settles O21: the flags are `count` compared with 0 and `N`, and the invariant bounds `count` by `N`. -/
theorem flagsFollowTheCount : Obligations.FlagsFollowTheCount := by
  refine ⟨fun q => ⟨q.empty_iff, q.full_iff, fun hi hcap => ?_⟩, rfl, Queue.full_fresh Config.rxExtra.succ_pos, rfl,
    Queue.full_fresh Config.txExtra.succ_pos⟩
  rw [Queue.empty_iff, Queue.full_iff]
  have := hi.count_le
  omega

/-! ### The table of writes (R45) -/

/-- What an instruction may do to queue `q`, each kind of change where the table of writes has it. -/
inductive QueueChange (q : QSel) (i : Instr) (r : Route) : Queue → Queue → Prop where
  | same (Q : Queue) : QueueChange q i r Q Q
  | init (Q : Queue) (hs : writesStart q i = true) (he : writesEnd q i r = true) : QueueChange q i r Q Q.init
  | popped (Q : Queue) (hs : writesStart q i = true) : QueueChange q i r Q Q.popped
  | pushed {Q Q' : Queue} (hb : writesBuf q i r = true) (h : PushedUpTo (pushCount q i r) Q Q') : QueueChange q i r Q Q'

/-- What may write the storage of a queue may write its `end`. -/
theorem writesEnd_of_writesBuf {q : QSel} {i : Instr} {r : Route} (h : writesBuf q i r = true) :
    writesEnd q i r = true := by
  cases i <;> first | exact h | rfl | (simp [writesBuf, wireBytes] at h)

/-- An instruction that may write `start` or `end` of `RXQ` is in the row of `RXQ`. -/
theorem writesRxq_of_part {i : Instr} {r : Route} (h : writesStart .rxq i = true ∨ writesEnd .rxq i r = true) :
    writesRxq i r = true := by
  cases i <;> simp_all [writesStart, writesEnd, writesBuf, writesRxq, pushRoute, wireBytes]

/-- An instruction that may write `start` or `end` of `TXQ` is in the row of `TXQ`. -/
theorem writesTxq_of_part {i : Instr} {r : Route} (h : writesStart .txq i = true ∨ writesEnd .txq i r = true) :
    writesTxq i r = true := by
  cases i <;> simp_all [writesStart, writesEnd, writesBuf, writesTxq, pushRoute, wireBytes]


/-! The columns of a wire command are those of the operations its way stands for (log entry 14). -/

theorem writesBuf_wire {q : QSel} {i : Instr} {f : Frame} (hw : wireBytes i = some f) (r : Route) :
    writesBuf q i r = (r == pushRoute q) := by
  cases i <;> simp_all [writesBuf, wireBytes]

theorem writesWindow_wire {i : Instr} {f : Frame} (hw : wireBytes i = some f) : writesWindow i .feed = true := by
  cases i <;> simp_all [writesWindow, wireBytes]

theorem writesEnc_wire {i : Instr} {f : Frame} (hw : wireBytes i = some f) : writesEnc i .send = true := by
  cases i <;> simp_all [writesEnc, wireBytes]

theorem pushCount_wire_line {i : Instr} {f : Frame} (hw : wireBytes i = some f) : pushCount .rxq i .line = 5 := by
  simp [pushCount, hw]

theorem pushCount_txq (i : Instr) (r : Route) : pushCount .txq i r = 1 := by simp [pushCount]

/-- What writes the window moves the cursor. -/
theorem writesPosition_of_writesWindow {i : Instr} {r : Route} (h : writesWindow i r = true) :
    writesPosition i r = true := by
  cases i <;> first | rfl | exact h

theorem QueueChange.of_eq {q : QSel} {i : Instr} {r : Route} {Q Q' : Queue} (h : Q' = Q) : QueueChange q i r Q Q' := by
  subst h
  exact .same _

/-- A push into queue `p`, seen by queue `q`. -/
theorem QueueChange.of_push {i : Instr} {r : Route} {b B : Block} {p : QSel} {v : Byte} {ok : Bool}
    (h : b.push p v = .ok (ok, B)) (hb : writesBuf p i r = true) (hn : pushCount p i r = 1) (q : QSel) :
    QueueChange q i r (b.queue q) (B.queue q) := by
  obtain ⟨hrx, htx, _⟩ := Block.push_frame h
  have hp : QueueChange p i r (b.queue p) (B.queue p) := .pushed hb (hn ▸ Block.push_pushedUpTo h)
  cases p <;> cases q
  · exact hp
  · exact .of_eq (htx (by decide))
  · exact .of_eq (hrx (by decide))
  · exact hp

/-- A pop of queue `p`, seen by queue `q`. -/
theorem QueueChange.of_pop {i : Instr} {r : Route} {b B : Block} {p : QSel} {v : Option Byte}
    (h : b.pop p = .ok (v, B)) (hs : writesStart p i = true) (q : QSel) :
    QueueChange q i r (b.queue q) (B.queue q) := by
  rcases Block.pop_cases h with ⟨_, _, rfl⟩ | ⟨_, _, _, rfl⟩
  · exact .same _
  · cases p <;> cases q
    · exact .popped _ hs
    · exact .same _
    · exact .same _
    · exact .popped _ hs

/-- A push into `TXQ` alone, by a `TRY_SEND` or by an attempt of an `ENCODE`. -/
theorem QueueChange.of_enqueue {i : Instr} {r : Route} {b B : Block} (hrx : B.rxq = b.rxq)
    (htx : PushedUpTo 1 b.txq B.txq) (hb : writesBuf .txq i r = true) (q : QSel) :
    QueueChange q i r (b.queue q) (B.queue q) := by
  cases q
  · exact .of_eq hrx
  · exact .pushed hb ((pushCount_txq i r).symm ▸ htx)

/-- What an instruction does to either queue, the table lets it do (R45). -/
theorem Effect.queue_change {i : Instr} {s : State} {B : Block} (h : Effect i s B) (q : QSel) :
    QueueChange q i s.route (s.blk.queue q) (B.queue q) := by
  cases h with
  | none | frInit => cases q <;> exact .same _
  | @qInit p =>
    cases p <;> cases q
    · exact .init _ rfl rfl
    · exact .same _
    · exact .same _
    · exact .init _ rfl rfl
  | tpInit => cases q <;> exact .init _ rfl rfl
  | qPush h => exact .of_push h (by simp [writesBuf]) (by simp [pushCount, wireBytes]) q
  | rxEvent h => exact .of_push h rfl rfl q
  | qPop h => exact .of_pop h (by simp [writesStart]) q
  | txSome _ _ h => exact .of_pop h rfl q
  | txNone _ _ h =>
    rcases Block.pop_cases h with ⟨_, _, rfl⟩ | ⟨_, _, hv, _⟩
    · cases q <;> exact .same _
    · cases hv
  | tryRecv h => exact .of_pop h rfl q
  | pollNone h => exact .of_pop h rfl q
  | @poll _ v B' h =>
    have hq : (B'.feed v).2.queue q = B'.queue q := by
      obtain ⟨hrx, htx, _⟩ := Block.feed_frame B' v
      cases q
      · exact hrx
      · exact htx
    rw [hq]
    exact .of_pop h rfl q
  | trySend h => exact .of_enqueue (Block.trySend_frame h).1 (Block.trySend_pushedUpTo h) rfl q
  | feed =>
    obtain ⟨hrx, htx, _⟩ := Block.feed_frame s.blk _
    cases q
    · exact .of_eq hrx
    · exact .of_eq htx
  | encode h => exact .of_enqueue (Block.encodeAttempt_frame h).1 (Block.encodeAttempt_pushedUpTo h) rfl q
  | line hw hr h =>
    cases q
    · refine .pushed (by simp [writesBuf_wire hw, hr, pushRoute]) ?_
      rw [hr, pushCount_wire_line hw]
      exact eachByte_rxEventStep_pushedUpTo h
    · exact .of_eq (eachByte_rxEventStep_frame h).1
  | wfeed hw hr h =>
    obtain ⟨hrx, htx, _⟩ := eachByte_feedStep_frame h
    cases q
    · exact .of_eq hrx
    · exact .of_eq htx
  | send hw hr h =>
    exact .of_enqueue (Block.encodeAttempt_frame h).1 (Block.encodeAttempt_pushedUpTo h)
      (by simp [writesBuf_wire hw, hr, pushRoute]) q

/-- The framer's and the encoder's registers change only where the table has it (R45). -/
theorem Effect.registers {i : Instr} {s : State} {B : Block} (h : Effect i s B) :
    (writesWindow i s.route = false → B.f = s.blk.f ∧ B.pkt = s.blk.pkt) ∧
    (writesPosition i s.route = false → B.position = s.blk.position) ∧
    (writesEnc i s.route = false → B.encBusy = s.blk.encBusy ∧ B.encIdx = s.blk.encIdx ∧ B.encB = s.blk.encB) := by
  cases h with
  | none | tpInit => exact ⟨fun _ => ⟨rfl, rfl⟩, fun _ => rfl, fun _ => ⟨rfl, rfl, rfl⟩⟩
  | @qInit q => cases q <;> exact ⟨fun _ => ⟨rfl, rfl⟩, fun _ => rfl, fun _ => ⟨rfl, rfl, rfl⟩⟩
  | frInit => exact ⟨fun _ => ⟨rfl, rfl⟩, fun h => (by cases h), fun _ => ⟨rfl, rfl, rfl⟩⟩
  | qPush h | rxEvent h =>
    obtain ⟨_, _, _, hf, hpkt, hpos, henc⟩ := Block.push_frame h
    exact ⟨fun _ => ⟨hf, hpkt⟩, fun _ => hpos, fun _ => henc⟩
  | qPop h | txSome _ _ h | txNone _ _ h | tryRecv h | pollNone h =>
    obtain ⟨_, _, _, hf, hpkt, hpos, henc⟩ := Block.pop_frame h
    exact ⟨fun _ => ⟨hf, hpkt⟩, fun _ => hpos, fun _ => henc⟩
  | trySend h =>
    obtain ⟨_, hf, hpkt, hpos, henc⟩ := Block.trySend_frame h
    exact ⟨fun _ => ⟨hf, hpkt⟩, fun _ => hpos, fun _ => henc⟩
  | feed =>
    obtain ⟨_, _, _, henc⟩ := Block.feed_frame s.blk _
    exact ⟨fun h => (by cases h), fun h => (by cases h), fun _ => henc⟩
  | @poll _ v B' h =>
    obtain ⟨_, _, _, _, _, _, hb, hx, he⟩ := Block.pop_frame h
    obtain ⟨_, _, _, hb', hx', he'⟩ := Block.feed_frame B' v
    exact ⟨fun h => (by cases h), fun h => (by cases h), fun _ => ⟨hb'.trans hb, hx'.trans hx, he'.trans he⟩⟩
  | encode h =>
    obtain ⟨_, hf, hpkt, hpos, _⟩ := Block.encodeAttempt_frame h
    exact ⟨fun _ => ⟨hf, hpkt⟩, fun _ => hpos, fun h => (by cases h)⟩
  | line hw hr h =>
    obtain ⟨_, _, hf, hpkt, hpos, henc⟩ := eachByte_rxEventStep_frame h
    exact ⟨fun _ => ⟨hf, hpkt⟩, fun _ => hpos, fun _ => henc⟩
  | wfeed hw hr h =>
    obtain ⟨_, _, _, henc⟩ := eachByte_feedStep_frame h
    have hwin : writesWindow i s.route = true := hr ▸ writesWindow_wire hw
    exact ⟨fun h => absurd hwin (by simp [h]), fun h => absurd (writesPosition_of_writesWindow hwin) (by simp [h]),
      fun _ => henc⟩
  | send hw hr h =>
    obtain ⟨_, hf, hpkt, hpos, _⟩ := Block.encodeAttempt_frame h
    have henc : writesEnc i s.route = true := hr ▸ writesEnc_wire hw
    exact ⟨fun _ => ⟨hf, hpkt⟩, fun _ => hpos, fun h => absurd henc (by simp [h])⟩

/-- What one of a queue's changes leaves, read off the columns of the table (R45). -/
theorem QueueChange.leaves {q : QSel} {i : Instr} {r : Route} {Q Q' : Queue} (h : QueueChange q i r Q Q') :
    Q'.cap = Q.cap ∧ (writesBuf q i r = false → Q'.buf = Q.buf) ∧
    (writesStart q i = false → Q'.startIdx = Q.startIdx) ∧ (writesEnd q i r = false → Q'.endIdx = Q.endIdx) ∧
    ∀ k, (∀ j, j < pushCount q i r → k ≠ (Q.endIdx + j) % Q.cap) → storageRead Q'.buf k = storageRead Q.buf k := by
  cases h with
  | same => exact ⟨rfl, fun _ => rfl, fun _ => rfl, fun _ => rfl, fun _ _ => rfl⟩
  | init hs he =>
    exact ⟨rfl, fun _ => rfl, fun h => absurd hs (by simp [h]), fun h => absurd he (by simp [h]), fun _ _ => rfl⟩
  | popped hs => exact ⟨rfl, fun _ => rfl, fun h => absurd hs (by simp [h]), fun _ => rfl, fun _ _ => rfl⟩
  | pushed hb h =>
    obtain ⟨m, hm, hcap, hstart, _, _, _, hread⟩ := h
    exact ⟨hcap, fun h => absurd hb (by simp [h]), fun _ => hstart,
      fun h => absurd (writesEnd_of_writesBuf hb) (by simp [h]),
      fun k hk => hread k fun j hj => hk j (Nat.lt_of_lt_of_le hj hm)⟩

/-- A queue of which no part is written is as before. -/
theorem QueueChange.eq_of_unwritten {q : QSel} {i : Instr} {r : Route} {Q Q' : Queue} (h : QueueChange q i r Q Q')
    (hn : ¬ (writesStart q i = true ∨ writesEnd q i r = true)) : Q' = Q := by
  cases h with
  | same => rfl
  | init hs _ => exact absurd (.inl hs) hn
  | popped hs => exact absurd (.inl hs) hn
  | pushed hb _ => exact absurd (.inr (writesEnd_of_writesBuf hb)) hn

/-! ### The notification (R28) -/

/-- A change of the block that arms the notification only where `arm` holds and with one byte more in `TXQ`, and disarms
it only where `disarm` holds. -/
def NotificationStep (arm disarm : Prop) (b B : Block) : Prop :=
  B.txIrqEn = b.txIrqEn ∨ (disarm ∧ B.txIrqEn = false) ∨
    (arm ∧ B.txIrqEn = true ∧ B.txq.count = b.txq.count + 1)

theorem NotificationStep.same {a d : Prop} {b B : Block} (h : B.txIrqEn = b.txIrqEn) : NotificationStep a d b B :=
  .inl h

theorem NotificationStep.mono {a d a' d' : Prop} {b B : Block} (h : NotificationStep a d b B) (ha : a → a')
    (hd : d → d') : NotificationStep a' d' b B :=
  h.imp_right (.imp (.imp_left hd) (.imp_left ha))

theorem NotificationStep.of_armed {a d : Prop} {b B : Block} (h : NotificationStep a d b B) (h0 : b.txIrqEn = false)
    (h1 : B.txIrqEn = true) : a ∧ B.txq.count = b.txq.count + 1 := by
  rcases h with h | ⟨_, h⟩ | ⟨ha, _, hc⟩
  · simp [h0, h1] at h
  · simp [h1] at h
  · exact ⟨ha, hc⟩

theorem NotificationStep.of_disarmed {a d : Prop} {b B : Block} (h : NotificationStep a d b B) (h1 : b.txIrqEn = true)
    (h0 : B.txIrqEn = false) : d := by
  rcases h with h | ⟨hd, _⟩ | ⟨_, h, _⟩
  · simp [h0, h1] at h
  · exact hd
  · simp [h0] at h

/-- An enqueue arms the notification where it succeeds (R158). -/
theorem Block.trySend_notification {b B : Block} {v : Byte} {ok : Bool} (h : b.trySend v = .ok (ok, B)) :
    NotificationStep True False b B := by
  rcases Block.trySend_cases h with ⟨_, _, rfl⟩ | ⟨_, _, _, rfl⟩
  · exact .same rfl
  · exact .inr (.inr ⟨trivial, rfl, rfl⟩)

/-- An attempt of an `ENCODE` arms the notification where it enqueues (R180). -/
theorem Block.encodeAttempt_notification {b B : Block} {r : Option Bool} (h : b.encodeAttempt = .ok (r, B)) :
    NotificationStep True False b B := by
  rcases Block.encodeAttempt_cases h with ⟨_, _, _, rfl⟩ | ⟨_, _, _, _, rfl⟩ | ⟨_, _, _, _, rfl⟩ | ⟨_, _, rfl⟩
  · exact .same rfl
  · exact .inr (.inr ⟨trivial, rfl, rfl⟩)
  · exact .inr (.inr ⟨trivial, rfl, rfl⟩)
  · exact .same rfl

/-- So does the first attempt of an `ENCODE`: its start leaves `TXQ` and the notification. -/
theorem Block.encodeFirst_notification {b B : Block} {f : Frame} {r : Option Bool}
    (h : (b.encodeStart f).encodeAttempt = .ok (r, B)) : NotificationStep True False b B :=
  have hn : NotificationStep True False (b.encodeStart f) B := Block.encodeAttempt_notification h
  hn

/-- A packet on its way out offers its command byte to `TXQ`. -/
theorem offered_wire_send {i : Instr} {f : Frame} (hw : wireBytes i = some f) : ∃ b, offered i .send = some b := by
  cases i <;> simp_all [offered, wireBytes]

/-- What an instruction does to the notification (R28). -/
theorem Effect.notification {i : Instr} {s : State} {B : Block} (h : Effect i s B) :
    NotificationStep (∃ b, offered i s.route = some b)
      (i = .tpInit ∨ (i = .txEvent ∧ s.port = .dtx ∧ s.blk.txq.count = 0)) s.blk B := by
  cases h with
  | none | frInit => exact .same rfl
  | @qInit q => cases q <;> exact .same rfl
  | tpInit => exact .inr (.inl ⟨.inl rfl, rfl⟩)
  | qPush h | rxEvent h =>
    obtain ⟨_, _, hirq, _⟩ := Block.push_frame h
    exact .same hirq
  | qPop h | txSome _ _ h | tryRecv h | pollNone h =>
    obtain ⟨_, _, hirq, _⟩ := Block.pop_frame h
    exact .same hirq
  | txNone hp _ h =>
    rcases Block.pop_cases h with ⟨hc, _, _⟩ | ⟨_, _, hv, _⟩
    · exact .inr (.inl ⟨.inr ⟨rfl, hp, hc⟩, rfl⟩)
    · cases hv
  | trySend h => exact (Block.trySend_notification h).mono (fun _ => ⟨_, rfl⟩) False.elim
  | feed =>
    obtain ⟨_, _, hirq, _⟩ := Block.feed_frame s.blk _
    exact .same hirq
  | @poll _ v B' h =>
    obtain ⟨_, _, hirq, _⟩ := Block.pop_frame h
    obtain ⟨_, _, hirq', _⟩ := Block.feed_frame B' v
    exact .same (hirq'.trans hirq)
  | encode h => exact (Block.encodeFirst_notification h).mono (fun _ => ⟨_, rfl⟩) False.elim
  | line _ _ h =>
    obtain ⟨_, hirq, _⟩ := eachByte_rxEventStep_frame h
    exact .same hirq
  | wfeed _ _ h =>
    obtain ⟨_, _, hirq, _⟩ := eachByte_feedStep_frame h
    exact .same hirq
  | send hw hr h =>
    exact (Block.encodeFirst_notification h).mono (fun _ => hr ▸ offered_wire_send hw) False.elim

/-- What offers a byte to `TXQ` is in the row of the notification (R45). -/
theorem writesIrq_of_offered {i : Instr} {r : Route} {b : Byte} (h : offered i r = some b) : writesIrq i r = true := by
  cases i <;> simp_all [offered, writesIrq, wireBytes]

/-- `RXQ` is as before unless the table lets the instruction write it (R45). -/
theorem Effect.rxq_eq {i : Instr} {s : State} {B : Block} (h : Effect i s B) (hw : writesRxq i s.route = false) :
    B.rxq = s.blk.rxq :=
  (h.queue_change .rxq).eq_of_unwritten fun hp => by simp [writesRxq_of_part hp] at hw

/-- `TXQ` is as before unless the table lets the instruction write it (R45). -/
theorem Effect.txq_eq {i : Instr} {s : State} {B : Block} (h : Effect i s B) (hw : writesTxq i s.route = false) :
    B.txq = s.blk.txq :=
  (h.queue_change .txq).eq_of_unwritten fun hp => by simp [writesTxq_of_part hp] at hw

/-- `tx_irq_en` is as before unless the table lets the instruction write it (R45). -/
theorem Effect.irq_eq {i : Instr} {s : State} {B : Block} (h : Effect i s B) (hw : writesIrq i s.route = false) :
    B.txIrqEn = s.blk.txIrqEn := by
  rcases h.notification with hirq | ⟨rfl | ⟨rfl, _⟩, _⟩ | ⟨⟨_, ho⟩, _⟩
  · exact hirq
  · cases hw
  · cases hw
  · simp [writesIrq_of_offered ho] at hw

/-- Settles O57: the change of each queue is one its columns allow, the notification moves by `TP_INIT`, `TX_EVENT` and
enqueues alone, and the registers by the instructions of their columns. -/
theorem nothingElseIsWritten : Obligations.NothingElseIsWritten := by
  intro i s t h
  have he := exec_effect h
  obtain ⟨hwindow, hposition, henc⟩ := he.registers
  exact ⟨he.rxq_eq, he.txq_eq, he.irq_eq, hwindow, hposition, henc, fun q => (he.queue_change q).leaves⟩

end Sys2Proof.Machine

namespace Sys2Proof.Machine

/-! ### Responses of one turn (R122) -/

/-- From `s` to `t` the port `p` gave the responses `l`, and no other port gave any. -/
def Responses (p : Port) (l : List Rsp) (s t : State) : Prop :=
  ∀ p', responsesOn p' t.out = responsesOn p' s.out ++ if p' = p then l else []

theorem Responses.none {p : Port} {s t : State} (h : t.out = s.out) : Responses p [] s t := by
  intro p'; simp [h]

theorem Responses.one {p : Port} {r : Rsp} {s t : State} (h : t.out = s.out ++ [.rsp p r]) : Responses p [r] s t := by
  intro p'
  by_cases hp : p' = p
  · simp [h, hp, responsesOn_append, responsesOn]
  · simp [h, hp, Ne.symm hp, responsesOn_append, responsesOn]

/-- A byte handed to the device is no response. -/
theorem Responses.sent_one {p : Port} {v : Byte} {r : Rsp} {s t : State}
    (h : t.out = s.out ++ [.sent v] ++ [.rsp p r]) : Responses p [r] s t := by
  intro p'
  by_cases hp : p' = p
  · simp [h, hp, responsesOn_append, responsesOn]
  · simp [h, hp, Ne.symm hp, responsesOn_append, responsesOn]

/-- A port that no response was on before has those of its own turn. -/
theorem Responses.on_self {p : Port} {l : List Rsp} {s t : State} (h : Responses p l s t)
    (h0 : responsesOn p s.out = []) : responsesOn p t.out = l := by rw [h p, h0, if_pos rfl, List.nil_append]

theorem Responses.on_other {p p' : Port} {l : List Rsp} {s t : State} (h : Responses p l s t) (hp : p' ≠ p) :
    responsesOn p' t.out = responsesOn p' s.out := by rw [h p', if_neg hp, List.append_nil]

/-! ### A request that has run (R124) -/

/-- What a request port decodes is an operation of the table's request rows. -/
theorem format_of_decode_req {w : Word40} {i : Instr} (h : decode .req w = .ok i) : i.format = .req := by
  simp only [decode, decodeReq] at h
  split at h <;> cases h <;> rfl

/-- The response that ends an operation, or the `ENCODE` that is still under way. -/
def Returns (p : Port) (s t : State) : Prop :=
  (∃ r, Responses p [r] s t) ∨ (p = .m ∧ Responses p [] s t ∧ t.blk.encBusy = true)

/-- An attempt of the `ENCODE` under way returns, or leaves it under way (R180). -/
theorem encodeStep_returns {s t : State} (h : encodeStep s = .next t) (hb : s.blk.encBusy = true) :
    Returns .m s t := by
  rcases encodeStep_out h with ⟨ok, ho⟩ | ⟨ho, hbusy⟩
  · exact .inl ⟨_, .one ho⟩
  · exact .inr ⟨rfl, .none ho, hbusy.trans hb⟩

/-- So does the first attempt. -/
theorem encodeFirst_returns {f : Frame} {s t : State} (h : encodeFirst f s = .next t) : Returns .m s t :=
  have hr : Returns .m { s with blk := s.blk.encodeStart f } t := encodeStep_returns h rfl
  hr

/-- An operation that runs stands on a port of its row, and returns on that port. -/
theorem exec_request {i : Instr} {s t : State} (hf : i.format = .req) (h : exec i s = .next t) :
    (reqReady s.port s.blk = false ∧ t = s) ∨ (reqReady s.port s.blk = true ∧ t = s.refuse s.port) ∨
    (reqReady s.port s.blk = true ∧ s.port ∈ tablePorts i ∧ Returns s.port s t) := by
  cases i <;> simp only [Instr.format] at hf <;> first | (cases hf; done) | skip
  all_goals simp only [exec, execNop, execQInit, execQPush, execQPop, execTpInit, execRxEvent, execTxEvent,
    execTryRecv, execTrySend, execFrInit, execFeed, execPoll, execEncode] at h
  all_goals
    rcases serve_cases h with ⟨hr, rfl⟩ | ⟨hr, _, rfl⟩ | ⟨hr, ha, ho⟩
    · exact .inl ⟨hr, rfl⟩
    · exact .inr (.inl ⟨hr, rfl⟩)
    refine .inr (.inr ⟨hr, ?_⟩)
  case nop => cases ho; exact ⟨by cases s.port <;> simp [tablePorts], .inl ⟨_, .one rfl⟩⟩
  case txEvent =>
    have hp : s.port = .dtx := by simp at ha; exact ha.1
    rw [hp]
    refine ⟨by simp [tablePorts], .inl ?_⟩
    split at ho
    · cases ho
    · cases ho; exact ⟨_, .sent_one rfl⟩
    · cases ho; exact ⟨_, .one rfl⟩
  all_goals
    rw [beq_iff_eq.mp ha]
    refine ⟨by simp [tablePorts], ?_⟩
  case qInit | tpInit | frInit => cases ho; exact .inl ⟨_, .one rfl⟩
  case qPush | rxEvent | trySend => obtain ⟨_, ho⟩ := finishPush_out ho; exact .inl ⟨_, .one ho⟩
  case qPop | tryRecv => obtain ⟨_, _, ho⟩ := finishPop_out ho; exact .inl ⟨_, .one ho⟩
  case feed => obtain ⟨_, _, ho⟩ := feedStep_out ho; exact .inl ⟨_, .one ho⟩
  case poll =>
    split at ho
    · cases ho
    · obtain ⟨_, _, ho⟩ := feedStep_out ho; exact .inl ⟨_, .one ho⟩
    · cases ho; exact .inl ⟨_, .one rfl⟩
  case encode => exact encodeFirst_returns ho

/-- A request word served: the port is not ready, or refuses it, or runs an operation of its own. -/
theorem serveRequest_cases {p : Port} {w : Word40} {s t : State} (h : serveRequest p w s = .next t) :
    (reqReady p s.blk = false ∧ t = s.onPort p) ∨ (reqReady p s.blk = true ∧ t = (s.onPort p).refuse p) ∨
    (reqReady p s.blk = true ∧ Returns p s t ∧
      ∃ i, decode .req w = .ok i ∧ p ∈ tablePorts i ∧ Effect i (s.onPort p) t.blk) := by
  unfold serveRequest at h
  split at h
  · next i hd =>
    rcases exec_request (format_of_decode_req hd) h with h0 | h1 | ⟨hr, hp, ho⟩
    · exact .inl h0
    · exact .inr (.inl h1)
    · exact .inr (.inr ⟨hr, ho, i, hd, hp, exec_effect h⟩)
  · rcases serve_cases h with h0 | ⟨hr, _, h1⟩ | ⟨_, ha, _⟩
    · exact .inl h0
    · exact .inr (.inl ⟨hr, h1⟩)
    · cases ha

/-- A request on a ready port returns (R122). -/
theorem serveRequest_returns {p : Port} {w : Word40} {s t : State} (h : serveRequest p w s = .next t)
    (hr : reqReady p s.blk = true) : Returns p s t := by
  rcases serveRequest_cases h with ⟨h0, _⟩ | ⟨_, rfl⟩ | ⟨_, ho, _⟩
  · simp [hr] at h0
  · exact .inl ⟨_, .one rfl⟩
  · exact ho

/-! ### The event ports -/

theorem reqReady_event {p : Port} (hp : p ≠ .m) (b : Block) : reqReady p b = true := by
  cases p <;> first | rfl | exact absurd rfl hp

/-- No operation of an event port writes the encoder (R45, R124). -/
theorem writesEnc_event {p : Port} {i : Instr} (hp : p ≠ .m) (hi : p ∈ tablePorts i) (r : Route) :
    writesEnc i r = false := by
  cases i <;> simp_all [tablePorts, writesEnc, wireBytes]

/-- A request on an event port leaves an `ENCODE` under way as it is. -/
theorem serveRequest_event_encBusy {p : Port} {w : Word40} {s t : State} (hp : p ≠ .m)
    (h : serveRequest p w s = .next t) : t.blk.encBusy = s.blk.encBusy := by
  rcases serveRequest_cases h with ⟨_, rfl⟩ | ⟨_, rfl⟩ | ⟨_, _, i, _, hi, he⟩
  · rfl
  · rfl
  · obtain ⟨_, _, henc⟩ := he.registers
    exact (henc (writesEnc_event hp hi _)).1

/-- An event port's turn at an edge leaves an `ENCODE` under way as it is. -/
theorem servePin_event_encBusy {p : Port} {pin : Option Word40} {s t : State} (hp : p ≠ .m)
    (h : servePin p pin s = .next t) : t.blk.encBusy = s.blk.encBusy := by
  cases pin with
  | none => cases h; rfl
  | some w => exact serveRequest_event_encBusy hp h

/-! ### A rising edge, turn by turn (R43) -/

theorem step_cons {s : State} {x : Stimulus} {rest : List Stimulus} (h : s.inputs = x :: rest) :
    step s = takeTurn x rest s := by simp [step, h]

/-- While an `ENCODE` is under way the turn of `M` is its next attempt (R74). -/
theorem takeTurn_waiting {x : Stimulus} {s : State} (rest : List Stimulus) (h : (x.isMain && s.blk.encBusy) = true) :
    takeTurn x rest s = encodeStep s.quiet := by
  unfold takeTurn
  exact if_pos h

theorem takeTurn_request {p : Port} {w : Word40} {s : State} (rest : List Stimulus)
    (h : ((Stimulus.request p w).isMain && s.blk.encBusy) = false) :
    takeTurn (.request p w) rest s = serveRequest p w (s.take rest) := by rw [takeTurn, h, if_neg Bool.false_ne_true]

theorem takeTurn_packet {r : Route} {w : Word40} {s : State} (rest : List Stimulus)
    (h : ((Stimulus.packet r w).isMain && s.blk.encBusy) = false) :
    takeTurn (.packet r w) rest s = servePacket r w (s.take rest) := by rw [takeTurn, h, if_neg Bool.false_ne_true]

theorem takeTurn_resume (s : State) (rest : List Stimulus) :
    takeTurn .resume rest s = resumeEncode (s.take rest) := rfl

theorem clockEdge_reset {pins : Pins} (h : pins.rst = true) (s : State) : clockEdge pins s = .next (resetEdge s) := by
  simp [clockEdge, h]

/-- An edge without reset is the turns of the three ports. -/
theorem clockEdge_turns {pins : Pins} (hr : pins.rst = false) {s t : State} (h : clockEdge pins s = .next t) :
    ∃ u v, servePin .drx pins.drx s = .next u ∧ servePin .dtx pins.dtx u = .next v ∧ serveMain pins.m v = .next t := by
  rw [clockEdge, hr, if_neg Bool.false_ne_true] at h
  obtain ⟨v, hv, hm⟩ := andThen_eq_next h
  obtain ⟨u, hu, hd⟩ := andThen_eq_next hv
  exact ⟨u, v, hu, hd, hm⟩

/-- A port's turn that presents nothing. -/
theorem servePin_none {p : Port} {s t : State} (h : servePin p none s = .next t) : t = s := by cases h; rfl

/-! ### The pins of an edge (R42) -/

theorem rspPin_of_none {p : Port} {t : State} (h : responsesOn p t.out = []) : rspPin p t = none := by
  simp [rspPin, h]

theorem rspPin_of_one {p : Port} {t : State} {r : Rsp} (h : responsesOn p t.out = [r]) :
    rspPin p t = some (rspWord r) := by simp [rspPin, h]

/-- At an edge an event port answers its request once, and nothing if it presents none. -/
theorem servePin_event_responses {p : Port} {pin : Option Word40} {s t : State} (hp : p ≠ .m)
    (h : servePin p pin s = .next t) : ∃ l, Responses p l s t ∧ (pin = none → l = []) ∧ (pin ≠ none → ∃ r, l = [r]) := by
  cases pin with
  | none => exact ⟨[], .none (by rw [servePin_none h]), fun _ => rfl, fun hn => absurd rfl hn⟩
  | some w =>
    rcases serveRequest_returns h (reqReady_event hp _) with ⟨r, ho⟩ | ⟨hm, _⟩
    · exact ⟨[r], ho, fun hn => (by cases hn), fun _ => ⟨r, rfl⟩⟩
    · exact absurd hm hp

/-- At an edge port `m` is silent if it presents nothing with no `ENCODE` under way; else it returns. -/
theorem serveMain_responses {pin : Option Word40} {s t : State} (h : serveMain pin s = .next t) :
    ∃ l, Responses .m l s t ∧ (pin = none → s.blk.encBusy = false → l = []) ∧
      (pin ≠ none ∨ s.blk.encBusy = true → (∃ r, l = [r]) ∨ (l = [] ∧ t.blk.encBusy = true)) := by
  have returned : Returns .m s t → ∃ l, Responses .m l s t ∧ ((∃ r, l = [r]) ∨ (l = [] ∧ t.blk.encBusy = true)) := by
    rintro (⟨r, ho⟩ | ⟨_, ho, hb⟩)
    · exact ⟨[r], ho, .inl ⟨r, rfl⟩⟩
    · exact ⟨[], ho, .inr ⟨rfl, hb⟩⟩
  unfold serveMain at h
  split at h
  next hb =>
    obtain ⟨l, ho, hl⟩ := returned (encodeStep_returns h hb)
    exact ⟨l, ho, fun _ hn => absurd hb (by simp [hn]), fun _ => hl⟩
  next hb =>
    cases pin with
    | none => exact ⟨[], .none (by rw [servePin_none h]), fun _ _ => rfl, fun hn => by simp [hb] at hn⟩
    | some w =>
      obtain ⟨l, ho, hl⟩ := returned (serveRequest_returns h (by simp [hb]))
      exact ⟨l, ho, fun hn => (by cases hn), fun _ => hl⟩

/-- The bytes of a data word are those it was packed from, the first on top (R112). -/
theorem packData_bytes (c p1 p2 p3 : Byte) :
    (packData c p1 p2 p3).extractLsb' 24 8 = c ∧ (packData c p1 p2 p3).extractLsb' 16 8 = p1 ∧
    (packData c p1 p2 p3).extractLsb' 8 8 = p2 ∧ (packData c p1 p2 p3).extractLsb' 0 8 = p3 := by
  refine ⟨?_, ?_, ?_, ?_⟩ <;> apply byte_ext <;> simp [packData]

/-- Settles O60: each port's turn at an edge gives responses on that port alone, at most one, and none only where nothing
was presented or an `ENCODE` is under way. -/
theorem outputsShowThePacketAndTheResponse : Obligations.OutputsShowThePacketAndTheResponse := by
  refine ⟨fun b => ?_, fun s t pins rest hin h => ?_⟩
  · obtain ⟨hc, h1, h2, h3⟩ := packData_bytes b.pkt.command b.pkt.parameter1 b.pkt.parameter2 b.pkt.parameter3
    exact ⟨hc, h1, h2, h3, rfl, rfl, rfl⟩
  have hedge : clockEdge pins (s.take rest) = .next t := (step_cons hin).symm.trans h
  refine ⟨fun hr p => ?_, fun hr => ?_⟩
  · rw [clockEdge_reset hr] at hedge
    cases hedge
    exact rspPin_of_none rfl
  obtain ⟨u, v, hu, hv, ht⟩ := clockEdge_turns hr hedge
  have hbusy : v.blk.encBusy = s.blk.encBusy := by
    rw [servePin_event_encBusy (by decide) hv, servePin_event_encBusy (by decide) hu, State.take_blk]
  obtain ⟨a, ha, ha0, ha1⟩ := servePin_event_responses (by decide) hu
  obtain ⟨b, hb, hb0, hb1⟩ := servePin_event_responses (by decide) hv
  obtain ⟨c, hc, hc0, hc1⟩ := serveMain_responses ht
  rw [hbusy] at hc0 hc1
  have hdrx : responsesOn .drx t.out = a := by
    rw [hc.on_other (by decide), hb.on_other (by decide), ha.on_self rfl]
  have hdtx : responsesOn .dtx t.out = b := by
    rw [hc.on_other (by decide), hb.on_self (ha.on_other (by decide))]
  have hm : responsesOn .m t.out = c := hc.on_self ((hb.on_other (by decide)).trans (ha.on_other (by decide)))
  refine ⟨fun p hp hq => rspPin_of_none ?_, fun p hp hq => ?_, fun hq => ?_⟩
  · cases p
    · exact hdrx.trans (ha0 hp)
    · exact hdtx.trans (hb0 hp)
    · exact hm.trans (hc0 hp (hq rfl))
  · have answered : ∃ r, responsesOn p t.out = [r] := by
      cases p
      · exact (ha1 hq).imp fun _ => hdrx.trans
      · exact (hb1 hq).imp fun _ => hdtx.trans
      · exact absurd rfl hp
    exact answered.imp fun r hr => ⟨hr, rspPin_of_one hr⟩
  · rcases hc1 hq with ⟨r, rfl⟩ | ⟨rfl, hb⟩
    · exact .inl ⟨r, hm, rspPin_of_one hm⟩
    · exact .inr ⟨hm, rspPin_of_none hm, hb⟩

end Sys2Proof.Machine

namespace Sys2Proof.Machine

/-! ### The notification, step by step (R28) -/

/-- On a request port, what offers a byte to `TXQ` is a `TRY_SEND` or an `ENCODE` on port `m` (R124). -/
theorem enqueues_of_offered {i : Instr} {r : Route} {p : Port} {b : Byte} (ho : offered i r = some b)
    (hp : p ∈ tablePorts i) : p = .m ∧ enqueues i = true := by
  cases i <;> simp_all [offered, tablePorts, enqueues, wireBytes]

theorem wordIs_of_decode {f : Instr → Bool} {w : Word40} {i : Instr} (hd : decode .req w = .ok i) (hf : f i = true) :
    wordIs f w = true := by simp [wordIs, hd, hf]

/-- What a request word does to the notification. -/
theorem serveRequest_notification {p : Port} {w : Word40} {s t : State} (h : serveRequest p w s = .next t) :
    NotificationStep (p = .m ∧ wordIs enqueues w = true)
      ((p = .m ∧ wordIs (· == .tpInit) w = true) ∨
        (p = .dtx ∧ wordIs (· == .txEvent) w = true ∧ s.blk.txq.count = 0)) s.blk t.blk := by
  rcases serveRequest_cases h with ⟨_, rfl⟩ | ⟨_, rfl⟩ | ⟨_, _, i, hd, hp, he⟩
  · exact .same rfl
  · exact .same rfl
  · refine he.notification.mono ?_ ?_
    · rintro ⟨b, ho⟩
      obtain ⟨hm, henq⟩ := enqueues_of_offered ho hp
      exact ⟨hm, wordIs_of_decode hd henq⟩
    · rintro (rfl | ⟨rfl, hdtx, hc⟩)
      · exact .inl ⟨by simpa [tablePorts] using hp, wordIs_of_decode hd rfl⟩
      · exact .inr ⟨hdtx, wordIs_of_decode hd rfl, hc⟩

/-- A request on `drx` leaves `TXQ` and the notification: no operation of that port writes them (R45, R124). -/
theorem serveRequest_drx_transmit {w : Word40} {s t : State} (h : serveRequest .drx w s = .next t) :
    t.blk.txq = s.blk.txq ∧ t.blk.txIrqEn = s.blk.txIrqEn := by
  rcases serveRequest_cases h with ⟨_, rfl⟩ | ⟨_, rfl⟩ | ⟨_, _, i, _, hp, he⟩
  · exact ⟨rfl, rfl⟩
  · exact ⟨rfl, rfl⟩
  · have unwritten : ∀ r, writesTxq i r = false ∧ writesIrq i r = false := by
      intro r
      cases i <;> simp_all [tablePorts, writesTxq, writesIrq, wireBytes]
    obtain ⟨htxq, hirq⟩ := unwritten (s.onPort .drx).route
    exact ⟨he.txq_eq htxq, he.irq_eq hirq⟩

/-- A request on `dtx` while the notification is off is a `NOP` or is refused (R155). -/
theorem serveRequest_dtx_disarmed {w : Word40} {s t : State} (h : serveRequest .dtx w s = .next t)
    (h0 : s.blk.txIrqEn = false) : t.blk = s.blk := by
  rcases serveRequest_cases h with ⟨_, rfl⟩ | ⟨_, rfl⟩ | ⟨_, _, i, _, hp, he⟩
  · rfl
  · rfl
  · generalize t.blk = B at he
    cases he with
    | none => rfl
    | txSome _ h1 _ | txNone _ h1 _ => exact absurd (h0.symm.trans h1) (by decide)
    | line hw | wfeed hw | send hw => cases i <;> simp_all [tablePorts, wireBytes]
    | _ => simp [tablePorts] at hp

/-- A packet, by whatever way, disarms nothing, and arms only on its way out (log entry 14). -/
theorem carryPacket_notification {f : Frame} {s t : State} (h : carryPacket f s = .next t) :
    NotificationStep (s.route = .send) False s.blk t.blk := by
  unfold carryPacket at h
  split at h
  next =>
    obtain ⟨_, hirq, _⟩ := eachByte_rxEventStep_frame h
    exact .same hirq
  next =>
    split at h
    · obtain ⟨_, _, hirq, _⟩ := eachByte_feedStep_frame h
      exact .same hirq
    · cases h; exact .same rfl
  next hr =>
    split at h
    · obtain ⟨_, ha⟩ := encodeStep_blk h
      exact (Block.encodeFirst_notification ha).mono (fun _ => hr) id
    · cases h; exact .same rfl

/-- An attempt of the `ENCODE` under way disarms nothing. -/
theorem encodeStep_notification {s t : State} (h : encodeStep s = .next t) :
    NotificationStep True False s.blk t.blk := by
  obtain ⟨_, ha⟩ := encodeStep_blk h
  exact Block.encodeAttempt_notification ha

/-- At an edge the turn of `drx` leaves `TXQ` and the notification. -/
theorem servePin_drx_transmit {pin : Option Word40} {s t : State} (h : servePin .drx pin s = .next t) :
    t.blk.txq = s.blk.txq ∧ t.blk.txIrqEn = s.blk.txIrqEn := by
  cases pin with
  | none => cases h; exact ⟨rfl, rfl⟩
  | some w => exact serveRequest_drx_transmit h

/-- At an edge the turn of `dtx` disarms by a `TX_EVENT` at an empty `TXQ`, and leaves the block if it finds the notification
off. -/
theorem servePin_dtx_notification {pin : Option Word40} {s t : State} (h : servePin .dtx pin s = .next t) :
    NotificationStep False (pin.any (wordIs (· == .txEvent)) = true ∧ s.blk.txq.count = 0) s.blk t.blk ∧
    (s.blk.txIrqEn = false → t.blk = s.blk) := by
  cases pin with
  | none => cases h; exact ⟨.same rfl, fun _ => rfl⟩
  | some w =>
    refine ⟨(serveRequest_notification h).mono (fun ⟨hp, _⟩ => by cases hp) ?_, serveRequest_dtx_disarmed h⟩
    rintro (⟨hp, _⟩ | ⟨_, hw, hc⟩)
    · cases hp
    · exact ⟨hw, hc⟩

/-- At an edge the turn of `m` arms by an enqueue attempt and disarms by a `TP_INIT`. -/
theorem serveMain_notification {pin : Option Word40} {s t : State} (h : serveMain pin s = .next t) :
    NotificationStep (s.blk.encBusy = true ∨ pin.any (wordIs enqueues) = true)
      (s.blk.encBusy = false ∧ pin.any (wordIs (· == .tpInit)) = true) s.blk t.blk := by
  unfold serveMain at h
  split at h
  next hb => exact (encodeStep_notification h).mono (fun _ => .inl hb) False.elim
  next hb =>
    cases pin with
    | none => cases h; exact .same rfl
    | some w =>
      refine (serveRequest_notification h).mono (fun ⟨_, hw⟩ => .inr hw) ?_
      rintro (⟨_, hw⟩ | ⟨hp, _⟩)
      · exact ⟨by simpa using hb, hw⟩
      · cases hp

/-- One change of the notification after another: the first cannot arm, and does nothing where it finds it off. -/
theorem NotificationStep.trans {a d e : Prop} {b c B : Block} (h : NotificationStep False d b c)
    (hoff : b.txIrqEn = false → c = b) (h' : NotificationStep a e c B) : NotificationStep a (d ∨ e) b B := by
  cases hb : b.txIrqEn with
  | false =>
    rw [hoff hb] at h'
    exact h'.mono id .inr
  | true =>
    cases hB : B.txIrqEn with
    | true => exact .same (hB.trans hb.symm)
    | false =>
      refine .inr (.inl ⟨?_, hB⟩)
      cases hc : c.txIrqEn with
      | true => exact .inr (h'.of_disarmed hc hB)
      | false => exact .inl (h.of_disarmed hb hc)

/-- What a rising edge does to the notification. -/
theorem clockEdge_notification {pins : Pins} {s t : State} (h : clockEdge pins s = .next t) :
    NotificationStep (mayArm s.blk (.edge pins) = true) (mayDisarm s.blk (.edge pins) = true) s.blk t.blk := by
  cases hr : pins.rst with
  | true =>
    rw [clockEdge_reset hr] at h
    cases h
    exact .inr (.inl ⟨by simp [mayDisarm, hr], rfl⟩)
  | false =>
    obtain ⟨u, v, hu, hv, ht⟩ := clockEdge_turns hr h
    obtain ⟨htxq, hirq⟩ := servePin_drx_transmit hu
    obtain ⟨hdtx, hoff⟩ := servePin_dtx_notification hv
    have hbusy : v.blk.encBusy = s.blk.encBusy := by
      rw [servePin_event_encBusy (by decide) hv, servePin_event_encBusy (by decide) hu]
    have hedge := hdtx.trans hoff (serveMain_notification ht)
    simp only [NotificationStep, htxq, hirq, hbusy] at hedge
    refine NotificationStep.mono hedge (fun ha => ?_) (fun hd => ?_)
    · simpa [mayArm, hr] using ha
    · rcases hd with ⟨hw, hc⟩ | ⟨hb, hw⟩
      · simp [mayDisarm, hw, hc]
      · simp [mayDisarm, hw, hb]

/-- A stimulus that waits behind an `ENCODE` under way lets it make an enqueue attempt. -/
theorem mayArm_of_waiting {x : Stimulus} {b : Block} (h : (x.isMain && b.encBusy) = true) : mayArm b x = true := by
  cases x with
  | packet r w => cases r <;> simp_all [mayArm, Stimulus.isMain]
  | _ => simp_all [mayArm, Stimulus.isMain]

/-- What one stimulus does to the notification. -/
theorem takeTurn_notification {x : Stimulus} {rest : List Stimulus} {s t : State} (h : takeTurn x rest s = .next t) :
    NotificationStep (mayArm s.blk x = true) (mayDisarm s.blk x = true) s.blk t.blk := by
  cases hb : x.isMain && s.blk.encBusy with
  | true =>
    rw [takeTurn_waiting rest hb] at h
    exact (encodeStep_notification h).mono (fun _ => mayArm_of_waiting hb) False.elim
  | false =>
    cases x with
    | request p w =>
      rw [takeTurn_request rest hb] at h
      refine (serveRequest_notification h).mono ?_ ?_
      · rintro ⟨rfl, hw⟩
        simp [mayArm, hw]
      · rintro (⟨rfl, hw⟩ | ⟨rfl, hw, hc⟩)
        · simp_all [mayDisarm, Stimulus.isMain]
        · simp_all [mayDisarm]
    | resume =>
      rw [takeTurn_resume, resumeEncode] at h
      split at h
      next hbusy => exact (encodeStep_notification h).mono (fun _ => hbusy) False.elim
      next => cases h; exact .same rfl
    | packet r w =>
      rw [takeTurn_packet rest hb, servePacket_eq] at h
      refine (carryPacket_notification h).mono (fun hr => ?_) False.elim
      have hr : r = .send := hr
      simp [mayArm, hr]
    | edge pins => exact clockEdge_notification (s := s.take rest) h

/-- What a step does to the notification. -/
theorem step_notification {s t : State} (h : step s = .next t) :
    NotificationStep (∃ x rest, s.inputs = x :: rest ∧ mayArm s.blk x = true)
      (∃ x rest, s.inputs = x :: rest ∧ mayDisarm s.blk x = true) s.blk t.blk := by
  cases hin : s.inputs with
  | nil =>
    simp only [step, hin] at h
    cases h
    exact .same rfl
  | cons x rest =>
    rw [step_cons hin] at h
    exact (takeTurn_notification h).mono (fun ha => ⟨x, rest, rfl, ha⟩) (fun hd => ⟨x, rest, rfl, hd⟩)

/-- Settles O58: both claims on instructions are read off `Effect.notification`, both on steps off `step_notification`. -/
theorem notificationSetAndCleared : Obligations.NotificationSetAndCleared :=
  ⟨fun _ _ _ h h0 h1 => (exec_effect h).notification.of_armed h0 h1,
    fun _ _ _ h h1 h0 => (exec_effect h).notification.of_disarmed h1 h0,
    fun _ _ h h0 h1 => (step_notification h).of_armed h0 h1,
    fun _ _ h h1 h0 => (step_notification h).of_disarmed h1 h0⟩

end Sys2Proof.Machine

namespace Sys2Proof.Machine

/-! ### Inputs and outputs pass through (R20, R122)

No meaning reads the inputs or the outputs of the state: it appends to the outputs and leaves the inputs. -/

/-- The same state with other inputs, behind outputs that were given before. -/
def State.behind (s : State) (inputs : List Stimulus) (before : List Output) : State :=
  { s with inputs := inputs, out := before ++ s.out }

@[simp] theorem State.behind_blk (s : State) (I : List Stimulus) (O : List Output) : (s.behind I O).blk = s.blk := rfl
@[simp] theorem State.behind_port (s : State) (I : List Stimulus) (O : List Output) : (s.behind I O).port = s.port := rfl
@[simp] theorem State.behind_route (s : State) (I : List Stimulus) (O : List Output) :
    (s.behind I O).route = s.route := rfl
@[simp] theorem State.behind_inputs (s : State) (I : List Stimulus) (O : List Output) : (s.behind I O).inputs = I := rfl

theorem State.behind_self (s : State) : s.behind s.inputs [] = s := rfl

theorem State.behind_respond (s : State) (I : List Stimulus) (O : List Output) (p : Port) (ok : Bool) (d : DataWord) :
    (s.behind I O).respond p ok d = (s.respond p ok d).behind I O := by
  simp [State.behind, State.respond, List.append_assoc]

theorem State.behind_refuse (s : State) (I : List Stimulus) (O : List Output) (p : Port) :
    (s.behind I O).refuse p = (s.refuse p).behind I O := by
  simp [State.behind, State.refuse, List.append_assoc]

theorem State.behind_respondAny (s : State) (I : List Stimulus) (O : List Output) (p : Port) :
    (s.behind I O).respondAny p = (s.respondAny p).behind I O := by
  simp [State.behind, State.respondAny, State.respond, List.append_assoc]

theorem State.behind_emitSent (s : State) (I : List Stimulus) (O : List Output) (v : Byte) :
    (s.behind I O).emitSent v = (s.emitSent v).behind I O := by
  simp [State.behind, State.emitSent, List.append_assoc]

theorem State.behind_emitSent_respond (s : State) (I : List Stimulus) (O : List Output) (v : Byte) (p : Port) (ok : Bool)
    (d : DataWord) : ((s.behind I O).emitSent v).respond p ok d = ((s.emitSent v).respond p ok d).behind I O := by
  rw [State.behind_emitSent, State.behind_respond]

/-- A transition that does the same whatever the inputs and the outputs given before are. -/
def Transparent (k : State → Host.Outcome State Fault Refusal) : Prop :=
  ∀ s I O, k (s.behind I O) = andThen (k s) fun t => .next (t.behind I O)

theorem andThen_assoc (o : Host.Outcome State Fault Refusal) (j k : State → Host.Outcome State Fault Refusal) :
    andThen (andThen o j) k = andThen o fun s => andThen (j s) k := by cases o <;> rfl

/-- Two continuations that agree on what the first step answers. -/
theorem andThen_congr {o : Host.Outcome State Fault Refusal} {j k : State → Host.Outcome State Fault Refusal}
    (h : ∀ t, o = .next t → j t = k t) : andThen o j = andThen o k := by
  cases o with
  | next t => exact h t rfl
  | fault e => rfl
  | refused r => rfl

theorem andThen_next_right (o : Host.Outcome State Fault Refusal) : andThen o .next = o := by cases o <;> rfl

/-- A transparent transition leaves the inputs. -/
theorem Transparent.inputs_eq {k : State → Host.Outcome State Fault Refusal} (hk : Transparent k) {s t : State}
    (h : k s = .next t) : t.inputs = s.inputs := by
  have hs := hk s s.inputs []
  rw [State.behind_self, h, andThen_next] at hs
  have ht := Host.Outcome.next.inj hs
  exact (congrArg State.inputs ht).trans (t.behind_inputs s.inputs [])

theorem Transparent.pure {f : State → State} (h : ∀ s I O, f (s.behind I O) = (f s).behind I O) :
    Transparent fun s => .next (f s) := fun s I O => congrArg _ (h s I O)

theorem Transparent.andThen {j k : State → Host.Outcome State Fault Refusal} (hj : Transparent j)
    (hk : Transparent k) : Transparent fun s => Machine.andThen (j s) k := by
  intro s I O
  simp only [hj s I O, andThen_assoc, andThen_next]
  exact andThen_congr fun t _ => hk t I O

theorem Transparent.ite {c : State → Prop} [∀ s, Decidable (c s)] {j k : State → Host.Outcome State Fault Refusal}
    (hc : ∀ s I O, c (s.behind I O) = c s) (hj : Transparent j) (hk : Transparent k) :
    Transparent fun s => if c s then j s else k s := by
  intro s I O
  by_cases h : c s
  · simp only [hc, h, if_true]; exact hj s I O
  · simp only [hc, h, if_false]; exact hk s I O

theorem Transparent.serve {a : State → Bool} {op : State → Host.Outcome State Fault Refusal}
    (ha : ∀ s I O, a (s.behind I O) = a s) (hop : Transparent op) : Transparent fun s => s.serve (a s) op :=
  .ite (fun _ _ _ => rfl)
    (.ite (fun s I O => by rw [ha]) hop (.pure fun s I O => s.behind_refuse I O s.port))
    (.pure fun _ _ _ => rfl)

theorem Transparent.finishPush {u : State → State} {p : Port} {g : State → Except Fault (Bool × Block)}
    (hu : ∀ s I O, u (s.behind I O) = (u s).behind I O) (hg : ∀ s I O, g (s.behind I O) = g s) :
    Transparent fun s => (u s).finishPush p (g s) := by
  intro s I O
  simp only [hu, hg]
  cases g s with
  | error e => rfl
  | ok r => exact congrArg _ (State.behind_respond { u s with blk := r.2 } I O p r.1 0)

theorem Transparent.finishPop {p : Port} {g : State → Except Fault (Option Byte × Block)}
    (hg : ∀ s I O, g (s.behind I O) = g s) : Transparent fun s => s.finishPop p (g s) := by
  intro s I O
  simp only [hg]
  cases g s with
  | error e => rfl
  | ok r =>
    obtain ⟨_ | v, b⟩ := r
    · exact congrArg _ (State.behind_respondAny { s with blk := b } I O p)
    · exact congrArg _ (State.behind_respond { s with blk := b } I O p true (zext32 v))

theorem Transparent.rxEventStep (v : Byte) : Transparent (rxEventStep v) :=
  .finishPush (u := fun s => { s with rxStream := s.rxStream ++ [v] }) (g := fun s => s.blk.push .rxq v)
    (fun _ _ _ => rfl) (fun _ _ _ => rfl)

theorem Transparent.feedStep (v : Byte) : Transparent (feedStep v) := by
  refine .pure fun s I O => ?_
  simp only [State.behind_blk]
  obtain ⟨_ | k, b⟩ := s.blk.feed v
  · exact State.behind_respond { s with blk := b } I O .m false 0
  · exact State.behind_respond { s with blk := b } I O .m true (packetData k)

theorem Transparent.encodeStep : Transparent encodeStep := by
  intro s I O
  simp only [Machine.encodeStep, State.behind_blk]
  cases s.blk.encodeAttempt with
  | error e => rfl
  | ok r =>
    obtain ⟨_ | ok, b⟩ := r
    · rfl
    · exact congrArg _ (State.behind_respond { s with blk := b } I O .m ok 0)

theorem Transparent.encodeFirst (f : Frame) : Transparent (encodeFirst f) :=
  fun s I O => Transparent.encodeStep { s with blk := s.blk.encodeStart f } I O

theorem Transparent.eachByte {k : Byte → State → Host.Outcome State Fault Refusal} (h : ∀ v, Transparent (k v))
    (f : Frame) : Transparent (eachByte k f) :=
  ((((h f.command).andThen (h f.parameter1)).andThen (h f.parameter2)).andThen (h f.parameter3)).andThen
    (h f.checksum)

theorem Transparent.carryPacket (f : Frame) : Transparent (carryPacket f) := by
  intro s I O
  have ready {k : State → Host.Outcome State Fault Refusal} (hk : Transparent k) :
      Transparent fun s => if reqReady .m s.blk then k s else .next s :=
    .ite (fun _ _ _ => rfl) hk (.pure fun _ _ _ => rfl)
  unfold Machine.carryPacket
  cases hr : s.route <;> simp only [State.behind_route, hr]
  · exact Transparent.eachByte Transparent.rxEventStep f s I O
  · exact ready (Transparent.eachByte Transparent.feedStep f) s I O
  · exact ready (Transparent.encodeFirst _) s I O

theorem Transparent.execTxEvent : Transparent execTxEvent := by
  refine .serve (fun _ _ _ => rfl) fun s I O => ?_
  simp only [State.behind_blk]
  rcases s.blk.pop .txq with e | ⟨_ | v, b⟩
  · rfl
  · exact congrArg _ (State.behind_respondAny { s with blk := { b with txIrqEn := false } } I O .dtx)
  · exact congrArg Host.Outcome.next (State.behind_emitSent_respond { s with blk := b } I O v .dtx true (zext32 v))

theorem Transparent.execPoll : Transparent execPoll := by
  refine .serve (fun _ _ _ => rfl) fun s I O => ?_
  simp only [State.behind_blk]
  rcases s.blk.pop .rxq with e | ⟨_ | v, b⟩
  · rfl
  · exact congrArg _ (State.behind_respond { s with blk := b } I O .m false 0)
  · exact Transparent.feedStep v { s with blk := b } I O

/-- Every instruction is transparent. -/
theorem Transparent.exec (i : Instr) : Transparent (exec i) := by
  rcases req_or_wire i with hf | ⟨f, hw⟩
  · have atM {op : State → Host.Outcome State Fault Refusal} (h : Transparent op) :
        Transparent fun s => s.serve (s.port == .m) op := .serve (fun _ _ _ => rfl) h
    have responded (g : State → Block) (hg : ∀ s I O, g (s.behind I O) = g s) :
        Transparent fun s => .next ({ s with blk := g s }.respond .m true 0) :=
      .pure fun s I O => by rw [hg]; exact State.behind_respond { s with blk := g s } I O .m true 0
    cases i with
    | nop => exact .serve (fun _ _ _ => rfl) (.pure fun s I O => s.behind_respond I O s.port true 0)
    | qInit q => exact atM (responded (fun s => s.blk.initQueue q) fun _ _ _ => rfl)
    | qPush q b => exact atM (.finishPush (u := id) (fun _ _ _ => rfl) fun _ _ _ => rfl)
    | qPop q => exact atM (.finishPop fun _ _ _ => rfl)
    | tpInit => exact atM (responded (fun s => s.blk.tpInit) fun _ _ _ => rfl)
    | rxEvent b => exact .serve (fun _ _ _ => rfl) (.rxEventStep b)
    | txEvent => exact .execTxEvent
    | tryRecv => exact atM (.finishPop fun _ _ _ => rfl)
    | trySend b => exact atM (.finishPush (u := id) (fun _ _ _ => rfl) fun _ _ _ => rfl)
    | frInit => exact atM (responded (fun s => { s.blk with position := 0 }) fun _ _ _ => rfl)
    | feed b => exact atM (.feedStep b)
    | poll => exact .execPoll
    | encode c p1 p2 p3 => exact atM (.encodeFirst _)
    | _ => cases hf
  · intro s I O
    rw [exec_wireCommand hw, exec_wireCommand hw]
    exact Transparent.carryPacket f s I O

/-- So is the service of a request. -/
theorem Transparent.serveRequest (p : Port) (w : Word40) : Transparent (serveRequest p w) := by
  intro s I O
  unfold Machine.serveRequest
  cases decode .req w with
  | ok i => exact Transparent.exec i (s.onPort p) I O
  | error e =>
    exact Transparent.serve (a := fun _ => false) (fun _ _ _ => rfl) (.pure fun _ _ _ => rfl) (s.onPort p) I O

theorem Transparent.servePin (p : Port) (pin : Option Word40) : Transparent (servePin p pin) := by
  cases pin with
  | none => exact .pure fun _ _ _ => rfl
  | some w => exact Transparent.serveRequest p w

/-! ### Stimuli one by one, and the turns of an edge (R43, R44) -/

/-- Stimuli taken one by one behind the outputs `acc`, with `rest` to come after them. -/
def performThen (rest : List Stimulus) (xs : List Stimulus) (s : State) (acc : List Output) :
    Host.Outcome State Fault Refusal :=
  andThen (performAll xs s acc) fun t => .next { t with inputs := rest }

theorem performThen_nil {rest : List Stimulus} {s : State} (h : s.inputs = rest) :
    performThen rest [] s s.out = .next s := by
  subst h
  rfl

/-- The inputs and outputs a list of stimuli finds are of no account: each step takes its own and starts without outputs. -/
theorem performThen_with (rest I : List Stimulus) (O : List Output) (xs : List Stimulus) (s : State)
    (acc : List Output) : performThen rest xs { s with inputs := I, out := O } acc = performThen rest xs s acc := by
  cases xs <;> rfl

/-- A stimulus that runs a transparent transition runs it as well behind the outputs before it, with `rest` to come. -/
theorem performThen_cons {rest : List Stimulus} {x : Stimulus} {xs : List Stimulus} {s : State} {acc : List Output}
    {k : State → Host.Outcome State Fault Refusal} (hx : takeTurn x [] { s with inputs := [x] } = k (s.take []))
    (hk : Transparent k) :
    performThen rest (x :: xs) s acc =
      andThen (k { s with inputs := rest, out := acc }) fun t => performThen rest xs t t.out := by
  have hplace : { s with inputs := rest, out := acc } = (s.take []).behind rest acc := by
    simp [State.behind, State.take]
  calc performThen rest (x :: xs) s acc
      = andThen (takeTurn x [] { s with inputs := [x] }) fun t => performThen rest xs t (acc ++ t.out) :=
        andThen_assoc _ _ _
    _ = andThen (k (s.take [])) fun t => performThen rest xs (t.behind rest acc) (t.behind rest acc).out := by
        rw [hx]
        exact andThen_congr fun t _ => (performThen_with rest rest (acc ++ t.out) xs t (acc ++ t.out)).symm
    _ = andThen (k { s with inputs := rest, out := acc }) fun t => performThen rest xs t t.out := by
        rw [hplace, hk, andThen_assoc]
        rfl

/-- The request a port presents at an edge, if any, performed in its turn. -/
theorem performThen_pin {rest : List Stimulus} {p : Port} {pin : Option Word40} {xs : List Stimulus} {s : State}
    {acc : List Output} (hp : p = .m → s.blk.encBusy = false) :
    performThen rest ((pin.map (Stimulus.request p)).toList ++ xs) s acc =
      andThen (servePin p pin { s with inputs := rest, out := acc }) fun t => performThen rest xs t t.out := by
  cases pin with
  | none => exact (performThen_with rest rest acc xs s acc).symm
  | some w =>
    refine performThen_cons (takeTurn_request [] ?_) (Transparent.serveRequest p w)
    cases p with
    | m => simp [hp rfl]
    | _ => rfl

/-- The next attempt of the `ENCODE` under way, performed in its turn. -/
theorem performThen_resume {rest : List Stimulus} {xs : List Stimulus} {s : State} {acc : List Output}
    (hb : s.blk.encBusy = true) :
    performThen rest (.resume :: xs) s acc =
      andThen (encodeStep { s with inputs := rest, out := acc }) fun t => performThen rest xs t t.out :=
  performThen_cons (by rw [takeTurn_resume]; exact if_pos hb) Transparent.encodeStep

/-- What port `m`'s turn is made of at an edge (R44). -/
def mainTurn (busy : Bool) (pin : Option Word40) : List Stimulus :=
  if busy then [.resume] else (pin.map (Stimulus.request .m)).toList

/-- Port `m`'s turn at an edge is the stimuli it is made of. -/
theorem performThen_mainTurn {rest : List Stimulus} {pin : Option Word40} {s : State} (hs : s.inputs = rest) :
    performThen rest (mainTurn s.blk.encBusy pin) s s.out = serveMain pin s := by
  subst hs
  have finish {k : State → Host.Outcome State Fault Refusal} (hk : Transparent k) :
      (andThen (k s) fun t => performThen s.inputs [] t t.out) = k s :=
    (andThen_congr fun t ht => performThen_nil (hk.inputs_eq ht)).trans (andThen_next_right _)
  unfold mainTurn serveMain
  cases hb : s.blk.encBusy with
  | true => exact (performThen_resume hb).trans (finish Transparent.encodeStep)
  | false =>
    have hpin := performThen_pin (rest := s.inputs) (pin := pin) (xs := []) (acc := s.out) fun _ : Port.m = .m => hb
    rw [List.append_nil] at hpin
    exact hpin.trans (finish (Transparent.servePin .m pin))

/-- Settles O56: each turn of an edge is transparent, so it is the stimulus it serves performed behind the turns before it;
the turns of the event ports leave `enc_busy`, which settles what `m`'s turn is. -/
theorem clockEdgeIsAnInterleaving : Obligations.ClockEdgeIsAnInterleaving := by
  intro s drx dtx m rest hin
  have hedge : step s = andThen (servePin .drx drx (s.take rest)) fun u =>
      andThen (servePin .dtx dtx u) (serveMain m) := (step_cons hin).trans (andThen_assoc _ _ _)
  rw [hedge]
  show _ = performThen rest ((drx.map (Stimulus.request .drx)).toList ++ (dtx.map (Stimulus.request .dtx)).toList ++
    mainTurn s.blk.encBusy m) s []
  rw [List.append_assoc, performThen_pin (p := .drx) nofun]
  refine andThen_congr fun u hu => ?_
  have hui : u.inputs = rest := (Transparent.servePin .drx drx).inputs_eq hu
  rw [performThen_pin (p := .dtx) nofun, ← hui]
  refine andThen_congr fun v hv => ?_
  have hvi : v.inputs = u.inputs := (Transparent.servePin .dtx dtx).inputs_eq hv
  have hbusy : v.blk.encBusy = s.blk.encBusy := by
    rw [servePin_event_encBusy (by decide) hv, servePin_event_encBusy (by decide) hu, State.take_blk]
  rw [← hbusy, performThen_mainTurn hvi]

end Sys2Proof.Machine

namespace Sys2Proof.Machine

/-! ### Reserved codes (R125) -/

/-- A word with a reserved code is no instruction. -/
theorem decode_req_reserved {w : Word40} (h : (reqOp w).toNat ∈ [0xD, 0xE, 0xF]) :
    decode .req w = .error (.reservedOperation (reqOp w)) := by
  simp only [List.mem_cons, List.not_mem_nil, or_false] at h
  rcases h with h | h | h <;> simp only [decode, decodeReq, h]

/-- A word that is no instruction is refused on a ready port (R124). -/
theorem serveRequest_error {p : Port} {w : Word40} {s : State} {e : DecodeError} (hd : decode .req w = .error e)
    (hr : reqReady p s.blk = true) : serveRequest p w s = .next ((s.onPort p).refuse p) := by
  simp only [serveRequest, hd]
  exact serve_refused _ hr

/-- A request on a ready port is served in the step that takes it. -/
theorem step_request {p : Port} {w : Word40} {s : State} {rest : List Stimulus} (h : s.inputs = .request p w :: rest)
    (hr : reqReady p s.blk = true) : step s = serveRequest p w (s.take rest) := by
  refine (step_cons h).trans (takeTurn_request rest ?_)
  cases p with
  | m => simpa [Stimulus.isMain] using hr
  | drx | dtx => rfl

/-- Settles O6: the decoder rejects the word, so the step that takes it is the refusal of R124. -/
theorem reservedCodesAreRefused : Obligations.ReservedCodesAreRefused := by
  intro w hw
  have hd : decode .req w = .error (.reservedOperation (reqOp w)) := decode_req_reserved hw
  refine ⟨fun i hi => ?_, fun s p rest hs hr => ?_⟩
  · cases hd.symm.trans hi
  · exact (step_request hs hr).trans (serveRequest_error hd hr)

end Sys2Proof.Machine

namespace Sys2Proof

/-! ### The bits an operation uses (R113) -/

/-- A field that a mask keeps. -/
theorem extractLsb'_masked (lo len : Nat) {m : Word40} (hm : m.extractLsb' lo len = BitVec.allOnes len) (w : Word40) :
    (w &&& m).extractLsb' lo len = w.extractLsb' lo len := by
  rw [BitVec.extractLsb'_and, hm, BitVec.and_allOnes]

/-- A queue select that a mask keeps. -/
theorem reqQ_masked {m : Word40} (hm : m.getLsbD 35 = true) (w : Word40) : reqQ (w &&& m) = reqQ w := by
  simp [reqQ, hm]

/-- Masking a packed request masks its fields; the bits 34:32 between them are zero as they are. -/
theorem packReq_and (op : BitVec 4) (q : BitVec 1) (d : DataWord) (n : Word40) :
    packReq op q d &&& n = packReq (op &&& n.extractLsb' 36 4) (q &&& n.extractLsb' 35 1) (d &&& n.setWidth 32) := by
  apply BitVec.eq_of_getLsbD_eq
  intro i hi
  interval_cases i <;> simp [packReq]

/-- A byte operand lies in `data[7:0]` (R112). -/
theorem byteData_above (b : Byte) : b.setWidth 32 &&& 0xFFFFFF00#32 = 0#32 := by
  apply BitVec.eq_of_getLsbD_eq
  intro i hi
  interval_cases i <;> simp

end Sys2Proof

namespace Sys2Proof.Machine

/-- Every operation uses its code. -/
theorem usedBits_code (op : BitVec 4) : (usedBits op).extractLsb' 36 4 = BitVec.allOnes 4 := by
  revert op; decide

/-- Clearing the bits that a word's operation does not use leaves what the word decodes to. -/
theorem decode_req_used (w : Word40) : decode .req (w &&& usedBits (reqOp w)) = decode .req w := by
  have hop : reqOp (w &&& usedBits (reqOp w)) = reqOp w := extractLsb'_masked 36 4 (usedBits_code _) w
  simp only [decode, decodeReq, hop]
  split
  case h_2 h | h_4 h => simp only [usedBits, h, reqQ_masked (m := 0xF800000000) rfl]
  case h_3 h =>
    simp only [usedBits, h, reqQ_masked (m := 0xF8000000FF) rfl, reqB, extractLsb'_masked 0 8 (m := 0xF8000000FF) rfl]
  case h_6 h | h_9 h | h_11 h => simp only [usedBits, h, reqB, extractLsb'_masked 0 8 (m := 0xF0000000FF) rfl]
  case h_13 h =>
    simp only [usedBits, h, reqC, reqP1, reqP2, reqP3,
      extractLsb'_masked 24 8 (m := 0xF0FFFFFFFF) rfl, extractLsb'_masked 16 8 (m := 0xF0FFFFFFFF) rfl,
      extractLsb'_masked 8 8 (m := 0xF0FFFFFFFF) rfl, extractLsb'_masked 0 8 (m := 0xF0FFFFFFFF) rfl]
  all_goals rfl

/-- The canonical word of an operation has the bits its code does not use at zero. -/
theorem encode_unused {i : Instr} (hf : i.format = .req) : encode i &&& ~~~ usedBits (reqOp (encode i)) = 0 := by
  cases i <;> cases hf <;> simp only [encode, reqOp_packReq, packReq_and]
  case qInit q | qPop q => cases q <;> rfl
  case qPush q b => cases q <;> exact congrArg (packReq 0 0) (byteData_above b)
  case rxEvent b | trySend b | feed b => exact congrArg (packReq 0 0) (byteData_above b)
  case encode c p1 p2 p3 => exact congrArg (packReq 0 0) BitVec.and_zero
  all_goals rfl

/-- Settles O5: a word and its used part decode alike, so words with the same used part do; and masking a canonical word
masks its fields, each of which lies in the bits its code uses. -/
theorem unusedRequestBitsAreIgnored : Obligations.UnusedRequestBitsAreIgnored := by
  refine ⟨fun w w' hop hw => ?_, fun i hf => encode_unused hf⟩
  calc decode .req w = decode .req (w &&& usedBits (reqOp w)) := (decode_req_used w).symm
    _ = decode .req (w' &&& usedBits (reqOp w')) := by rw [reqOp, hw, hop, reqOp]
    _ = decode .req w' := decode_req_used w'

/-! ### Well-formed wire commands -/

/-- A wire command is well formed exactly when its five bytes are a packet (R92). -/
theorem wellFormed_wire {i : Instr} {r : Frame} (h : wireBytes i = some r) : i.wellFormed = r.valid := by
  cases i <;> cases h
  all_goals rename_i ack _ _ _ _; cases ack <;> rfl

/-! ### Feeds -/

/-- The state after a `FEED v` (R172), its response among the outputs. -/
def State.fed (s : State) (v : Byte) : State := s.finishFeed .m (s.blk.feed v)

theorem feedStep_eq (v : Byte) (s : State) : feedStep v s = .next (s.fed v) := rfl

theorem State.fed_blk (s : State) (v : Byte) : (s.fed v).blk = (s.blk.feed v).2 := finishFeed_blk _ _ _

@[simp] theorem State.fed_encBusy (s : State) (v : Byte) : (s.fed v).blk.encBusy = s.blk.encBusy := by
  obtain ⟨_, _, _, hbusy, _⟩ := s.blk.feed_frame v
  rw [s.fed_blk, hbusy]

@[simp] theorem State.fed_inputs (s : State) (v : Byte) : (s.fed v).inputs = s.inputs :=
  (Transparent.feedStep v).inputs_eq (feedStep_eq v s)

/-- A feed reads neither the port nor the way, and leaves both (R172). -/
theorem State.fed_onPort (s : State) (p : Port) (v : Byte) : (s.onPort p).fed v = (s.fed v).onPort p := by
  simp only [State.fed, State.onPort_blk]
  obtain ⟨_ | k, b⟩ := s.blk.feed v <;> rfl

theorem State.fed_onRoute (s : State) (r : Route) (v : Byte) : (s.onRoute r).fed v = (s.fed v).onRoute r := by
  simp only [State.fed, State.onRoute_blk]
  obtain ⟨_ | k, b⟩ := s.blk.feed v <;> rfl

/-- Feeds in a row do not stop. -/
theorem foldl_feedStep (bs : List Byte) (s : State) :
    bs.foldl (fun o v => andThen o (feedStep v)) (.next s) = .next (bs.foldl State.fed s) := by
  induction bs generalizing s with
  | nil => rfl
  | cons v bs ih => exact ih (s.fed v)

/-- A packet into the framer is its five bytes fed in wire order (R64, R100). -/
theorem carryPacket_feed {s : State} (hr : s.route = .feed) (hb : s.blk.encBusy = false) (f : Frame) :
    carryPacket f s = .next ((frameBytes f).foldl State.fed s) := by
  simp only [carryPacket, hr, reqReady_m, hb, Bool.not_false, if_true]
  exact foldl_feedStep (frameBytes f) s

/-- A request `FEED b` on `m` with no `ENCODE` under way. -/
theorem serveRequest_feed {s : State} (hb : s.blk.encBusy = false) (b : Byte) :
    serveRequest .m (encode (.feed b)) s = .next ((s.onPort .m).fed b) := by
  have hd : decode .req (encode (.feed b)) = .ok (.feed b) := by simp [decode, decodeReq, encode]
  have hm : MainReady (s.onPort .m) := ⟨rfl, hb⟩
  simp only [serveRequest, hd]
  exact exec_feed_main hm b

/-- The requests `FEED b` on `m` for the bytes of a list, in order. -/
def feedRequests (bs : List Byte) : List Stimulus := bs.map fun b => .request .m (encode (.feed b))

/-- `FEED` requests taken one by one with no `ENCODE` under way feed their bytes in order, wherever the port and the
way are put afterwards. -/
theorem performThen_feeds (p : Port) (r : Route) (bs : List Byte) {s : State} (hb : s.blk.encBusy = false) :
    (andThen (performThen s.inputs (feedRequests bs) s s.out) fun t => .next ((t.onPort p).onRoute r)) =
      .next (bs.foldl State.fed ((s.onPort p).onRoute r)) := by
  induction bs generalizing s with
  | nil => rfl
  | cons b bs ih =>
    have hturn := takeTurn_request (p := .m) (w := encode (.feed b))
      (s := { s with inputs := [.request .m (encode (.feed b))] }) [] (by simp [hb])
    have hfirst : performThen s.inputs (feedRequests (b :: bs)) s s.out =
        performThen s.inputs (feedRequests bs) ((s.onPort .m).fed b) ((s.onPort .m).fed b).out := by
      rw [feedRequests, List.map_cons, performThen_cons hturn (Transparent.serveRequest _ _)]
      exact congrArg (andThen · _) (serveRequest_feed hb b)
    have hrest := ih (s := (s.onPort .m).fed b) ((State.fed_encBusy _ b).trans hb)
    rw [State.fed_inputs, State.onPort_inputs, ← hfirst] at hrest
    rw [hrest, List.foldl_cons, State.fed_onRoute, State.fed_onPort, State.fed_onPort]
    rfl

/-! ### A packet from position 0 (R172) -/

theorem State.fed_below {s : State} (v : Byte) (h : s.blk.position.toNat < 4) :
    s.fed v = { s with
      blk := { s.blk with f := frameSet s.blk.f s.blk.position.toNat v, position := s.blk.position + 1 },
      out := s.out ++ [.rsp .m (done false 0)] } := by
  rw [State.fed, Block.feed_below _ _ h]
  rfl

theorem State.fed_match {s : State} {v : Byte} (h : 4 ≤ s.blk.position.toNat)
    (hx : xor4 s.blk.f.command s.blk.f.parameter1 s.blk.f.parameter2 s.blk.f.parameter3 = v) :
    s.fed v = { s with
      blk := { s.blk with f := { s.blk.f with checksum := v }, pkt := framePacket s.blk.f, position := 0 },
      out := s.out ++ [.rsp .m (done true (packetData (framePacket s.blk.f)))] } := by
  rw [State.fed, Block.feed_match _ _ h hx]
  rfl

theorem State.fed_mismatch {s : State} {v : Byte} (h : 4 ≤ s.blk.position.toNat)
    (hx : xor4 s.blk.f.command s.blk.f.parameter1 s.blk.f.parameter2 s.blk.f.parameter3 ≠ v) :
    s.fed v = { s with
      blk := { s.blk with f := shiftWindow s.blk.f v }, out := s.out ++ [.rsp .m (done false 0)] } := by
  rw [State.fed, Block.feed_mismatch _ _ h hx]
  rfl

/-- The state after the first four bytes of a frame are fed from position 0: four answers "not yet complete", the fifth
place of the window as it was. -/
def State.fourFed (s : State) (f : Frame) : State :=
  { s with
    blk := { s.blk with f := { f with checksum := s.blk.f.checksum }, position := 4 },
    out := s.out ++ List.replicate 4 (.rsp .m (done false 0)) }

theorem State.fed_four {s : State} (hp : s.blk.position = 0) (f : Frame) :
    (((s.fed f.command).fed f.parameter1).fed f.parameter2).fed f.parameter3 = s.fourFed f := by
  simp [State.fed_below, hp, frameSet, State.fourFed]

/-- The right checksum byte completes the packet, which is delivered. -/
theorem State.fourFed_fed_valid {s : State} {f : Frame} (hp : s.blk.position = 0) (h : f.valid = true) :
    (s.fourFed f).fed f.checksum = { s with
      blk := { s.blk with f := f, pkt := framePacket f },
      out := s.out ++ List.replicate 4 (.rsp .m (done false 0)) ++
        [.rsp .m (done true (packetData (framePacket f)))] } := by
  have hx : xor4 f.command f.parameter1 f.parameter2 f.parameter3 = f.checksum := beq_iff_eq.mp h
  rw [State.fed_match (s := s.fourFed f) (Nat.le_refl 4) hx, ← hp]
  rfl

/-- A wrong checksum byte shifts the window by one (R175). -/
theorem State.fourFed_fed_invalid (s : State) {f : Frame} (h : f.valid = false) :
    (s.fourFed f).fed f.checksum = { s with
      blk := { s.blk with f := shiftWindow f f.checksum, position := 4 },
      out := s.out ++ List.replicate 5 (.rsp .m (done false 0)) } := by
  have hx : xor4 f.command f.parameter1 f.parameter2 f.parameter3 ≠ f.checksum := beq_eq_false_iff_ne.mp h
  rw [State.fed_mismatch (s := s.fourFed f) (Nat.le_refl 4) hx]
  simp [State.fourFed, shiftWindow]

/-- A wire command into the framer from position 0: four feeds fill the window, the fifth brings the checksum byte. -/
theorem exec_wire_feed {i : Instr} {f : Frame} {s : State} (hw : wireBytes i = some f) (hr : s.route = .feed)
    (hb : s.blk.encBusy = false) (hp : s.blk.position = 0) :
    exec i s = .next ((s.fourFed f).fed f.checksum) := by
  rw [exec_wireCommand hw, carryPacket_feed hr hb]
  simp only [frameBytes, List.foldl_cons, List.foldl_nil, State.fed_four hp]

/-- Settles O47: both a packet at the framer and the requests are its five bytes fed in wire order; from position 0 four
feeds fill the window, and the fifth is a match exactly when the packet is valid. -/
theorem wireCommandIsDeliveredByTheFramer : Obligations.WireCommandIsDeliveredByTheFramer := by
  refine ⟨fun s w rest hs hb => ?_, fun i r s hw hr hb hp => ⟨fun hwf => ?_, fun hwf => ?_⟩⟩
  · have hfeed := performThen_feeds s.port .feed (frameBytes (pktFrame w)) (s := s.take rest) hb
    calc step s = servePacket .feed w (s.take rest) :=
          (step_cons hs).trans (takeTurn_packet rest (by simp [hb]))
      _ = .next ((frameBytes (pktFrame w)).foldl State.fed ((s.take rest).onRoute .feed)) :=
          (servePacket_eq .feed w _).trans (carryPacket_feed (s := (s.take rest).onRoute .feed) rfl hb _)
      _ = _ := hfeed.symm.trans (andThen_assoc _ _ _)
  · rw [exec_wire_feed hw hr hb hp, State.fourFed_fed_valid hp ((wellFormed_wire hw).symm.trans hwf)]
    rfl
  · rw [exec_wire_feed hw hr hb hp, State.fourFed_fed_invalid s ((wellFormed_wire hw).symm.trans hwf)]
    rfl

end Sys2Proof.Machine

namespace Sys2Proof.Machine

/-! ### Requests: the codes of the Byte Queue, and the ports (R124) -/

theorem requestCode_qInit : RequestCode 0x1 (fun w => .qInit (wordQueue w)) := by
  intro w hw; simp only [decode, decodeReq, reqOp, hw]; rfl

theorem requestCode_qPush : RequestCode 0x2 (fun w => .qPush (wordQueue w) (wordByte w 0)) := by
  intro w hw; simp only [decode, decodeReq, reqOp, hw]; rfl

theorem requestCode_qPop : RequestCode 0x3 (fun w => .qPop (wordQueue w)) := by
  intro w hw; simp only [decode, decodeReq, reqOp, hw]; rfl

/-- An operation with one port in its row of the table is refused on the others (R124). -/
theorem refusedOffPort {p : Port} {i : Instr} (h : tablePorts i = [p]) : RefusedOffPort p i := by
  intro s hs hr
  have hp : (s.port == p) = false := beq_eq_false_iff_ne.mpr hs
  have refused : ∀ {a} op, a = false → s.serve a op = .next { s with out := s.out ++ [.rsp s.port refusal] } := by
    rintro a op rfl; exact serve_refused op hr
  cases i <;> cases h
  case txEvent => rw [exec, execTxEvent]; exact refused _ (by rw [hp, Bool.false_and])
  all_goals
    simp only [exec, execQInit, execQPush, execQPop, execTpInit, execRxEvent, execTryRecv, execTrySend, execFrInit,
      execFeed, execPoll, execEncode]
    exact refused _ hp

/-! ### The operations of the Byte Queue, branch by branch (R130 to R132) -/

@[simp] theorem Block.setQueue_encBusy (b : Block) (sel : QSel) (q : Queue) : (b.setQueue sel q).encBusy = b.encBusy := by
  cases sel <;> rfl

theorem Block.setQueue_setQueue (b : Block) (sel : QSel) (q r : Queue) :
    (b.setQueue sel q).setQueue sel r = b.setQueue sel r := by
  cases sel <;> rfl

/-- An initialised queue is empty. -/
theorem Queue.empty_init (q : Queue) : q.init.empty = true := rfl

/-- An initialised queue has room: its capacity is at least 1 (R6). -/
theorem Queue.full_init {q : Queue} (h : 0 < q.cap) : q.init.full = false := Queue.full_fresh h

theorem exec_qPush_full {s : State} (h : MainReady s) {q : QSel} (b : Byte)
    (hc : (s.blk.queue q).count = (s.blk.queue q).cap) : exec (.qPush q b) s = .next (s.respond .m false 0) := by
  rw [exec_qPush_main h, Block.push_full _ _ _ hc]; rfl

theorem exec_qPush_room {s : State} (h : MainReady s) {q : QSel} (b : Byte)
    (hc : (s.blk.queue q).count ≠ (s.blk.queue q).cap) (he : (s.blk.queue q).endIdx < (s.blk.queue q).cap) :
    exec (.qPush q b) s =
      .next ({ s with blk := s.blk.setQueue q ((s.blk.queue q).pushed b) }.respond .m true 0) := by
  rw [exec_qPush_main h, Block.push_room _ _ _ hc he]; rfl

theorem exec_qPop_empty {s : State} (h : MainReady s) {q : QSel} (hc : (s.blk.queue q).count = 0) :
    exec (.qPop q) s = .next (s.respondAny .m) := by
  rw [exec_qPop_main h, Block.pop_empty _ _ hc]; rfl

theorem exec_qPop_some {s : State} (h : MainReady s) {q : QSel} (hc : (s.blk.queue q).count ≠ 0)
    (hs : (s.blk.queue q).startIdx < (s.blk.queue q).cap) :
    exec (.qPop q) s = .next ({ s with blk := s.blk.setQueue q (s.blk.queue q).popped }.respond .m true
      (zext32 (slotByte q (s.blk.queue q) (s.blk.queue q).startIdx))) := by
  rw [exec_qPop_main h, Block.pop_some _ _ hc hs]; rfl

/-- Settles O15: where the main flow may issue, `Q_INIT` is the queue's `init`, which has `count` 0. -/
theorem qInitEmptiesTheQueue : Obligations.QInitEmptiesTheQueue := by
  refine ⟨requestCode_qInit, fun q => refusedOffPort rfl, fun q s hm => ⟨_, exec_qInit_main hm q, rfl, ?_⟩⟩
  have hq : (s.blk.initQueue q).queue q = (s.blk.queue q).init := Block.queue_setQueue _ _ _
  rw [State.respond_blk, hq]
  exact ⟨contents_init q _, Queue.empty_init _, Queue.full_init⟩

/-- Settles O16: at `count = N` the push leaves the block; else the queue becomes `Queue.pushed`. -/
theorem qPushStoresOrFails : Obligations.QPushStoresOrFails := by
  refine ⟨requestCode_qPush, fun q b => refusedOffPort rfl, ?_⟩
  rintro q b s Q rfl hm
  refine ⟨exec_qPush_full hm b, fun hi hc => ⟨(s.blk.queue q).pushed b, exec_qPush_room hm b hc hi.end_lt, rfl, rfl, rfl,
    rfl, storageRead_write_same _ _ _, fun k hk => storageRead_write_other _ _ hk, ?_, rfl, Queue.full_iff _⟩⟩
  exact contents_pushed q b hi (Nat.lt_of_le_of_ne hi.count_le hc)

/-- Settles O17: at `count = 0` the pop leaves the block; else the queue becomes `Queue.popped`. -/
theorem qPopReturnsTheOldestOrFails : Obligations.QPopReturnsTheOldestOrFails := by
  refine ⟨requestCode_qPop, fun q => refusedOffPort rfl, ?_⟩
  rintro q s Q rfl hm
  refine ⟨fun hc => ⟨_, exec_qPop_empty hm hc⟩, fun hi hc => ⟨(s.blk.queue q).popped, _,
    exec_qPop_some hm hc hi.start_lt, hi.written_start hc q, rfl, rfl, rfl, rfl, rfl, contents_popped q hi hc, ?_, ?_⟩⟩
  · have := hi.count_le
    rw [Bool.eq_false_iff, ne_eq, Queue.full_iff, Queue.popped_count, Queue.popped_cap]
    omega
  · rw [Queue.empty_iff, Queue.popped_count]
    omega

/-! ### The queue as a bounded list (R135) -/

/-- In state `s`, where the main flow may issue, queue `q` stands for the list `l` of at most `n` bytes. -/
structure Holds (q : QSel) (n : Nat) (l : List Byte) (s : State) : Prop where
  inv : BlockInv s.blk
  main : MainReady s
  cap : (s.blk.queue q).cap = n
  contents_eq : contents q (s.blk.queue q) = l

theorem Holds.of_inv {s : State} (hi : BlockInv s.blk) (hm : MainReady s) (q : QSel) :
    Holds q (s.blk.queue q).cap (contents q (s.blk.queue q)) s := ⟨hi, hm, rfl, rfl⟩

section
variable {q : QSel} {n : Nat} {l : List Byte} {s : State}

theorem Holds.count_eq (h : Holds q n l s) : (s.blk.queue q).count = l.length := by
  rw [← h.contents_eq, contents_length]

theorem Holds.length_le (h : Holds q n l s) : l.length ≤ n := by
  rw [← h.count_eq, ← h.cap]; exact (h.inv.queue q).count_le

/-- The queue replaced by one that stands for `l'`. -/
theorem Holds.setQueue {l' : List Byte} {Q : Queue} (h : Holds q n l s) (hi : QueueInv Q)
    (hc : Q.cap = (s.blk.queue q).cap) (hl : contents q Q = l') (ok : Bool) (d : DataWord) :
    Holds q n l' ({ s with blk := s.blk.setQueue q Q }.respond .m ok d) where
  inv := h.inv.setQueue q hi
  main := ⟨h.main.1, (Block.setQueue_encBusy _ _ _).trans h.main.2⟩
  cap := by rw [State.respond_blk, Block.queue_setQueue, hc, h.cap]
  contents_eq := by rw [State.respond_blk, Block.queue_setQueue, hl]

/-- `Q_INIT` makes the list empty. -/
theorem Holds.qInit (h : Holds q n l s) :
    ∃ t, exec (.qInit q) s = .next t ∧ Holds q n [] t :=
  ⟨_, exec_qInit_main h.main q, h.setQueue (h.inv.queue q).init rfl (contents_init q _) _ _⟩

/-- `Q_PUSH` with room appends. -/
theorem Holds.qPush (h : Holds q n l s) (hl : l.length < n) (b : Byte) :
    ∃ t, exec (.qPush q b) s = .next t ∧ Holds q n (l ++ [b]) t ∧ t.out = s.out ++ [.rsp .m (done true 0)] := by
  have hQ := h.inv.queue q
  have hlt : (s.blk.queue q).count < (s.blk.queue q).cap := by rwa [h.count_eq, h.cap]
  refine ⟨_, exec_qPush_room h.main b hlt.ne hQ.end_lt, h.setQueue (hQ.pushed b hlt.ne) rfl ?_ _ _, rfl⟩
  rw [contents_pushed q b hQ hlt, h.contents_eq]

/-- `Q_PUSH` without room leaves the list. -/
theorem Holds.qPush_full (h : Holds q n l s) (hl : l.length = n) (b : Byte) :
    ∃ t, exec (.qPush q b) s = .next t ∧ Holds q n l t ∧ t.out = s.out ++ [.rsp .m (done false 0)] :=
  ⟨_, exec_qPush_full h.main b (by rw [h.count_eq, h.cap, hl]), ⟨h.inv, h.main, h.cap, h.contents_eq⟩, rfl⟩

/-- `Q_POP` answers the head and leaves the rest. -/
theorem Holds.qPop {v : Byte} (h : Holds q n (v :: l) s) :
    ∃ t, exec (.qPop q) s = .next t ∧ Holds q n l t ∧ t.out = s.out ++ [.rsp .m (done true (v.setWidth 32))] := by
  have hQ := h.inv.queue q
  have hc : (s.blk.queue q).count ≠ 0 := by rw [h.count_eq]; exact Nat.succ_ne_zero _
  obtain ⟨rfl, rfl⟩ := List.cons.inj ((contents_popped q hQ hc).symm.trans h.contents_eq)
  exact ⟨_, exec_qPop_some h.main hc hQ.start_lt, h.setQueue (hQ.popped hc) rfl rfl _ _, rfl⟩

/-- `Q_POP` of the empty list leaves it and answers a free byte (U1). -/
theorem Holds.qPop_nil (h : Holds q n [] s) :
    ∃ t, exec (.qPop q) s = .next t ∧ Holds q n [] t ∧
      ∃ v : Byte, t.out = s.out ++ [.rsp .m (done false (v.setWidth 32))] :=
  ⟨_, exec_qPop_empty h.main h.count_eq, ⟨h.inv, h.main, h.cap, h.contents_eq⟩, _, rfl⟩

end

/-- Settles O18: each operation does to the list that a queue stands for what R135 says of lists. -/
theorem queueIsABoundedFifo : Obligations.QueueIsABoundedFifo := by
  intro q b s hi hm
  have h := Holds.of_inv hi hm q
  refine ⟨contents_length q _, ?_, ?_, ?_⟩
  · obtain ⟨t, ht, hH⟩ := h.qInit
    exact ⟨t, ht, hH.contents_eq⟩
  · rcases h.length_le.lt_or_eq with hl | hl
    · obtain ⟨t, ht, hH, hout⟩ := h.qPush hl b
      exact ⟨t, ht, .inl ⟨hl, hout, hH.contents_eq⟩⟩
    · obtain ⟨t, ht, hH, hout⟩ := h.qPush_full hl b
      exact ⟨t, ht, .inr ⟨hl, hout, hH.contents_eq⟩⟩
  · cases hc : contents q (s.blk.queue q) with
    | nil =>
      obtain ⟨t, ht, hH, hout⟩ := (hc ▸ h).qPop_nil
      exact ⟨t, ht, .inr ⟨rfl, hout, hH.contents_eq⟩⟩
    | cons v rest =>
      obtain ⟨t, ht, hH, hout⟩ := (hc ▸ h).qPop
      exact ⟨t, ht, .inl ⟨v, rest, rfl, hout, hH.contents_eq⟩⟩

/-! ### Pushes in a row, pops in a row (R136) -/

/-- Pushes that find room append their bytes in order. -/
theorem Holds.qPushes {q : QSel} {n : Nat} (bs : List Byte) {l : List Byte} {s : State} (h : Holds q n l s)
    (hl : l.length + bs.length ≤ n) :
    ∃ t, execAll (bs.map fun b => .qPush q b) s = .next t ∧ Holds q n (l ++ bs) t ∧
      t.out = s.out ++ bs.map fun _ => .rsp .m (done true 0) := by
  induction bs generalizing l s with
  | nil => exact ⟨s, rfl, by rwa [List.append_nil], (List.append_nil _).symm⟩
  | cons b bs ih =>
    rw [List.length_cons] at hl
    obtain ⟨u, hu, hH, hout⟩ := h.qPush (by omega) b
    obtain ⟨t, ht, hT, hout'⟩ := ih hH (by rw [List.length_append, List.length_singleton]; omega)
    refine ⟨t, ?_, by rwa [List.append_cons], ?_⟩
    · rw [List.map_cons, execAll, hu, andThen_next, ht]
    · rw [hout', hout, List.append_assoc, List.singleton_append, List.map_cons]

/-- As many pops as the list has bytes answer it in order. -/
theorem Holds.qPops {q : QSel} {n : Nat} (bs : List Byte) {s : State} (h : Holds q n bs s) :
    ∃ t, execAll (bs.map fun _ => .qPop q) s = .next t ∧ Holds q n [] t ∧
      t.out = s.out ++ bs.map fun b => .rsp .m (done true (b.setWidth 32)) := by
  induction bs generalizing s with
  | nil => exact ⟨s, rfl, h, (List.append_nil _).symm⟩
  | cons b bs ih =>
    obtain ⟨u, hu, hH, hout⟩ := h.qPop
    obtain ⟨t, ht, hT, hout'⟩ := ih hH
    refine ⟨t, ?_, hT, ?_⟩
    · rw [List.map_cons, execAll, hu, andThen_next, ht]
    · rw [hout', hout, List.append_assoc, List.singleton_append, List.map_cons]

/-- Settles O19: the pushes turn the empty list into the bytes, the pops answer them, and the last pop finds no byte. -/
theorem pushedBytesComeBackInOrder : Obligations.PushedBytesComeBackInOrder := by
  intro q bs s hi hm hc hlen
  have h0 : Holds q (s.blk.queue q).cap [] s := contents_eq_nil.mpr hc ▸ Holds.of_inv hi hm q
  obtain ⟨u, hu, hU, houtU⟩ := h0.qPushes bs (by rwa [List.length_nil, Nat.zero_add])
  rw [List.nil_append] at hU
  obtain ⟨w, hw, hW, houtW⟩ := hU.qPops
  obtain ⟨t, ht, hT, v, houtT⟩ := hW.qPop_nil
  refine ⟨t, v, ?_, by rw [houtT, houtW, houtU], hT.count_eq⟩
  rw [execAll_append, execAll_append, hu, andThen_next, hw, andThen_next, execAll, ht, andThen_next, execAll]

/-! ### A push and a pop by different agents (R138) -/

/-- While `0 < count < N`, `start` and `end` name different slots. -/
theorem QueueInv.start_ne_end {q : Queue} (hi : QueueInv q) (h0 : q.count ≠ 0) (hn : q.count ≠ q.cap) :
    q.startIdx ≠ q.endIdx := by
  have hle := hi.count_le
  have hne := slot_ne (n := q.cap) (a := q.startIdx) (i := 0) (j := q.count) (by omega) (by omega)
  rwa [Nat.add_zero, Nat.mod_eq_of_lt hi.start_lt, ← hi.end_eq] at hne

/-- A push and a pop write different fields but for `count`. -/
theorem Queue.popped_pushed {q : Queue} (h0 : q.count ≠ 0) (b : Byte) : q.popped.pushed b = (q.pushed b).popped := by
  have hcount : q.count - 1 + 1 = q.count + 1 - 1 := by omega
  simp only [Queue.pushed, Queue.popped, hcount]

/-- On the block, while `0 < count < N`, a push and a pop of one queue meet whichever comes first, and each answers the
same either way. -/
theorem Block.push_pop_meet {b : Block} (q : QSel) (v : Byte) (hi : QueueInv (b.queue q))
    (h0 : (b.queue q).count ≠ 0) (hn : (b.queue q).count ≠ (b.queue q).cap) :
    ∃ (x : Byte) (Bpush Bpop B : Block), b.push q v = .ok (true, Bpush) ∧ Bpush.pop q = .ok (some x, B) ∧
      b.pop q = .ok (some x, Bpop) ∧ Bpop.push q v = .ok (true, B) := by
  have hx : slotByte q ((b.queue q).pushed v) (b.queue q).startIdx = slotByte q (b.queue q) (b.queue q).startIdx :=
    slotByte_pushed_other q _ v (hi.start_ne_end h0 hn)
  have hle := hi.count_le
  refine ⟨_, _, _, b.setQueue q ((b.queue q).pushed v).popped, b.push_room q v hn hi.end_lt, ?_,
    b.pop_some q h0 hi.start_lt, ?_⟩
  · rw [Block.pop_some, Block.queue_setQueue, Block.setQueue_setQueue, Queue.pushed_startIdx, hx]
    · rw [Block.queue_setQueue]; exact Nat.succ_ne_zero _
    · rw [Block.queue_setQueue]; exact hi.start_lt
  · rw [Block.push_room, Block.queue_setQueue, Block.setQueue_setQueue, Queue.popped_pushed h0]
    · rw [Block.queue_setQueue, Queue.popped_count, Queue.popped_cap]; omega
    · rw [Block.queue_setQueue]; exact hi.end_lt

/-- While the notification is armed an enqueue is a push (R158). -/
theorem Block.trySend_armed {b : Block} (h : b.txIrqEn = true) (v : Byte) : b.trySend v = b.push .txq v := by
  unfold Block.trySend
  split
  · next hp => rw [hp]
  · next B hp =>
    obtain ⟨_, _, hirq, _⟩ := Block.push_frame hp
    rw [hp, ← h, ← hirq]
  · next hp => rw [hp]

theorem exec_rxEvent_of_push {s : State} {b : Byte} {ok : Bool} {B : Block} (h : s.port = .drx)
    (hp : s.blk.push .rxq b = .ok (ok, B)) :
    exec (.rxEvent b) s = .next ({ s with rxStream := s.rxStream ++ [b], blk := B }.respond .drx ok 0) := by
  rw [exec_rxEvent_drx h, rxEventStep, hp]; rfl

theorem exec_tryRecv_of_pop {s : State} {x : Byte} {B : Block} (h : MainReady s)
    (hp : s.blk.pop .rxq = .ok (some x, B)) :
    exec .tryRecv s = .next ({ s with blk := B }.respond .m true (zext32 x)) := by
  rw [exec_tryRecv_main h, hp]; rfl

theorem exec_trySend_of_enqueue {s : State} {b : Byte} {ok : Bool} {B : Block} (h : MainReady s)
    (hp : s.blk.trySend b = .ok (ok, B)) : exec (.trySend b) s = .next ({ s with blk := B }.respond .m ok 0) := by
  rw [exec_trySend_main h, hp]; rfl

theorem exec_txEvent_of_pop {s : State} {x : Byte} {B : Block} (h : s.port = .dtx) (he : s.blk.txIrqEn = true)
    (hp : s.blk.pop .txq = .ok (some x, B)) :
    exec .txEvent s = .next (({ s with blk := B }.emitSent x).respond .dtx true (zext32 x)) := by
  rw [exec_txEvent_dtx h he, hp]

theorem andThen_of_next {o : Host.Outcome State Fault Refusal} {k : State → Host.Outcome State Fault Refusal}
    {s t : State} (h : o = .next s) (hk : k s = .next t) : andThen o k = .next t := by
  rw [h, andThen_next, hk]

/-- Settles O20: the blocks meet by `Block.push_pop_meet`; the notification is armed before and after, so `TRY_SEND` is a
push and `TX_EVENT` is accepted in either order. -/
theorem pushAndPopCommute : Obligations.PushAndPopCommute := by
  intro s b hi hbusy
  refine ⟨fun h0 hn => ?_, fun h0 hn hirq => ?_⟩
  · obtain ⟨x, Bpush, Bpop, B, hpush, hpop', hpop, hpush'⟩ := Block.push_pop_meet .rxq b hi.rx h0 hn
    obtain ⟨_, _, _, _, _, _, henc, _⟩ := Block.push_frame hpush
    exact ⟨_, _, x,
      andThen_of_next (exec_rxEvent_of_push rfl hpush) (exec_tryRecv_of_pop ⟨rfl, henc.trans hbusy⟩ hpop'),
      andThen_of_next (exec_tryRecv_of_pop ⟨rfl, hbusy⟩ hpop) (exec_rxEvent_of_push rfl hpush'), rfl,
      List.append_assoc s.out _ _, List.append_assoc s.out _ _⟩
  · obtain ⟨x, Bpush, Bpop, B, hpush, hpop', hpop, hpush'⟩ := Block.push_pop_meet .txq b hi.tx h0 hn
    obtain ⟨_, _, hirqPush, _⟩ := Block.push_frame hpush
    obtain ⟨_, _, hirqPop, _, _, _, hencPop, _⟩ := Block.pop_frame hpop
    have hsend := (Block.trySend_armed hirq b).trans hpush
    have hsend' := (Block.trySend_armed (hirqPop.trans hirq) b).trans hpush'
    exact ⟨_, _, x,
      andThen_of_next (exec_trySend_of_enqueue ⟨rfl, hbusy⟩ hsend)
        (exec_txEvent_of_pop rfl (hirqPush.trans hirq) hpop'),
      andThen_of_next (exec_txEvent_of_pop rfl hirq hpop)
        (exec_trySend_of_enqueue ⟨rfl, hencPop.trans hbusy⟩ hsend'), rfl,
      (List.append_assoc (s.out ++ _) _ _).trans (List.append_assoc s.out _ _),
      (List.append_assoc (s.out ++ _) _ _).trans (List.append_assoc s.out _ _)⟩

end Sys2Proof.Machine

namespace Sys2Proof.Machine

/-! ### Requests: the codes of the transport -/

theorem requestCode_tpInit : RequestCode 0x4 (fun _ => .tpInit) := by
  intro w hw; simp only [decode, decodeReq, reqOp, hw]; rfl

theorem requestCode_rxEvent : RequestCode 0x5 (fun w => .rxEvent (wordByte w 0)) := by
  intro w hw; simp only [decode, decodeReq, reqOp, hw]; rfl

theorem requestCode_txEvent : RequestCode 0x6 (fun _ => .txEvent) := by
  intro w hw; simp only [decode, decodeReq, reqOp, hw]; rfl

theorem requestCode_tryRecv : RequestCode 0x7 (fun _ => .tryRecv) := by
  intro w hw; simp only [decode, decodeReq, reqOp, hw]; rfl

theorem requestCode_trySend : RequestCode 0x8 (fun w => .trySend (wordByte w 0)) := by
  intro w hw; simp only [decode, decodeReq, reqOp, hw]; rfl

/-! ### What a push and a pop leave of a queue, field by field (R131, R132) -/

/-- A push with room stores at the old `end` alone, advances `end` and appends to the contents. -/
theorem QueueInv.pushed_fields {q : Queue} (hi : QueueInv q) (hc : q.count ≠ q.cap) (sel : QSel) (b : Byte) :
    (q.pushed b).cap = q.cap ∧ (q.pushed b).startIdx = q.startIdx ∧ (q.pushed b).endIdx = (q.endIdx + 1) % q.cap ∧
    (q.pushed b).count = q.count + 1 ∧ storageRead (q.pushed b).buf q.endIdx = some b ∧
    (∀ k, k ≠ q.endIdx → storageRead (q.pushed b).buf k = storageRead q.buf k) ∧
    contents sel (q.pushed b) = contents sel q ++ [b] ∧ (q.pushed b).empty = false ∧
    ((q.pushed b).full = true ↔ q.count + 1 = q.cap) :=
  ⟨rfl, rfl, rfl, rfl, storageRead_write_same _ _ _, fun _ hk => storageRead_write_other _ _ hk,
    contents_pushed sel b hi (Nat.lt_of_le_of_ne hi.count_le hc), rfl, Queue.full_iff _⟩

/-- A pop of a byte takes the head of the contents and advances `start`; the storage stays. -/
theorem QueueInv.popped_fields {q : Queue} (hi : QueueInv q) (hc : q.count ≠ 0) (sel : QSel) :
    q.popped.cap = q.cap ∧ q.popped.startIdx = (q.startIdx + 1) % q.cap ∧ q.popped.endIdx = q.endIdx ∧
    q.popped.count = q.count - 1 ∧ q.popped.buf = q.buf ∧
    contents sel q = slotByte sel q q.startIdx :: contents sel q.popped ∧ q.popped.full = false ∧
    (q.popped.empty = true ↔ q.count = 1) := by
  refine ⟨rfl, rfl, rfl, rfl, rfl, contents_popped sel hi hc, ?_, ?_⟩
  · have := hi.count_le
    rw [Bool.eq_false_iff, ne_eq, Queue.full_iff, Queue.popped_count, Queue.popped_cap]
    omega
  · rw [Queue.empty_iff, Queue.popped_count]
    omega

/-! ### The remaining branches of `TX_EVENT` and `TRY_RECV` (R124, R154 to R156) -/

theorem State.emitSent_respond (s : State) (v : Byte) (p : Port) (ok : Bool) (d : DataWord) :
    (s.emitSent v).respond p ok d =
      { s with txStream := s.txStream ++ [v], out := s.out ++ [.sent v, .rsp p (done ok d)] } :=
  congrArg (fun o => { s with txStream := s.txStream ++ [v], out := o }) (List.append_assoc s.out _ _)

theorem exec_txEvent_disarmed {s : State} (h : s.port = .dtx) (he : s.blk.txIrqEn = false) :
    exec .txEvent s = .next (s.refuse .dtx) := by
  rw [exec, execTxEvent, serve_ready _ _ (by simp [h]), if_neg (by simp [he]), h]

theorem exec_txEvent_empty {s : State} (h : s.port = .dtx) (he : s.blk.txIrqEn = true) (hc : s.blk.txq.count = 0) :
    exec .txEvent s = .next ({ s with blk := { s.blk with txIrqEn := false } }.respondAny .dtx) := by
  rw [exec_txEvent_dtx h he, Block.pop_empty _ .txq hc]

theorem exec_tryRecv_empty {s : State} (h : MainReady s) (hc : s.blk.rxq.count = 0) :
    exec .tryRecv s = .next (s.respondAny .m) := by
  rw [exec_tryRecv_main h, Block.pop_empty _ .rxq hc]; rfl

/-! ### The operations of the transport -/

/-- Settles O24: `TP_INIT` is the `init` of both queues, so both have `count` 0. -/
theorem tpInitEmptiesBothQueues : Obligations.TpInitEmptiesBothQueues :=
  ⟨requestCode_tpInit, refusedOffPort rfl, fun _ hm =>
    ⟨_, exec_tpInit_main hm, rfl, Queue.empty_init _, Queue.empty_init _, Queue.full_init, Queue.full_init⟩⟩

/-- Settles O25: `RX_EVENT` is a push of `RXQ`, which at `count = N` leaves the block; else `RXQ` becomes
`Queue.pushed`. -/
theorem rxEventStoresOrDrops : Obligations.RxEventStoresOrDrops := by
  refine ⟨requestCode_rxEvent, fun b => refusedOffPort rfl, ?_⟩
  rintro b s Q rfl hp
  refine ⟨fun hc => ?_, fun hi hc => ⟨s.blk.rxq.pushed b, ?_, hi.pushed_fields hc .rxq b⟩⟩
  · exact exec_rxEvent_of_push hp (Block.push_full _ .rxq b hc)
  · exact exec_rxEvent_of_push hp (Block.push_room _ .rxq b hc hi.end_lt)

/-- Settles O26: refused while disarmed; while armed, a pop of `TXQ`, whose byte is handed over, or which finds none and
disarms. -/
theorem txEventSendsOrDisarms : Obligations.TxEventSendsOrDisarms := by
  refine ⟨requestCode_txEvent, refusedOffPort rfl, ?_⟩
  rintro s Q rfl hp
  refine ⟨exec_txEvent_disarmed hp, fun he hc => ⟨_, exec_txEvent_empty hp he hc⟩, fun hi he hc =>
    ⟨s.blk.txq.popped, _, ?_, hi.popped_fields hc .txq⟩⟩
  rw [exec_txEvent_of_pop hp he (Block.pop_some _ .txq hc hi.start_lt), State.emitSent_respond]
  rfl

/-- Settles O27: `TRY_RECV` is a pop of `RXQ`, which at `count = 0` leaves the block; else `RXQ` becomes
`Queue.popped`. -/
theorem tryRecvTakesTheOldestByte : Obligations.TryRecvTakesTheOldestByte := by
  refine ⟨requestCode_tryRecv, refusedOffPort rfl, ?_⟩
  rintro s Q rfl hm
  refine ⟨fun hc => ⟨_, exec_tryRecv_empty hm hc⟩, fun hi hc =>
    ⟨s.blk.rxq.popped, _, ?_, hi.popped_fields hc .rxq⟩⟩
  exact exec_tryRecv_of_pop hm (Block.pop_some _ .rxq hc hi.start_lt)

/-- Settles O28: the enqueue at `count = N` leaves the block, the notification included; else it is the push and the
arming at once. -/
theorem trySendStoresAndArms : Obligations.TrySendStoresAndArms := by
  refine ⟨requestCode_trySend, fun b => refusedOffPort rfl, ?_⟩
  rintro b s Q rfl hm
  refine ⟨fun hc => ?_, fun hi hc => ⟨s.blk.txq.pushed b, ?_, hi.pushed_fields hc .txq b⟩⟩
  · exact exec_trySend_of_enqueue hm (Block.trySend_full _ b hc)
  · exact exec_trySend_of_enqueue hm (Block.trySend_room _ b hc hi.end_lt)

end Sys2Proof.Machine

namespace Sys2Proof.Machine

/-! ### Requests: the codes of the framer, and `NOP` -/

theorem requestCode_nop : RequestCode 0x0 (fun _ => .nop) := by
  intro w hw; simp only [decode, decodeReq, reqOp, hw]; rfl

theorem requestCode_frInit : RequestCode 0x9 (fun _ => .frInit) := by
  intro w hw; simp only [decode, decodeReq, reqOp, hw]; rfl

theorem requestCode_feed : RequestCode 0xA (fun w => .feed (wordByte w 0)) := by
  intro w hw; simp only [decode, decodeReq, reqOp, hw]; rfl

theorem requestCode_poll : RequestCode 0xB (fun _ => .poll) := by
  intro w hw; simp only [decode, decodeReq, reqOp, hw]; rfl

theorem requestCode_encode :
    RequestCode 0xC (fun w => .encode (wordByte w 3) (wordByte w 2) (wordByte w 1) (wordByte w 0)) := by
  intro w hw; simp only [decode, decodeReq, reqOp, hw]; rfl

/-! ### A feed, and feeds in a row -/

/-- The response to a feed: "packet complete" with the packet, or "not yet complete" (R121). -/
def feedRsp : Option Packet → Rsp
  | some k => done true (packetData k)
  | none => done false 0

theorem State.fed_eq (s : State) (v : Byte) :
    s.fed v = { s with blk := (s.blk.feed v).2, out := s.out ++ [.rsp .m (feedRsp (s.blk.feed v).1)] } := by
  unfold State.fed
  obtain ⟨_ | k, b⟩ := s.blk.feed v <;> rfl

theorem exec_feed_fed {s : State} (h : MainReady s) (v : Byte) : exec (.feed v) s = .next (s.fed v) :=
  (exec_feed_main h v).trans (feedStep_eq v s)

/-- After a feed the main flow may issue again. -/
theorem MainReady.fed {s : State} (h : MainReady s) (v : Byte) : MainReady (s.fed v) :=
  ⟨by rw [State.fed_eq]; exact h.1, (s.fed_encBusy v).trans h.2⟩

theorem MainReady.feeds {s : State} (h : MainReady s) (bs : List Byte) : MainReady (bs.foldl State.fed s) := by
  induction bs generalizing s with
  | nil => exact h
  | cons v bs ih => exact ih (h.fed v)

theorem execAll_feeds {s : State} (h : MainReady s) (bs : List Byte) :
    execAll (bs.map .feed) s = .next (bs.foldl State.fed s) := by
  induction bs generalizing s with
  | nil => rfl
  | cons v bs ih => rw [List.map_cons, execAll, exec_feed_fed h, andThen_next, ih (h.fed v), List.foldl_cons]

/-! ### The last five bytes (R186) -/

/-- Five bytes are a valid packet exactly when their XOR is zero (R92). -/
theorem xorAll_five (a b c d e : Byte) : xorAll [a, b, c, d, e] = 0 ↔ xor4 a b c d = e := by
  show 0#8 ^^^ a ^^^ b ^^^ c ^^^ d ^^^ e = 0#8 ↔ _
  rw [BitVec.zero_xor, BitVec.xor_eq_zero_iff, xor4]

theorem xorAll_frameBytes (r : Frame) : xorAll (frameBytes r) = 0 ↔ r.valid = true :=
  (xorAll_five _ _ _ _ _).trans beq_iff_eq.symm

theorem lastFive_append (pre : List Byte) {w : List Byte} (hw : w.length = 5) : lastFive (pre ++ w) = w := by
  rw [lastFive, List.length_append, hw, Nat.add_sub_cancel, List.drop_left]

theorem completes_short {h : List Byte} (hl : h.length < 4) (v : Byte) : completes h v = false := by
  have hlen : ¬ 4 ≤ h.length := Nat.not_le.mpr hl
  simp [completes, hlen]

theorem completes_iff {h : List Byte} (hl : 4 ≤ h.length) (v : Byte) :
    completes h v = true ↔ xorAll (lastFive (h ++ [v])) = 0 := by
  simp [completes, hl]

/-- At least four bytes end in four bytes. -/
theorem exists_last_four {h : List Byte} (hl : 4 ≤ h.length) : ∃ pre a b c d, h = pre ++ [a, b, c, d] := by
  have hlen : (h.drop (h.length - 4)).length = 4 := by rw [List.length_drop]; omega
  match hd : h.drop (h.length - 4), hlen with
  | [a, b, c, d], _ => exact ⟨h.take (h.length - 4), a, b, c, d, by rw [← hd, List.take_append_drop]⟩

theorem lastFive_concat (pre : List Byte) (a b c d v : Byte) :
    lastFive (pre ++ [a, b, c, d] ++ [v]) = [a, b, c, d, v] := by
  rw [List.append_assoc]; exact lastFive_append pre rfl

/-! ### What the window holds, as the cursor says (R186) -/

/-- At most four bytes since the last completion: all of them stand in the window, below the cursor. -/
theorem framerSees_short {h : List Byte} (hl : h.length ≤ 4) (b : Block) :
    FramerSees h b ↔ b.position.toNat = h.length ∧ (frameBytes b.f).take h.length = h := by
  simp [FramerSees, Nat.min_eq_left hl]

/-- Four bytes or more: the last four stand in the window, and the cursor is at 4. -/
theorem framerSees_long (pre : List Byte) (w x y z : Byte) (b : Block) :
    FramerSees (pre ++ [w, x, y, z]) b ↔
      b.position.toNat = 4 ∧ b.f.command = w ∧ b.f.parameter1 = x ∧ b.f.parameter2 = y ∧ b.f.parameter3 = z := by
  simp [FramerSees, frameBytes]

theorem framerSees_nil {b : Block} (h : b.position = 0) : FramerSees [] b := by
  exact (framerSees_short (h := []) (Nat.zero_le 4) b).mpr ⟨by rw [h]; rfl, rfl⟩

/-- A byte stored at place `i < 4` joins the bytes below it. -/
theorem frameBytes_frameSet_take (r : Frame) {i : Nat} (h : i < 4) (v : Byte) :
    (frameBytes (frameSet r i v)).take (i + 1) = (frameBytes r).take i ++ [v] := by
  match i, h with
  | 0, _ | 1, _ | 2, _ | 3, _ => rfl

/-- A feed behind the bytes `h` since the last completion: it completes exactly when the last five bytes say so, delivering
the first four of them; else the byte joins those since the last completion, and `PKT` stays. -/
theorem FramerSees.fed {h : List Byte} {s : State} (hs : FramerSees h s.blk) (v : Byte) :
    (completes h v = true ∧ ∃ k : Packet,
      lastFive (h ++ [v]) = [k.command, k.parameter1, k.parameter2, k.parameter3, v] ∧
      (s.fed v).blk.position = 0 ∧ (s.fed v).blk.pkt = k ∧
      (s.fed v).out = s.out ++ [.rsp .m (done true (packetData k))]) ∨
    (completes h v = false ∧ FramerSees (h ++ [v]) (s.fed v).blk ∧ (s.fed v).blk.pkt = s.blk.pkt ∧
      (s.fed v).out = s.out ++ [.rsp .m (done false 0)]) := by
  by_cases hl : h.length < 4
  · obtain ⟨hp, hw⟩ := (framerSees_short hl.le _).mp hs
    have hp4 : s.blk.position.toNat < 4 := hp ▸ hl
    refine .inr ⟨completes_short hl v, ?_, ?_, ?_⟩ <;> rw [State.fed_below v hp4]
    rw [framerSees_short (by rw [List.length_append, List.length_singleton]; omega), List.length_append,
      List.length_singleton]
    refine ⟨(BitVec3_succ hp4).trans (congrArg (· + 1) hp), ?_⟩
    rw [hp, frameBytes_frameSet_take _ hl, hw]
  · obtain ⟨pre, a, b, c, d, rfl⟩ := exists_last_four (Nat.not_lt.mp hl)
    obtain ⟨hp, rfl, rfl, rfl, rfl⟩ := (framerSees_long pre a b c d _).mp hs
    have hlast := lastFive_concat pre s.blk.f.command s.blk.f.parameter1 s.blk.f.parameter2 s.blk.f.parameter3 v
    have hiff := completes_iff (Nat.not_lt.mp hl) v
    rw [hlast, xorAll_five] at hiff
    by_cases hx : xor4 s.blk.f.command s.blk.f.parameter1 s.blk.f.parameter2 s.blk.f.parameter3 = v
    · refine .inl ⟨hiff.mpr hx, framePacket s.blk.f, hlast, ?_⟩
      rw [State.fed_match hp.ge hx]
      exact ⟨rfl, rfl, rfl⟩
    · refine .inr ⟨Bool.eq_false_iff.mpr (mt hiff.mp hx), ?_, ?_, ?_⟩ <;> rw [State.fed_mismatch hp.ge hx]
      rw [List.append_assoc, List.cons_append, List.append_cons pre]
      exact (framerSees_long _ _ _ _ _ _).mpr ⟨hp, rfl, rfl, rfl, rfl⟩

/-- The responses and the window after a whole stream follow the completion times. -/
theorem FramerSees.feeds {h : List Byte} {s : State} (hs : FramerSees h s.blk) (bs : List Byte) :
    (bs.foldl State.fed s).out = s.out ++ (streamResponses h bs).map (.rsp .m) ∧
    FramerSees (sinceCompletion h bs) (bs.foldl State.fed s).blk := by
  induction bs generalizing h s with
  | nil => exact ⟨(List.append_nil _).symm, hs⟩
  | cons v bs ih =>
    simp only [streamResponses, sinceCompletion, List.foldl_cons]
    rcases hs.fed v with ⟨hc, k, hlast, hpos, _, hout⟩ | ⟨hc, hnext, _, hout⟩
    · obtain ⟨hrest, hsees⟩ := ih (framerSees_nil hpos)
      have hdata : deliveredData h v = packetData k := by rw [deliveredData, hlast]
      refine ⟨?_, by rwa [if_pos hc]⟩
      rw [hrest, hout, if_pos hc, hdata, List.map_cons, List.append_assoc, List.singleton_append]
    · obtain ⟨hrest, hsees⟩ := ih hnext
      have hc : ¬ completes h v = true := by rw [hc]; exact Bool.false_ne_true
      refine ⟨?_, by rwa [if_neg hc]⟩
      rw [hrest, hout, if_neg hc, List.map_cons, List.append_assoc, List.singleton_append]

/-! ### Valid frames from position 0 (R185, R186) -/

/-- The state after a valid frame is fed from position 0: delivered at its fifth byte, the cursor where it was. -/
def State.delivered (s : State) (f : Frame) : State :=
  { s with
    blk := { s.blk with f := f, pkt := framePacket f },
    out := s.out ++ List.replicate 4 (.rsp .m (done false 0)) ++
      [.rsp .m (done true (packetData (framePacket f)))] }

theorem State.fed_validFrame {s : State} {f : Frame} (hp : s.blk.position = 0) (h : f.valid = true) :
    (frameBytes f).foldl State.fed s = s.delivered f := by
  simp only [frameBytes, List.foldl_cons, List.foldl_nil, State.fed_four hp]
  exact State.fourFed_fed_valid hp h

/-- The responses to a valid frame from position 0. -/
def frameResponses (r : Frame) : List Rsp :=
  List.replicate 4 (done false 0) ++ [done true (packData r.command r.parameter1 r.parameter2 r.parameter3)]

theorem State.delivered_out (s : State) (f : Frame) :
    (s.delivered f).out = s.out ++ (frameResponses f).map (.rsp .m) := List.append_assoc _ _ _

theorem State.fed_validFrames {s : State} (fs : List Frame) (hp : s.blk.position = 0) (h : ∀ r ∈ fs, r.valid = true) :
    ((fs.flatMap frameBytes).foldl State.fed s).blk.position = 0 ∧
    ((fs.flatMap frameBytes).foldl State.fed s).out = s.out ++ (fs.flatMap frameResponses).map (.rsp .m) := by
  induction fs generalizing s with
  | nil => exact ⟨hp, (List.append_nil _).symm⟩
  | cons f fs ih =>
    rw [List.flatMap_cons, List.foldl_append, State.fed_validFrame hp (h f List.mem_cons_self)]
    obtain ⟨hpos, hout⟩ := ih (s := s.delivered f) hp fun r hr => h r (List.mem_cons_of_mem f hr)
    refine ⟨hpos, ?_⟩
    rw [hout, State.delivered_out, List.flatMap_cons, List.map_append, List.append_assoc]

/-- Settles O43: each feed extends the bytes seen since the last completion or completes (`FramerSees.fed`), by induction on
the stream; valid frames, by induction on the frames. -/
theorem framerFollowsTheCompletionTimes : Obligations.FramerFollowsTheCompletionTimes := by
  refine ⟨fun b => framerSees_nil, fun bs h s hm hs => ?_, fun fs s hm hp hv => ?_⟩
  · exact ⟨_, execAll_feeds hm bs, hs.feeds bs⟩
  · exact ⟨_, execAll_feeds hm _, State.fed_validFrames fs hp hv⟩

end Sys2Proof.Machine

namespace Sys2Proof.Machine

/-! ### The operations of the framer, branch by branch (R170 to R177, R184) -/

/-- Place `i` of a five-byte file is the `i`-th of its bytes in wire order (R64). -/
theorem frameBytes_getElem? (r : Frame) {i : Nat} (h : i < 5) : (frameBytes r)[i]? = some (frameGet r i) := by
  match i, h with
  | 0, _ | 1, _ | 2, _ | 3, _ | 4, _ => rfl

theorem frameBytes_frameSet (r : Frame) {i : Nat} (h : i < 5) (v : Byte) :
    frameBytes (frameSet r i v) = (frameBytes r).set i v := by
  match i, h with
  | 0, _ | 1, _ | 2, _ | 3, _ | 4, _ => rfl

theorem frameGet_frameSet_same (r : Frame) (i : Nat) (v : Byte) : frameGet (frameSet r i v) i = v := by
  match i with
  | 0 | 1 | 2 | 3 | _ + 4 => rfl

/-- Writing one place of a five-byte file leaves the others. -/
theorem frameGet_frameSet_ne (r : Frame) {i j : Nat} (hi : i < 5) (hj : j < 5) (h : j ≠ i) (v : Byte) :
    frameGet (frameSet r i v) j = frameGet r j := by
  apply Option.some.inj
  rw [← frameBytes_getElem? _ hj, ← frameBytes_getElem? _ hj, frameBytes_frameSet r hi, List.getElem?_set_ne h.symm]

/-- Settles O33: the three branches of a feed. -/
theorem feedStoresChecksAndShifts : Obligations.FeedStoresChecksAndShifts := by
  refine ⟨requestCode_feed, fun b => refusedOffPort rfl, fun b s hm => ⟨?_, fun hp hx => ?_, fun hp hx => ?_⟩⟩
  · rintro k rfl hk
    refine ⟨_, exec_feed_fed hm b, ?_⟩
    rw [State.fed_below b hk]
    exact ⟨rfl, BitVec3_succ hk, frameGet_frameSet_same _ _ b,
      fun j hj hne => frameGet_frameSet_ne _ (by omega) hj hne b⟩
  · rw [exec_feed_fed hm, State.fed_match (by rw [hp]; exact Nat.le_refl 4) hx]
    rfl
  · rw [exec_feed_fed hm, State.fed_mismatch (by rw [hp]; exact Nat.le_refl 4) hx]
    rfl

/-- A feed below position 4 advances the cursor. -/
theorem State.fed_advances {s : State} {p : BitVec 3} (hp : s.blk.position = p) (h : p.toNat < 4) (v : Byte) :
    (s.fed v).blk.position = p + 1 ∧ (feedRsp (s.blk.feed v).1).ok = false := by
  subst hp
  rw [State.fed_blk, Block.feed_below _ _ h]
  exact ⟨rfl, rfl⟩

theorem feedRsp_err (r : Option Packet) : (feedRsp r).err = false := by cases r <;> rfl

/-- A later step of an `ENCODE` leaves the cursor; so does its turn when none is under way. -/
theorem resumeEncode_position {s t : State} (h : resumeEncode s = .next t) : t.blk.position = s.blk.position := by
  unfold resumeEncode at h
  split at h
  · obtain ⟨_, ha⟩ := encodeStep_blk h
    obtain ⟨_, _, _, hpos, _⟩ := Block.encodeAttempt_frame ha
    exact hpos
  · cases h; rfl

/-- Settles O34: a feed's three branches by position, `FR_INIT` and the reset edge by their equations, every other
instruction by the table of writes, the later steps of an `ENCODE` by what an attempt leaves. -/
theorem cursorTransitions : Obligations.CursorTransitions := by
  refine ⟨fun b s hm => ?_, fun s hm => ⟨_, exec_frInit_main hm, rfl⟩, fun s pins rest hs hr => ?_,
    fun i s t hw h => ?_, fun s t rest hs h => ?_⟩
  · refine ⟨s.fed b, feedRsp (s.blk.feed b).1, exec_feed_fed hm b, by rw [State.fed_eq], feedRsp_err _,
      fun hp => State.fed_advances hp (by decide) b, fun hp => State.fed_advances hp (by decide) b,
      fun hp => State.fed_advances hp (by decide) b, fun hp => State.fed_advances hp (by decide) b,
      fun hp hx => ?_, fun hp hx => ?_⟩
    · rw [State.fed_blk, Block.feed_match _ _ (by rw [hp]; exact Nat.le_refl 4) hx]
      exact ⟨rfl, rfl⟩
    · rw [State.fed_blk, Block.feed_mismatch _ _ (by rw [hp]; exact Nat.le_refl 4) hx]
      exact ⟨hp, rfl⟩
  · exact ⟨_, (step_cons hs).trans (clockEdge_reset hr (s.take rest)), rfl⟩
  · obtain ⟨_, hposition, _⟩ := (exec_effect h).registers
    exact hposition hw
  · rw [step_cons hs, takeTurn_resume] at h
    exact resumeEncode_position (s := s.take rest) h

/-- Settles O42: the bytes of `ENC5` are a valid frame. -/
theorem feedingAnEncodedFrameDeliversIt : Obligations.FeedingAnEncodedFrameDeliversIt := by
  intro c p1 p2 p3 s hm hp
  have hv : (enc5 c p1 p2 p3).valid = true := beq_self_eq_true _
  refine ⟨s.delivered (enc5 c p1 p2 p3), ?_, List.append_assoc _ _ _, hp, rfl, rfl, rfl, rfl⟩
  rw [execAll_feeds hm, State.fed_validFrame hp hv]

/-- Settles O32: where the main flow may issue, `FR_INIT` writes the cursor alone. -/
theorem frInitOnlyMovesTheCursor : Obligations.FrInitOnlyMovesTheCursor :=
  ⟨requestCode_frInit, refusedOffPort rfl, fun _ hm => exec_frInit_main hm⟩

/-- Settles O41: `NOP` is accepted on whatever port is ready. -/
theorem nopChangesNothing : Obligations.NopChangesNothing :=
  ⟨requestCode_nop, fun _ hr => exec_nop_ready hr⟩

/-! ### `POLL` (R178) -/

/-- A `POLL` that pops a byte feeds it. -/
theorem exec_poll_of_pop {s : State} {v : Byte} {B : Block} (h : MainReady s)
    (hp : s.blk.pop .rxq = .ok (some v, B)) : exec .poll s = .next ({ s with blk := B }.fed v) := by
  rw [exec_poll_main h, hp]
  exact feedStep_eq v _

/-- A feed leaves `RXQ` (R45). -/
theorem State.fed_rxq (s : State) (v : Byte) : (s.fed v).blk.rxq = s.blk.rxq := by
  obtain ⟨hrxq, _⟩ := s.blk.feed_frame v
  rw [s.fed_blk, hrxq]

/-- Settles O35: the pop gives the head of the contents, and the feed leaves `RXQ` as the pop left it. -/
theorem pollFeedsOneByte : Obligations.PollFeedsOneByte := by
  refine ⟨requestCode_poll, refusedOffPort rfl, ?_⟩
  rintro s Q rfl hm
  refine ⟨exec_poll_empty hm, fun hi hc => ?_⟩
  have hpop := s.blk.pop_some .rxq hc hi.start_lt
  have hm' : MainReady { s with blk := s.blk.setQueue .rxq s.blk.rxq.popped } := hm
  exact ⟨_, contents .rxq s.blk.rxq.popped, _, _, contents_popped .rxq hi hc, exec_tryRecv_of_pop hm hpop,
    exec_feed_fed hm' _, exec_poll_of_pop hm hpop, congrArg (contents .rxq) (State.fed_rxq _ _),
    congrArg Queue.count (State.fed_rxq _ _)⟩

end Sys2Proof.Machine

namespace Sys2Proof.Machine

/-! ### Resynchronisation (R187) -/

/-- One byte of a valid frame changed makes it invalid (R93). -/
theorem frameSet_invalid {r : Frame} {i : Nat} {v : Byte} (hi : i < 5) (hr : r.valid = true) (hv : v ≠ frameGet r i) :
    (frameSet r i v).valid = false := by
  have hx : xor4 r.command r.parameter1 r.parameter2 r.parameter3 = r.checksum := beq_iff_eq.mp hr
  refine beq_eq_false_iff_ne.mpr fun h => hv ?_
  match i, hi with
  | 0, _ | 1, _ | 2, _ | 3, _ => simpa [frameSet, frameGet, xor4] using h.trans hx.symm
  | 4, _ => exact h.symm.trans hx

/-- No five bytes in a row of a stream have XOR zero. -/
def NoWindow (l : List Byte) : Prop := ∀ k, k + 5 ≤ l.length → xorAll ((l.drop k).take 5) ≠ 0

theorem NoWindow.of_short {l : List Byte} (h : l.length < 5) : NoWindow l := fun _ hk => by omega

theorem NoWindow.init {l : List Byte} {v : Byte} (h : NoWindow (l ++ [v])) : NoWindow l := by
  intro k hk
  have hw := h k (by rw [List.length_append]; omega)
  rwa [List.drop_append_of_le_length (by omega), List.take_append_of_le_length (by rw [List.length_drop]; omega)] at hw

/-- The last window of a stream is its last five bytes. -/
theorem lastFive_eq_window {l : List Byte} {k : Nat} (h : l.length = k + 5) : lastFive l = (l.drop k).take 5 := by
  rw [lastFive, h, Nat.add_sub_cancel, List.take_of_length_le (by rw [List.length_drop]; omega)]

theorem NoWindow.not_completes {l : List Byte} {v : Byte} (h : NoWindow (l ++ [v])) : completes l v = false := by
  by_cases hl : l.length < 4
  · exact completes_short hl v
  · have hlen : (l ++ [v]).length = (l.length - 4) + 5 := by rw [List.length_append, List.length_singleton]; omega
    rw [Bool.eq_false_iff, ne_eq, completes_iff (Nat.not_lt.mp hl), lastFive_eq_window hlen]
    exact h _ hlen.ge

/-- A stream without a window of XOR zero completes nothing: all of it is fed since the last completion, and `PKT` stays. -/
theorem State.fed_noWindow {s : State} (hp : s.blk.position = 0) (l : List Byte) (h : NoWindow l) :
    FramerSees l (l.foldl State.fed s).blk ∧ (l.foldl State.fed s).blk.pkt = s.blk.pkt ∧
    (l.foldl State.fed s).out = s.out ++ List.replicate l.length (.rsp .m (done false 0)) := by
  induction l using List.reverseRecOn with
  | nil => exact ⟨framerSees_nil hp, rfl, (List.append_nil _).symm⟩
  | append_singleton l v ih =>
    obtain ⟨hsees, hpkt, hout⟩ := ih h.init
    rw [List.foldl_append, List.foldl_cons, List.foldl_nil]
    rcases hsees.fed v with ⟨hc, _⟩ | ⟨_, hnext, hpkt', hout'⟩
    · rw [h.not_completes] at hc; cases hc
    · refine ⟨hnext, hpkt'.trans hpkt, ?_⟩
      rw [hout', hout, List.length_append, List.length_singleton, List.replicate_succ', List.append_assoc]

/-- The first window of XOR zero completes with its last byte, and its first four bytes are delivered. -/
theorem State.fed_firstWindow {s : State} (hp : s.blk.position = 0) {pre : List Byte} {w0 w1 w2 w3 w4 : Byte}
    (h : NoWindow (pre ++ [w0, w1, w2, w3])) (hx : xorAll [w0, w1, w2, w3, w4] = 0) :
    ((pre ++ [w0, w1, w2, w3, w4]).foldl State.fed s).blk.position = 0 ∧
    ((pre ++ [w0, w1, w2, w3, w4]).foldl State.fed s).blk.pkt = ⟨w0, w1, w2, w3⟩ ∧
    ((pre ++ [w0, w1, w2, w3, w4]).foldl State.fed s).out =
      s.out ++ List.replicate (pre.length + 4) (.rsp .m (done false 0)) ++
        [.rsp .m (done true (packData w0 w1 w2 w3))] := by
  obtain ⟨hsees, _, hout⟩ := State.fed_noWindow hp _ h
  have hlen : (pre ++ [w0, w1, w2, w3]).length = pre.length + 4 := List.length_append
  have hlast := lastFive_concat pre w0 w1 w2 w3 w4
  have hsplit : pre ++ [w0, w1, w2, w3, w4] = pre ++ [w0, w1, w2, w3] ++ [w4] :=
    (List.append_assoc pre [w0, w1, w2, w3] [w4]).symm
  rw [hsplit, List.foldl_append, List.foldl_cons, List.foldl_nil]
  rcases hsees.fed w4 with ⟨_, ⟨c, p1, p2, p3⟩, hk, hpos, hpkt, hout'⟩ | ⟨hc, _⟩
  · rw [hlast] at hk
    cases hk
    exact ⟨hpos, hpkt, by rw [hout', hout, hlen]; rfl⟩
  · rw [Bool.eq_false_iff, ne_eq, completes_iff (by omega), hlast] at hc
    exact absurd hx hc

/-- The stream of an invalid frame and then a frame `b` has no window of XOR zero among its first `n` bytes if it has none
that mixes their bytes. -/
theorem noWindow_mixed {d : Frame} (hd : d.valid = false) (b : Frame) {n : Nat}
    (h : ∀ j, j + 6 ≤ n → xorAll (((frameBytes d ++ frameBytes b).drop (j + 1)).take 5) ≠ 0) :
    NoWindow ((frameBytes d ++ frameBytes b).take n) := by
  intro k hk
  have hkn : k + 5 ≤ n := hk.trans (List.length_take_le _ _)
  rw [List.drop_take, List.take_take, Nat.min_eq_left (by omega)]
  cases k with
  | zero => exact mt (xorAll_frameBytes d).mp (by rw [hd]; exact Bool.false_ne_true)
  | succ j => exact h j hkn

/-- Settles O44: the damaged frame is itself no window of XOR zero. If no mixed window is one, the first is the second frame;
else the first is a mixed one, and after it fewer than five bytes are left. -/
theorem resynchronisationAfterOneDamagedByte : Obligations.ResynchronisationAfterOneDamagedByte := by
  rintro g b i v s a hm hp hg hb hi hv rfl
  have hd := frameSet_invalid hi hg hv
  generalize frameSet g i v = d at hd ⊢
  refine ⟨fun hmixed => ?_, fun k w0 w1 w2 w3 w4 hk hwin hx hfirst => ?_⟩
  · have hno : NoWindow (frameBytes d ++ [b.command, b.parameter1, b.parameter2, b.parameter3]) :=
      noWindow_mixed hd b (n := 9) fun j hj => hmixed j (by omega)
    obtain ⟨hpos, hpkt, hout⟩ := State.fed_firstWindow hp hno ((xorAll_frameBytes b).mpr hb)
    have hbytes : frameBytes b = [b.command, b.parameter1, b.parameter2, b.parameter3, b.checksum] := rfl
    refine ⟨_, execAll_feeds hm _, ?_⟩
    rw [hbytes]
    exact ⟨hout, hpos, hpkt⟩
  · have hno := noWindow_mixed hd b (n := k + 1 + 4) fun j hj => hfirst j (by omega)
    have hlen : (frameBytes d ++ frameBytes b).length = 10 := rfl
    generalize frameBytes d ++ frameBytes b = l at hwin hno hlen ⊢
    have hfour : (l.drop (k + 1)).take 4 = [w0, w1, w2, w3] := by
      have hw4 := congrArg (List.take 4) hwin
      rwa [List.take_take] at hw4
    have htake : l.take (6 + k) = l.take (k + 1) ++ [w0, w1, w2, w3, w4] := by
      rw [show 6 + k = k + 1 + 5 by omega, List.take_add, hwin]
    have hprelen : (l.take (k + 1)).length = k + 1 := by rw [List.length_take]; omega
    have hrestlen : (l.drop (6 + k)).length = 4 - k := by rw [List.length_drop]; omega
    rw [List.take_add, hfour] at hno
    obtain ⟨hpos, hpkt, hout⟩ := State.fed_firstWindow hp hno hx
    rw [← htake] at hpos hpkt hout
    obtain ⟨hsees, hpkt', hout'⟩ := State.fed_noWindow hpos _ (.of_short (l := l.drop (6 + k)) (by omega))
    rw [hrestlen] at hout'
    refine ⟨_, _, execAll_feeds hm _, ?_, hpos, hpkt, execAll_feeds (hm.feeds _) _, hout', ?_, hpkt'.trans hpkt⟩
    · rw [hout, hprelen, show k + 1 + 4 = 5 + k by omega]
    · rw [((framerSees_short (by omega) _).mp hsees).1, hrestlen]

end Sys2Proof.Machine

namespace Sys2Proof.Machine

/-! ### An enqueue attempt of an `ENCODE`, branch by branch (R180) -/

/-- The block after an attempt that enqueued its byte. -/
def Block.enqueued (b : Block) : Block :=
  { b with txq := b.txq.pushed (frameGet b.encB b.encIdx.toNat), txIrqEn := true, encIdx := b.encIdx + 1 }

theorem encodeStep_full {s : State} (hi : s.blk.encIdx.toNat < 5) (hc : s.blk.txq.count = s.blk.txq.cap) :
    encodeStep s = .next ({ s with blk := { s.blk with encBusy := false } }.respond .m false 0) := by
  rw [encodeStep, Block.encodeAttempt_full _ hi hc]

theorem encodeStep_more {s : State} (hi : s.blk.encIdx.toNat < 4) (hc : s.blk.txq.count ≠ s.blk.txq.cap)
    (he : s.blk.txq.endIdx < s.blk.txq.cap) : encodeStep s = .next { s with blk := s.blk.enqueued } := by
  rw [encodeStep, Block.encodeAttempt_more _ hi hc he]; rfl

theorem encodeStep_last {s : State} (hi : s.blk.encIdx.toNat = 4) (hc : s.blk.txq.count ≠ s.blk.txq.cap)
    (he : s.blk.txq.endIdx < s.blk.txq.cap) :
    encodeStep s = .next ({ s with blk := { s.blk.enqueued with encBusy := false } }.respond .m true 0) := by
  rw [encodeStep, Block.encodeAttempt_last _ hi hc he]; rfl

/-- The state with the `ENCODE` of five bytes accepted, before its first attempt (R180). -/
def State.loadEncode (s : State) (r : Frame) : State := { s with blk := s.blk.encodeStart r }

@[simp] theorem State.loadEncode_encIdx (s : State) (r : Frame) : (s.loadEncode r).blk.encIdx = 0 := rfl

@[simp] theorem State.loadEncode_txq (s : State) (r : Frame) : (s.loadEncode r).blk.txq = s.blk.txq := rfl

/-- The step that accepts an `ENCODE` is its first attempt. -/
theorem exec_encode_loaded {s : State} (h : MainReady s) (c p1 p2 p3 : Byte) :
    exec (.encode c p1 p2 p3) s = encodeStep (s.loadEncode (enc5 c p1 p2 p3)) := exec_encode_main h c p1 p2 p3

/-- A later step of the `ENCODE` under way is its next attempt. -/
theorem step_resume {s : State} {rest : List Stimulus} (h : s.inputs = .resume :: rest) (hb : s.blk.encBusy = true) :
    step s = encodeStep (s.take rest) := by
  rw [step_cons h, takeTurn_resume, resumeEncode]
  exact if_pos hb

/-- Settles O37: the first attempt is on `enc_b[0]`, the command byte. -/
theorem encodeFirstStep : Obligations.EncodeFirstStep := by
  refine ⟨requestCode_encode, fun c p1 p2 p3 => refusedOffPort rfl, ?_⟩
  rintro c p1 p2 p3 s Q rfl hm
  have h0 : (s.loadEncode (enc5 c p1 p2 p3)).blk.encIdx.toNat = 0 := rfl
  rw [exec_encode_loaded hm]
  refine ⟨fun hc => ⟨_, encodeStep_full (by omega) hc, ?_⟩, fun hi hc => ?_⟩
  · have hbusy : false = s.blk.encBusy := hm.2.symm
    exact congrArg (fun e => State.respond { s with blk := { s.blk.encodeStart (enc5 c p1 p2 p3) with encBusy := e } }
      .m false 0) hbusy
  · obtain ⟨hcap, hstart, hend, hcount, hslot, hother, hcontents, _⟩ := hi.pushed_fields hc .txq c
    exact ⟨s.blk.txq.pushed c, encodeStep_more (by omega) hc hi.end_lt, hcap, hstart, hend, hcount, hslot,
      hother, hcontents⟩

/-- The index of the `ENCODE` under way is 4 exactly at its fifth byte. -/
theorem encIdx_eq_four {i : BitVec 3} : i = 4 ↔ i.toNat = 4 := by
  rw [← BitVec.toNat_inj]; rfl

/-- Settles O38: the three branches of an attempt. -/
theorem encodeLaterSteps : Obligations.EncodeLaterSteps := by
  rintro s rest v hi hb hs rfl
  have hle := hi.encIdx_le hb
  rw [step_resume hs hb]
  by_cases hc : s.blk.txq.count = s.blk.txq.cap
  · exact ⟨_, encodeStep_full (s := s.take rest) (Nat.lt_succ_of_le hle) hc, rfl, fun _ => ⟨rfl, rfl, rfl, rfl⟩,
      fun hn => absurd hc hn⟩
  obtain ⟨_, _, _, _, _, hother, hcontents, _⟩ :=
    hi.tx.pushed_fields hc .txq (frameGet s.blk.encB s.blk.encIdx.toNat)
  rcases hle.lt_or_eq with h4 | h4
  · exact ⟨_, encodeStep_more (s := s.take rest) h4 hc hi.tx.end_lt, rfl, fun hn => absurd hn hc, fun _ =>
      ⟨hcontents, rfl, hother, fun hn => absurd (encIdx_eq_four.mp hn) h4.ne, fun _ => ⟨hb, BitVec3_succ h4, rfl⟩⟩⟩
  · exact ⟨_, encodeStep_last (s := s.take rest) h4 hc hi.tx.end_lt, rfl, fun hn => absurd hn hc, fun _ =>
      ⟨hcontents, rfl, hother, fun _ => ⟨rfl, rfl⟩, fun hn => absurd (encIdx_eq_four.mpr h4) hn⟩⟩

/-! ### An `ENCODE` without events between (R180 to R182) -/

/-- An `ENCODE` is under way in a state that keeps the invariant, with the bytes `l` still to enqueue. -/
structure Encoding (l : List Byte) (s : State) : Prop where
  inv : BlockInv s.blk
  busy : s.blk.encBusy = true
  left : (frameBytes s.blk.encB).drop s.blk.encIdx.toNat = l

/-- From `s` to `t` the bytes `l` joined `TXQ`; any of them armed the notification; the receive side is as before. -/
structure Enqueued (l : List Byte) (s t : State) : Prop where
  contents_eq : contents .txq t.blk.txq = contents .txq s.blk.txq ++ l
  cap_eq : t.blk.txq.cap = s.blk.txq.cap
  irq_eq : t.blk.txIrqEn = (s.blk.txIrqEn || !l.isEmpty)
  rxq_eq : t.blk.rxq = s.blk.rxq
  f_eq : t.blk.f = s.blk.f
  position_eq : t.blk.position = s.blk.position
  pkt_eq : t.blk.pkt = s.blk.pkt

theorem Enqueued.count_eq {l : List Byte} {s t : State} (h : Enqueued l s t) :
    t.blk.txq.count = s.blk.txq.count + l.length := by
  rw [← contents_length .txq, h.contents_eq, List.length_append, contents_length]

theorem Enqueued.trans {l l' : List Byte} {s t u : State} (h : Enqueued l s t) (h' : Enqueued l' t u) :
    Enqueued (l ++ l') s u where
  contents_eq := by rw [h'.contents_eq, h.contents_eq, List.append_assoc]
  cap_eq := h'.cap_eq.trans h.cap_eq
  irq_eq := by rw [h'.irq_eq, h.irq_eq, Bool.or_assoc]; cases l <;> simp
  rxq_eq := h'.rxq_eq.trans h.rxq_eq
  f_eq := h'.f_eq.trans h.f_eq
  position_eq := h'.position_eq.trans h.position_eq
  pkt_eq := h'.pkt_eq.trans h.pkt_eq

/-- The byte an `ENCODE` has next, and what is left behind it. -/
theorem Encoding.next {v : Byte} {l : List Byte} {s : State} (h : Encoding (v :: l) s) :
    frameGet s.blk.encB s.blk.encIdx.toNat = v ∧ (frameBytes s.blk.encB).drop (s.blk.encIdx.toNat + 1) = l ∧
    s.blk.encIdx.toNat + l.length = 4 := by
  have hle := h.inv.encIdx_le h.busy
  have hlen := congrArg List.length h.left
  have hv := congrArg (·[0]?) h.left
  have hl := congrArg List.tail h.left
  rw [List.length_drop, List.length_cons, show (frameBytes s.blk.encB).length = 5 from rfl] at hlen
  rw [List.tail_drop, List.tail_cons] at hl
  simp only [List.getElem?_drop, Nat.add_zero, List.getElem?_cons_zero] at hv
  rw [frameBytes_getElem? _ (by omega)] at hv
  exact ⟨Option.some.inj hv, hl, by omega⟩

theorem Encoding.not_nil {s : State} (h : Encoding [] s) : False := by
  have hle := h.inv.encIdx_le h.busy
  have hlen := congrArg List.length h.left
  rw [List.length_drop, show (frameBytes s.blk.encB).length = 5 from rfl, List.length_nil] at hlen
  omega

/-- The block after an attempt with room has the byte in `TXQ`, whether or not the `ENCODE` goes on. -/
theorem Encoding.enqueued {v : Byte} {l : List Byte} {s t : State} (h : Encoding (v :: l) s)
    (hc : s.blk.txq.count < s.blk.txq.cap) {e : Bool} (ht : t.blk = { s.blk.enqueued with encBusy := e }) :
    Enqueued [v] s t := by
  obtain ⟨hv, _⟩ := h.next
  constructor <;> rw [ht]
  · exact (contents_pushed .txq _ h.inv.tx hc).trans (by rw [hv])
  · rfl
  · exact (Bool.or_true _).symm
  all_goals rfl

/-- An attempt with room, before the last byte: the `ENCODE` goes on. -/
theorem Encoding.more {v v' : Byte} {l : List Byte} {s : State} (h : Encoding (v :: v' :: l) s)
    (hc : s.blk.txq.count < s.blk.txq.cap) :
    ∃ t, encodeStep s = .next t ∧ Encoding (v' :: l) t ∧ Enqueued [v] s t ∧ t.inputs = s.inputs := by
  obtain ⟨_, hl, hlen⟩ := h.next
  rw [List.length_cons] at hlen
  have hstep := encodeStep_more (by omega) hc.ne h.inv.tx.end_lt
  refine ⟨_, hstep, ⟨Tame.encodeStep.inv h.inv hstep, h.busy, ?_⟩, h.enqueued hc (e := s.blk.encBusy) rfl, rfl⟩
  rw [← hl]
  exact congrArg (List.drop · _) (BitVec3_succ (by omega))

/-- An attempt with room on the last byte ends the `ENCODE` with `ok = 1`. -/
theorem Encoding.last {v : Byte} {s : State} (h : Encoding [v] s) (hc : s.blk.txq.count < s.blk.txq.cap) :
    ∃ t, encodeStep s = .next t ∧ Enqueued [v] s t ∧ t.blk.encBusy = false ∧ t.inputs = s.inputs ∧
      t.out = s.out ++ [.rsp .m (done true 0)] := by
  obtain ⟨_, _, hlen⟩ := h.next
  exact ⟨_, encodeStep_last (by simpa using hlen) hc.ne h.inv.tx.end_lt, h.enqueued hc (e := false) rfl, rfl, rfl, rfl⟩

/-- An attempt without room ends it with `ok = 0`. -/
theorem Encoding.full {l : List Byte} {s : State} (h : Encoding l s) (hc : s.blk.txq.count = s.blk.txq.cap) :
    ∃ t, encodeStep s = .next t ∧ Enqueued [] s t ∧ t.blk.encBusy = false ∧
      t.out = s.out ++ [.rsp .m (done false 0)] :=
  ⟨_, encodeStep_full (Nat.lt_succ_of_le (h.inv.encIdx_le h.busy)) hc,
    ⟨(List.append_nil _).symm, rfl, (Bool.or_false _).symm, rfl, rfl, rfl, rfl⟩, rfl, rfl⟩

/-- Nothing of a state that `Encoding` and `Enqueued` speak of is changed by taking an input. -/
theorem Encoding.take {l : List Byte} {s : State} (h : Encoding l s) (rest : List Stimulus) :
    Encoding l (s.take rest) := ⟨h.inv, h.busy, h.left⟩

theorem Enqueued.of_take {l : List Byte} {s t : State} {rest : List Stimulus} (h : Enqueued l (s.take rest) t) :
    Enqueued l s t :=
  ⟨h.contents_eq, h.cap_eq, h.irq_eq, h.rxq_eq, h.f_eq, h.position_eq, h.pkt_eq⟩

/-- An attempt that goes on, and then the steps after it: the first of them is the next attempt. -/
theorem Encoding.step_then {l : List Byte} {s : State} (h : Encoding l s) {rest : List Stimulus}
    (hin : s.inputs = .resume :: rest) (n : Nat) :
    runSteps (n + 1) s = andThen (encodeStep (s.take rest)) (runSteps n) := by
  rw [runSteps_succ, step_resume hin h.busy]

/-- With room for all that is left, the steps of the `ENCODE` enqueue it and the last answers `ok = 1`. -/
theorem Encoding.run {l : List Byte} {s : State} {rest : List Stimulus} (h : Encoding l s)
    (hroom : s.blk.txq.count + l.length ≤ s.blk.txq.cap) (hin : s.inputs = List.replicate (l.length - 1) .resume ++ rest)
    (hout : s.out = []) :
    ∃ t, andThen (encodeStep s) (runSteps (l.length - 1)) = .next t ∧ Enqueued l s t ∧ t.blk.encBusy = false ∧
      t.inputs = rest ∧ t.out = [.rsp .m (done true 0)] := by
  induction l generalizing s with
  | nil => exact h.not_nil.elim
  | cons v l ih =>
    rw [List.length_cons] at hroom
    cases l with
    | nil =>
      obtain ⟨t, ht, henq, hbusy, hint, houtt⟩ := h.last (by omega)
      exact ⟨t, by rw [ht]; rfl, henq, hbusy, hint.trans hin, by rw [houtt, hout]; rfl⟩
    | cons v' l =>
      obtain ⟨u, hu, hE, henq, hinu⟩ := h.more (by omega)
      have hcount := henq.count_eq
      have hcap := henq.cap_eq
      rw [List.length_singleton] at hcount
      rw [hin] at hinu
      obtain ⟨t, ht, henq', hrest⟩ := ih (hE.take _) (by rw [State.take_blk]; omega) rfl rfl
      refine ⟨t, ?_, henq.trans henq'.of_take, hrest⟩
      rw [hu, andThen_next, ← ht]
      exact hE.step_then hinu l.length

/-- With room for fewer, the first that fit are enqueued and the step that finds `TXQ` full answers `ok = 0`. -/
theorem Encoding.abort {l : List Byte} {s : State} {rest : List Stimulus} {room : Nat} (h : Encoding l s)
    (hroom : s.blk.txq.count + room = s.blk.txq.cap) (hl : room < l.length)
    (hin : s.inputs = List.replicate (l.length - 1) .resume ++ rest) (hout : s.out = []) :
    ∃ t, andThen (encodeStep s) (runSteps room) = .next t ∧ Enqueued (l.take room) s t ∧ t.blk.encBusy = false ∧
      t.out = [.rsp .m (done false 0)] := by
  induction room generalizing l s with
  | zero =>
    obtain ⟨t, ht, henq, hbusy, houtt⟩ := h.full hroom
    exact ⟨t, by rw [ht]; rfl, henq, hbusy, by rw [houtt, hout]; rfl⟩
  | succ n ih =>
    match l, hl with
    | v :: v' :: l, hl =>
      obtain ⟨u, hu, hE, henq, hinu⟩ := h.more (by omega)
      have hcount := henq.count_eq
      have hcap := henq.cap_eq
      rw [List.length_singleton] at hcount
      rw [hin] at hinu
      obtain ⟨t, ht, henq', hrest⟩ := ih (hE.take _) (by rw [State.take_blk]; omega) (Nat.lt_of_succ_lt_succ hl) rfl rfl
      refine ⟨t, ?_, henq.trans henq'.of_take, hrest⟩
      rw [hu, andThen_next, ← ht]
      exact hE.step_then hinu n

/-- An accepted `ENCODE` has all its bytes to enqueue. -/
theorem Encoding.loaded {s : State} (hi : BlockInv s.blk) (r : Frame) : Encoding (frameBytes r) (s.loadEncode r) :=
  ⟨hi.move (.encodeStart r _), rfl, rfl⟩

/-- The step that takes an `ENCODE` request is its first attempt. -/
theorem step_encode {s : State} {w : Word40} {c p1 p2 p3 : Byte} {rest : List Stimulus} (hb : s.blk.encBusy = false)
    (hd : decode .req w = .ok (.encode c p1 p2 p3)) (hs : s.inputs = .request .m w :: rest) :
    step s = encodeStep (((s.take rest).onPort .m).loadEncode (enc5 c p1 p2 p3)) := by
  have hm : MainReady ((s.take rest).onPort .m) := ⟨rfl, hb⟩
  rw [step_request hs (by rw [reqReady_m, hb]; rfl), serveRequest, hd]
  exact exec_encode_loaded hm c p1 p2 p3

/-- Settles O39: the request's own step is the first attempt, on all five bytes of `ENC5`; the later steps are attempts. -/
theorem encodeWithoutEventsBetween : Obligations.EncodeWithoutEventsBetween := by
  intro s w c p1 p2 p3 rest room hi hb hd hs hroom
  have hE := Encoding.loaded (s := (s.take (List.replicate 4 .resume ++ rest)).onPort .m) hi (enc5 c p1 p2 p3)
  have hrun : ∀ n, runSteps (n + 1) s = andThen (encodeStep _) (runSteps n) := fun n =>
    (runSteps_succ n s).trans (congrArg (andThen · _) (step_encode hb hd hs))
  refine ⟨fun h5 => ?_, fun h5 => ?_⟩
  · obtain ⟨t, ht, henq, hbusy, hin, hout⟩ := hE.run (hroom ▸ Nat.add_le_add_left h5 _) rfl rfl
    exact ⟨t, (hrun 4).trans ht, henq.contents_eq, henq.irq_eq.trans (Bool.or_true _), hbusy, hout, hin, henq.rxq_eq,
      henq.f_eq, henq.position_eq, henq.pkt_eq⟩
  · obtain ⟨t, ht, henq, hbusy, hout⟩ := hE.abort hroom h5 rfl rfl
    have hcount : t.blk.txq.count = s.blk.txq.count + room := by
      rw [henq.count_eq, List.length_take_of_le h5.le]; rfl
    refine ⟨t, (hrun room).trans ht, henq.contents_eq, hcount.trans (hroom.trans henq.cap_eq.symm), fun h0 => ?_, hbusy,
      hout, henq.rxq_eq, henq.f_eq, henq.position_eq, henq.pkt_eq⟩
    obtain ⟨k, rfl⟩ := Nat.exists_eq_succ_of_ne_zero h0.ne'
    exact henq.irq_eq.trans (Bool.or_true _)

end Sys2Proof.Machine

namespace Sys2Proof.Machine

/-! ### Every request answers where the invariant holds (R61, R200) -/

theorem Tame.execTxEvent : Tame execTxEvent := by
  refine .serve (a := fun s => s.port == .dtx && s.blk.txIrqEn) ⟨fun {s t} ht => ?_, fun {s} hi => ?_⟩
  · split at ht
    · cases ht
    · cases ht; exact Moves.pop (by assumption)
    · next hp => cases ht; exact (Moves.pop hp).tail (.irq false _)
  · obtain ⟨_ | v, b, hp⟩ := Block.pop_answers hi .txq <;> exact ⟨_, by simp only [hp]; rfl⟩

theorem Tame.execPoll : Tame execPoll := by
  refine .serve (a := fun s => s.port == .m) ⟨fun {s t} ht => ?_, fun {s} hi => ?_⟩
  · split at ht
    · cases ht
    · next hp => exact (Moves.pop hp).trans ((Tame.feedStep _).moves ht)
    · cases ht; exact Moves.pop (by assumption)
  · obtain ⟨_ | v, b, hp⟩ := Block.pop_answers hi .rxq <;> exact ⟨_, by simp only [hp]; rfl⟩

/-- Every instruction is a chain of the block's moves, and answers where the invariant holds. -/
theorem Tame.exec (i : Instr) : Tame (exec i) := by
  rcases req_or_wire i with hf | ⟨f, hw⟩
  · have responded {m : Block → Block} (hm : ∀ b, Move b (m b)) :
        Tame fun s => .next ({ s with blk := m s.blk }.respond .m true 0) := .pure fun s => .single (hm s.blk)
    cases i with
    | nop => exact .serve (.pure fun _ => .refl)
    | qInit q => exact .serve (responded (Move.init q))
    | qPush q b => exact .serve (.finishPush (u := id) Moves.push fun hi => Block.push_answers hi q b)
    | qPop q => exact .serve (.finishPop Moves.pop fun hi => Block.pop_answers hi q)
    | tpInit =>
      exact .serve (.pure fun s =>
        ((Relation.ReflTransGen.single (.init .rxq s.blk)).tail (.init .txq _)).tail (.irq false _))
    | rxEvent b => exact .serve (.rxEventStep b)
    | txEvent => exact .execTxEvent
    | tryRecv => exact .serve (.finishPop Moves.pop fun hi => Block.pop_answers hi .rxq)
    | trySend b => exact .serve (.finishPush (u := id) Moves.trySend fun hi => Block.trySend_answers hi b)
    | frInit => exact .serve (responded Move.cursor)
    | feed b => exact .serve (.feedStep b)
    | poll => exact .execPoll
    | encode c p1 p2 p3 => exact .serve (.encodeFirst _)
    | _ => cases hf
  · have hcarry : Machine.exec i = Machine.carryPacket f := funext (exec_wireCommand hw)
    exact hcarry ▸ .carryPacket f

/-- The port of a request is no part of the block. -/
theorem Tame.onPort {k : State → Host.Outcome State Fault Refusal} (h : Tame k) (p : Port) :
    Tame fun s => k (s.onPort p) where
  moves := fun {s _} ht => h.moves (s := s.onPort p) ht
  answers := fun {s} hi => h.answers (s := s.onPort p) hi

theorem Tame.serveRequest (p : Port) (w : Word40) : Tame (serveRequest p w) := by
  unfold Machine.serveRequest
  cases decode .req w with
  | ok i => exact (Tame.exec i).onPort p
  | error e => exact (Tame.serve (a := fun _ => false) (.pure fun _ => .refl)).onPort p

/-! ### Events and the room of an `ENCODE` (R183) -/

/-- No operation of an event port pushes into `TXQ` (R45, R124). -/
theorem writesBuf_txq_event {p : Port} {i : Instr} (hp : p ≠ .m) (hi : p ∈ tablePorts i) (r : Route) :
    writesBuf .txq i r = false := by
  cases i <;> simp_all [tablePorts, writesBuf, wireBytes]

/-- A queue into which nothing is pushed keeps its capacity and gains no byte. -/
theorem QueueChange.count_le {q : QSel} {i : Instr} {r : Route} {Q Q' : Queue} (h : QueueChange q i r Q Q')
    (hb : writesBuf q i r = false) : Q'.cap = Q.cap ∧ Q'.count ≤ Q.count := by
  cases h with
  | same => exact ⟨rfl, Nat.le_refl _⟩
  | init => exact ⟨rfl, Nat.zero_le _⟩
  | popped => exact ⟨rfl, Nat.sub_le _ _⟩
  | pushed hw => rw [hb] at hw; cases hw

/-- A request on an event port leaves an `ENCODE`'s progress, and `TXQ` has no less room after it. -/
theorem serveRequest_event_room {p : Port} {w : Word40} {s t : State} (hp : p ≠ .m)
    (h : serveRequest p w s = .next t) :
    (t.blk.encBusy = s.blk.encBusy ∧ t.blk.encIdx = s.blk.encIdx ∧ t.blk.encB = s.blk.encB) ∧
    t.blk.txq.cap = s.blk.txq.cap ∧ t.blk.txq.count ≤ s.blk.txq.count := by
  rcases serveRequest_cases h with ⟨_, rfl⟩ | ⟨_, rfl⟩ | ⟨_, _, i, _, hi, he⟩
  · exact ⟨⟨rfl, rfl, rfl⟩, rfl, Nat.le_refl _⟩
  · exact ⟨⟨rfl, rfl, rfl⟩, rfl, Nat.le_refl _⟩
  · obtain ⟨_, _, henc⟩ := he.registers
    exact ⟨henc (writesEnc_event hp hi _), (he.queue_change .txq).count_le (writesBuf_txq_event hp hi _)⟩

/-- Settles O40: an event's request writes no register of the encoder and pushes nothing into `TXQ`; an attempt with room for
the rest of the `ENCODE` finds room for its byte. -/
theorem eventsNeverTakeAnEncodesRoom : Obligations.EventsNeverTakeAnEncodesRoom := by
  intro s hi hb hroom
  have hle := hi.encIdx_le hb
  refine ⟨fun p w rest hp hs => ?_, fun rest hs => ?_⟩
  · obtain ⟨t, ht⟩ := (Tame.serveRequest p w).answers (s := s.take rest) hi
    obtain ⟨⟨hbusy, hidx, hbytes⟩, hcap, hcount⟩ := serveRequest_event_room hp ht
    rw [State.take_blk] at hbusy hidx hbytes hcap hcount
    refine ⟨t, (step_request hs (reqReady_event hp _)).trans ht, hbusy.trans hb, hidx, hbytes, ?_⟩
    rw [hidx, hcap]
    omega
  · have hc : s.blk.txq.count < s.blk.txq.cap := by omega
    have hcontents := contents_pushed .txq (frameGet s.blk.encB s.blk.encIdx.toNat) hi.tx hc
    rw [step_resume hs hb]
    rcases hle.lt_or_eq with h4 | h4
    · have hidx : (s.blk.encIdx + 1).toNat = s.blk.encIdx.toNat + 1 := BitVec3_succ h4
      refine ⟨_, encodeStep_more (s := s.take rest) h4 hc.ne hi.tx.end_lt, hcontents, .inl ⟨hb, hidx, rfl, ?_⟩⟩
      show s.blk.txq.count + 1 + (5 - (s.blk.encIdx + 1).toNat) ≤ s.blk.txq.cap
      omega
    · exact ⟨_, encodeStep_last (s := s.take rest) h4 hc.ne hi.tx.end_lt, hcontents,
        .inr ⟨encIdx_eq_four.mpr h4, rfl, rfl⟩⟩

end Sys2Proof.Machine

namespace Sys2Proof.Machine

/-! ### An event reads and writes the transport alone (R80, R152 to R155) -/

/-- The block with other queues and another notification, the framer and the encoder as they were. -/
def Block.withTransport (b : Block) (rxq txq : Queue) (irq : Bool) : Block :=
  { b with rxq := rxq, txq := txq, txIrqEn := irq }

/-- A feed neither reads nor writes the transport (R45, R172). -/
theorem Block.feed_withTransport (b : Block) (rxq txq : Queue) (irq : Bool) (v : Byte) :
    (b.withTransport rxq txq irq).feed v = ((b.feed v).1, (b.feed v).2.withTransport rxq txq irq) := by
  rcases Block.feed_cases b v with ⟨hp, h⟩ | ⟨hp, hx, h⟩ | ⟨hp, hx, h⟩ <;> rw [h]
  · exact Block.feed_below (b.withTransport rxq txq irq) v hp
  · exact Block.feed_match (b.withTransport rxq txq irq) v hp hx
  · exact Block.feed_mismatch (b.withTransport rxq txq irq) v hp hx

/-- What an event does: the queues and the notification it leaves, and what it adds to the outputs, to the streams and to
the free values used. -/
structure EventEffect where
  rxq : Queue
  txq : Queue
  irq : Bool
  outs : List Output
  received : List Byte
  sent : List Byte
  used : Nat

/-- The state after an event that does `e`. -/
def State.after (s : State) (e : EventEffect) : State :=
  { s with
    blk := s.blk.withTransport e.rxq e.txq e.irq
    out := s.out ++ e.outs
    rxStream := s.rxStream ++ e.received
    txStream := s.txStream ++ e.sent
    free := s.free + e.used }

/-- The transport of a state, and the free values used: all that an event reads. -/
structure Transport where
  rxq : Queue
  txq : Queue
  irq : Bool
  free : Nat

def State.transport (s : State) : Transport := ⟨s.blk.rxq, s.blk.txq, s.blk.txIrqEn, s.free⟩

/-- An event, with room in `RXQ`, does the same to all states with the same transport, and answers nothing on `m`. -/
theorem event_effect {ev : Instr} {p : Port} {w : Byte}
    (hev : (ev = .rxEvent w ∧ p = .drx) ∨ (ev = .txEvent ∧ p = .dtx))
    (T : Transport) (hrx : QueueInv T.rxq) (hroom : T.rxq.count ≠ T.rxq.cap) (htx : QueueInv T.txq) :
    ∃ e : EventEffect, responsesOn .m e.outs = [] ∧
      ∀ x : State, x.port = p → x.transport = T → exec ev x = .next (x.after e) := by
  rcases hev with ⟨rfl, rfl⟩ | ⟨rfl, rfl⟩
  · refine ⟨⟨T.rxq.pushed w, T.txq, T.irq, [.rsp .drx (done true 0)], [w], [], 0⟩, rfl, ?_⟩
    rintro x hp rfl
    rw [exec_rxEvent_of_push hp (Block.push_room _ .rxq w hroom hrx.end_lt)]
    simp [State.after, State.transport, State.respond, Block.withTransport, Block.setQueue, done]
  · cases hirq : T.irq with
    | false =>
      refine ⟨⟨T.rxq, T.txq, false, [.rsp .dtx refusal], [], [], 0⟩, rfl, ?_⟩
      rintro x hp rfl
      have hirq : x.blk.txIrqEn = false := hirq
      rw [exec_txEvent_disarmed hp hirq]
      simp [State.after, State.transport, State.refuse, Block.withTransport, refusal, ← hirq]
    | true =>
      by_cases hc : T.txq.count = 0
      · refine ⟨⟨T.rxq, T.txq, false, [.rsp .dtx (done false (zext32 (Config.freeByte T.free)))], [], [], 1⟩,
          rfl, ?_⟩
        rintro x hp rfl
        rw [exec_txEvent_empty hp hirq hc]
        simp [State.after, State.transport, State.respondAny, State.respond, Block.withTransport, done]
      · refine ⟨⟨T.rxq, T.txq.popped, true, [.sent (slotByte .txq T.txq T.txq.startIdx),
          .rsp .dtx (done true (zext32 (slotByte .txq T.txq T.txq.startIdx)))], [],
          [slotByte .txq T.txq T.txq.startIdx], 0⟩, rfl, ?_⟩
        rintro x hp rfl
        have hirq : x.blk.txIrqEn = true := hirq
        rw [exec_txEvent_of_pop hp hirq (Block.pop_some _ .txq hc htx.start_lt), State.emitSent_respond]
        simp [State.after, State.transport, Block.withTransport, Block.setQueue, ← hirq]

/-! ### An event between the two steps of a `POLL` (R178, C8) -/

theorem sentBytes_append (a b : List Output) : sentBytes (a ++ b) = sentBytes a ++ sentBytes b := by
  induction a with
  | nil => rfl
  | cons x a ih => cases x <;> simp [sentBytes, ih]

/-- The state after the byte at the head of `RXQ` is taken out. -/
def State.taken (s : State) : State := { s with blk := s.blk.setQueue .rxq s.blk.rxq.popped }

/-- A feed leaves the transport. -/
theorem State.fed_transport (s : State) (v : Byte) : (s.fed v).transport = s.transport := by
  obtain ⟨hrxq, htxq, hirq, _⟩ := s.blk.feed_frame v
  rw [State.fed_eq, State.transport, State.transport, hrxq, htxq, hirq]

/-- A feed after an event answers what a feed before it answers, and the block is the same in either order. -/
theorem State.after_fed (s : State) (e : EventEffect) (v : Byte) :
    (s.after e).fed v = { (s.fed v).after e with
      out := s.out ++ e.outs ++ [.rsp .m (feedRsp (s.blk.feed v).1)] } := by
  simp only [State.fed_eq, State.after, Block.feed_withTransport]

/-- A byte at the head of `RXQ` is what a pop answers (R132). -/
theorem pop_rxq_of_head {b : Block} {v : Byte} (hi : QueueInv b.rxq) (hv : (contents .rxq b.rxq).head? = some v) :
    b.rxq.count ≠ 0 ∧ b.pop .rxq = .ok (some v, b.setQueue .rxq b.rxq.popped) := by
  have hc : b.rxq.count ≠ 0 := fun h0 => by rw [contents_eq_nil.mpr h0] at hv; cases hv
  rw [contents_popped .rxq hi hc, List.head?_cons] at hv
  exact ⟨hc, Option.some.inj hv ▸ b.pop_some .rxq hc hi.start_lt⟩

/-- Settles O36: the event does the same after the pop alone and after the whole `POLL`, since the feed leaves the transport;
and the feed does the same before and after the event, since it does not read the transport. -/
theorem eventsBetweenTheStepsOfAPollCommute : Obligations.EventsBetweenTheStepsOfAPollCommute := by
  intro s v w ev p hi hm hev hv
  obtain ⟨hc, hpop⟩ := pop_rxq_of_head hi.rx hv
  have hroom : s.blk.rxq.popped.count ≠ s.blk.rxq.popped.cap := by
    have := hi.rx.count_le
    rw [Queue.popped_count, Queue.popped_cap]
    omega
  obtain ⟨e, hsilent, he⟩ := event_effect hev s.taken.transport (hi.rx.popped hc) hroom hi.tx
  have hp : p ≠ .m := by rcases hev with ⟨_, rfl⟩ | ⟨_, rfl⟩ <;> decide
  have hbetween := he ((s.taken.respond .m true (zext32 v)).onPort p) rfl rfl
  have hbehind := he ((s.taken.fed v).onPort p) rfl (s.taken.fed_transport v)
  have hm' : MainReady ((((s.taken.respond .m true (zext32 v)).onPort p).after e).onPort .m) := ⟨rfl, hm.2⟩
  refine ⟨_, _, andThen_of_next (andThen_of_next (exec_tryRecv_of_pop hm hpop) hbetween) (exec_feed_fed hm' v),
    andThen_of_next (exec_poll_of_pop hm hpop) hbehind, ?_⟩
  simp only [State.fed_onPort, State.after_fed]
  simp only [State.fed_eq]
  refine ⟨rfl, rfl, rfl, ⟨feedRsp (s.taken.blk.feed v).1, ?_, ?_⟩, ?_, ?_⟩
  all_goals
    simp [State.after, State.taken, responsesOn_append, sentBytes_append, responsesOn, sentBytes, hsilent, done, zext32,
      hp.symm]

end Sys2Proof.Machine

namespace Sys2Proof.Machine

/-! ### Decode and encode agree (R91, R110 to R113) -/

/-- The word of a wire command: its code, its acknowledge bit and its bytes are read back. -/
theorem fields_packPkt_commandFrame (code : BitVec 7) (ack : Bool) (p1 p2 p3 k : Byte) :
    pktCode (packPkt (commandFrame code ack p1 p2 p3 k)) = code ∧
    pktAck (packPkt (commandFrame code ack p1 p2 p3 k)) = ack ∧
    pktFrame (packPkt (commandFrame code ack p1 p2 p3 k)) = commandFrame code ack p1 p2 p3 k :=
  ⟨(pktCode_packPkt _).trans (commandByte_code ack code), (pktAck_packPkt _).trans (commandByte_ack ack code),
    pktFrame_packPkt _⟩

/-- Settles O2: the fields of a packed word are what was packed, and the decoder's case is the one of the code. -/
theorem decodeOfEncodeIsTheInstruction : Obligations.DecodeOfEncodeIsTheInstruction := by
  intro i
  rcases req_or_wire i with hf | ⟨_, hw⟩
  · rw [hf]
    cases i <;> cases hf <;> simp [decode, decodeReq, encode]
  · cases i <;> cases hw
    all_goals
      simp only [Instr.format, decode, decodePkt, encode, fields_packPkt_commandFrame]
      rfl

/-! ### Encoding what a word decodes to (R113) -/

/-- A word masked by a mask that drops the bits 34:32 is packed from its masked fields. -/
theorem and_eq_packReq (w : Word40) {n : Word40} (hn : n &&& 0x0700000000#40 = 0#40) :
    w &&& n = packReq (reqOp w &&& n.extractLsb' 36 4) (w.extractLsb' 35 1 &&& n.extractLsb' 35 1)
      (w.setWidth 32 &&& n.setWidth 32) := by
  rw [← packReq_and]
  apply BitVec.eq_of_getLsbD_eq
  intro i hi
  have hbit : (n &&& 0x0700000000#40).getLsbD i = false := by rw [hn]; exact BitVec.getLsbD_zero
  revert hbit
  interval_cases i <;> simp +contextual [packReq, reqOp]

/-- The queue select of a word is its bit 35 (R110). -/
theorem qBit_reqQ (w : Word40) : qBit (reqQ w) = w.extractLsb' 35 1 := by
  apply BitVec.eq_of_getLsbD_eq
  intro i hi
  obtain rfl : i = 0 := by omega
  cases h : w.getLsbD 35 <;> simp only [reqQ, h] <;> simpa [qBit] using h.symm

/-- The one-byte operand of a word is the low byte of its data (R112). -/
theorem reqB_data (w : Word40) : (reqB w).setWidth 32 = w.setWidth 32 &&& 0xFF#32 := by
  apply BitVec.eq_of_getLsbD_eq
  intro i hi
  interval_cases i <;> simp [reqB]

/-- The four bytes of an `ENCODE` are the data of the word (R112). -/
theorem packData_req (w : Word40) : packData (reqC w) (reqP1 w) (reqP2 w) (reqP3 w) = w.setWidth 32 := by
  apply BitVec.eq_of_getLsbD_eq
  intro i hi
  interval_cases i <;> simp [packData, reqC, reqP1, reqP2, reqP3]

/-- The word packed from the bytes of a packet word is that word (R91). -/
theorem packPkt_pktFrame (w : Word40) : packPkt (pktFrame w) = w := by
  apply BitVec.eq_of_getLsbD_eq
  intro i hi
  interval_cases i <;> simp [packPkt, pktFrame]

/-- The bits an operation uses leave out 34:32. -/
theorem usedBits_gap (op : BitVec 4) : usedBits op &&& 0x0700000000#40 = 0#40 := by
  revert op; decide

/-- The canonical word of what a request word decodes to is the word's used part. -/
theorem encode_of_decode_req {w : Word40} {i : Instr} (h : decode .req w = .ok i) :
    encode i = w &&& usedBits (reqOp w) := by
  have code : ∀ {n : Nat}, (reqOp w).toNat = n → reqOp w = BitVec.ofNat 4 n := by rintro _ rfl; simp
  have select : ∀ q : BitVec 1, q &&& 1#1 = q := fun _ => BitVec.and_allOnes
  have data : ∀ d : DataWord, d &&& 0xFFFFFFFF#32 = d := fun _ => BitVec.and_allOnes
  rw [and_eq_packReq w (usedBits_gap _), usedBits_code, BitVec.and_allOnes]
  simp only [decode, decodeReq] at h
  split at h <;> cases h <;> rename_i hop
  all_goals
    rw [code hop]
    simp [usedBits, encode, qBit_reqQ, reqB_data, packData_req, select, data]

/-- The word of what a packet word decodes to is that word: its five bytes are all of it. -/
theorem encode_of_decode_pkt {w : Word40} {i : Instr} (h : decode .pkt w = .ok i) : encode i = w := by
  have command : ∀ {k : BitVec 7}, (pktCode w).toNat = k.toNat →
      packPkt (commandFrame k (pktAck w) (pktFrame w).parameter1 (pktFrame w).parameter2 (pktFrame w).parameter3
        (pktFrame w).checksum) = w := by
    intro k hk
    rw [← BitVec.eq_of_toNat_eq hk, commandFrame, commandByte_fields]
    exact packPkt_pktFrame w
  simp only [decode, decodePkt] at h
  split at h <;> cases h <;> exact command (by assumption)

/-- Settles O3: a request word's used part is packed from the fields its operation has; a packet word is its five
bytes. -/
theorem encodeOfDecodeIsTheWord : Obligations.EncodeOfDecodeIsTheWord :=
  fun _ _ => ⟨encode_of_decode_req, encode_of_decode_pkt⟩

/-! ### The codes of the tables (R101 to R112, R125) -/

/-- Settles O4: one equation of the decoder per code. -/
theorem operationCodesOfTheTable : Obligations.OperationCodesOfTheTable :=
  ⟨requestCode_nop, requestCode_qInit, requestCode_qPush, requestCode_qPop, requestCode_tpInit, requestCode_rxEvent,
    requestCode_txEvent, requestCode_tryRecv, requestCode_trySend, requestCode_frInit, requestCode_feed,
    requestCode_poll, requestCode_encode, fun _ hw => decode_req_reserved hw⟩

/-- A packet word that matches a row of the command table under the rows' mask has that row's code (R100). -/
theorem pktCode_of_match {w m : Word40} (h : w &&& 0x7F00000000 = m) : pktCode w = m.extractLsb' 32 7 := by
  rw [← h]
  exact (extractLsb'_masked 32 7 rfl w).symm

/-- Settles O7: a matching word's code is the row's, and the decoder goes by the code. -/
theorem wireCommandCodes : Obligations.WireCommandCodes := by
  intro w
  refine ⟨?_, ?_, ?_, ?_, ?_, ?_, ?_, ?_, ?_, fun hcode => ?_⟩
  case refine_10 =>
    simp only [List.mem_cons, List.not_mem_nil, or_false, not_or] at hcode
    simp only [decode, decodePkt]
    split <;> simp_all [pktCode]
  all_goals
    intro h
    simp only [decode, decodePkt, pktCode_of_match h]
    rfl

/-! ### The checksum (R92, R93) -/

/-- A frame is valid exactly when the XOR of its five bytes is zero (R92). -/
theorem valid_iff_xor5 (r : Frame) : r.valid = true ↔ xor5 r = 0 :=
  beq_iff_eq.trans (BitVec.xor_eq_zero_iff (x := xor4 _ _ _ _)).symm

theorem valid_iff_checksum (r : Frame) :
    r.valid = true ↔ r.checksum = r.command ^^^ r.parameter1 ^^^ r.parameter2 ^^^ r.parameter3 :=
  beq_iff_eq.trans eq_comm

/-- The word of a wire command is packed from its five bytes (R91, R95). -/
theorem encode_wire {i : Instr} {r : Frame} (h : wireBytes i = some r) : encode i = packPkt r := by
  cases i <;> cases h
  all_goals rename_i ack _ _ _ _; cases ack <;> rfl

/-- Settles O8: the word is packed from the five bytes, and well-formedness is the validity of the frame. -/
theorem wireCommandBytesAndChecksum : Obligations.WireCommandBytesAndChecksum := by
  intro i r hw
  have hframe := pktFrame_packPkt r
  rw [encode_wire hw, wellFormed_wire hw]
  exact ⟨congrArg Frame.command hframe, congrArg Frame.parameter1 hframe, congrArg Frame.parameter2 hframe,
    congrArg Frame.parameter3 hframe, congrArg Frame.checksum hframe, valid_iff_xor5 r, valid_iff_checksum r⟩

/-- A value XOR-ed into one place of a frame is XOR-ed into the XOR of its bytes. -/
theorem xor5_frameSet_xor (r : Frame) {i : Nat} (h : i < 5) (d : Byte) :
    xor5 (frameSet r i (frameGet r i ^^^ d)) = xor5 r ^^^ d := by
  match i, h with
  | 0, _ | 1, _ | 2, _ | 3, _ | 4, _ => simp only [xor5, frameSet, frameGet]; ac_rfl

/-- Settles O9: one changed byte breaks the check (`frameSet_invalid`); one value XOR-ed into two places cancels. -/
theorem checksumConsequences : Obligations.ChecksumConsequences := by
  refine ⟨rfl, fun a b c d => ⟨xor4 a b c d, beq_self_eq_true _, fun k hk => (beq_iff_eq.mp hk).symm⟩,
    fun r i v hi hr hv => frameSet_invalid hi hr hv, fun r i j d hij hj hr => ?_⟩
  have hother := frameGet_frameSet_ne r (hij.trans hj) hj hij.ne' (frameGet r i ^^^ d)
  rw [valid_iff_xor5] at hr ⊢
  rw [← hother, xor5_frameSet_xor _ hj, xor5_frameSet_xor r (hij.trans hj), BitVec.xor_assoc, BitVec.xor_self,
    BitVec.xor_zero, hr]

/-! ### Written-out words, and the response word (R120) -/

/-- Settles O1: the decoder evaluates on each written-out word. -/
theorem writtenOutWordsDecode : Obligations.WrittenOutWordsDecode := by
  refine ⟨?_, ?_, ?_, ?_, ?_, ?_, ?_, ?_, ?_, ?_, ?_⟩ <;> rfl

/-- Settles O10: the fields of the response word do not overlap. -/
theorem responseWordFields : Obligations.ResponseWordFields := by
  refine ⟨fun r => ⟨?_, ?_, ?_⟩, rfl⟩
  · simp [rspWord]
  · simp [rspWord]
  · apply BitVec.eq_of_getLsbD_eq
    intro i hi
    interval_cases i <;> simp [rspWord]

end Sys2Proof.Machine

namespace Sys2Proof.Machine

/-! ### Every step is a chain of the block's moves (R61, R74) -/

/-- What is set before a transition, the block apart, is no part of the block. -/
theorem Tame.after {k : State → Host.Outcome State Fault Refusal} (h : Tame k) {u : State → State}
    (hu : ∀ s, (u s).blk = s.blk) : Tame fun s => k (u s) where
  moves := fun {s _} ht => hu s ▸ h.moves ht
  answers := fun {s} hi => h.answers ((hu s).symm ▸ hi)

theorem Tame.ite {c : State → Prop} [∀ s, Decidable (c s)] {j k : State → Host.Outcome State Fault Refusal}
    (hj : Tame j) (hk : Tame k) : Tame fun s => if c s then j s else k s where
  moves := by
    intro s t ht
    split at ht
    · exact hj.moves ht
    · exact hk.moves ht
  answers := by
    intro s hi
    split
    · exact hj.answers hi
    · exact hk.answers hi

/-- A transition that leaves the block. -/
theorem Tame.same {u : State → State} (hu : ∀ s, (u s).blk = s.blk) : Tame fun s => .next (u s) :=
  .pure fun s => (hu s).symm ▸ .refl

theorem Tame.servePacket (r : Route) (w : Word40) : Tame (servePacket r w) := by
  have hcarry : Machine.servePacket r w = fun s => Machine.carryPacket (pktFrame w) (s.onRoute r) :=
    funext (servePacket_eq r w)
  exact hcarry ▸ (Tame.carryPacket _).after fun _ => rfl

theorem Tame.resumeEncode : Tame resumeEncode := .ite .encodeStep (.same fun _ => rfl)

theorem Tame.servePin (p : Port) (pin : Option Word40) : Tame (servePin p pin) := by
  cases pin with
  | none => exact .same fun _ => rfl
  | some w => exact .serveRequest p w

theorem Tame.serveMain (pin : Option Word40) : Tame (serveMain pin) := .ite .encodeStep (.servePin .m pin)

/-- A reset edge is `TP_INIT`, `FR_INIT`, the end of any `ENCODE`, and the unspecified registers (R37). -/
theorem Moves.resetEdge (s : State) : Moves s.blk (resetEdge s).blk :=
  ((((((Relation.ReflTransGen.single (.init .rxq _)).tail (.init .txq _)).tail (.irq false _)).tail
    (.cursor _)).tail (.encodeEnd _ _)).tail (.unspecified _ _ _ _))

theorem Tame.clockEdge (pins : Pins) : Tame (clockEdge pins) :=
  .ite (c := fun _ => pins.rst = true) (.pure Moves.resetEdge)
    (((Tame.servePin .drx pins.drx).andThen (.servePin .dtx pins.dtx)).andThen (.serveMain pins.m))

theorem Tame.takeTurn (x : Stimulus) (rest : List Stimulus) : Tame (takeTurn x rest) := by
  refine .ite (Tame.encodeStep.after fun _ => rfl) ?_
  cases x with
  | request p w => exact (Tame.serveRequest p w).after fun _ => rfl
  | resume => exact Tame.resumeEncode.after fun _ => rfl
  | packet r w => exact (Tame.servePacket r w).after fun _ => rfl
  | edge pins => exact (Tame.clockEdge pins).after fun _ => rfl

/-- A step is a chain of the block's moves, and answers where the invariant holds. -/
theorem Tame.step : Tame step where
  moves := by
    intro s t ht
    cases hin : s.inputs with
    | nil => rw [Machine.step, hin] at ht; cases ht; exact .refl
    | cons x rest => exact (Tame.takeTurn x rest).moves ((step_cons hin).symm.trans ht)
  answers := by
    intro s hi
    cases hin : s.inputs with
    | nil => exact ⟨s.quiet, by rw [Machine.step, hin]⟩
    | cons x rest => rw [step_cons hin]; exact (Tame.takeTurn x rest).answers hi

/-- Settles O51: each move of the block keeps the invariant, and a step is a chain of moves. -/
theorem stepKeepsTheInvariant : Obligations.StepKeepsTheInvariant := fun _ _ hi ht => Tame.step.inv hi ht

/-- Settles O52: where the invariant holds no access of a push or a pop is out of range. -/
theorem noStepFaults : Obligations.NoStepFaults := fun _ hi => Tame.step.answers hi

/-- Settles O53: by induction on the length, each step answering and keeping the invariant. -/
theorem everyRunIsSafe : Obligations.EveryRunIsSafe := by
  intro n
  induction n with
  | zero => exact fun _ _ => trivial
  | succ n ih =>
    intro s hi
    obtain ⟨t, ht⟩ := Tame.step.answers hi
    exact ⟨t, ht, ih t (Tame.step.inv hi ht)⟩

/-- No move of the block changes a capacity. -/
theorem Move.cap_eq {b b' : Block} (m : Move b b') : b'.rxq.cap = b.rxq.cap ∧ b'.txq.cap = b.txq.cap := by
  cases m with
  | init sel | push sel | pop sel => cases sel <;> exact ⟨rfl, rfl⟩
  | feed v =>
    obtain ⟨hrxq, htxq, _⟩ := b.feed_frame v
    rw [hrxq, htxq]
    exact ⟨rfl, rfl⟩
  | _ => exact ⟨rfl, rfl⟩

theorem Moves.cap_eq {b b' : Block} (m : Moves b b') : b'.rxq.cap = b.rxq.cap ∧ b'.txq.cap = b.txq.cap := by
  induction m with
  | refl => exact ⟨rfl, rfl⟩
  | tail _ hm ih => exact ⟨hm.cap_eq.1.trans ih.1, hm.cap_eq.2.trans ih.2⟩

/-- Settles O54: a step is a chain of moves, none of which changes a capacity. -/
theorem capacitiesNeverChange : Obligations.CapacitiesNeverChange := fun _ _ ht => (Tame.step.moves ht).cap_eq

end Sys2Proof.Machine

namespace Sys2Proof.Machine

/-! ### No queued byte is stranded (R160 (a)) -/

theorem Armed.congr {b B : Block} (h : Armed b) (hq : B.txq = b.txq) (he : B.txIrqEn = b.txIrqEn) : Armed B := by
  rw [Armed, hq, he]
  exact h

theorem Armed.of_count {B : Block} (h : B.txq.count = 0) : Armed B := fun hc => by omega

theorem Armed.of_irq {B : Block} (h : B.txIrqEn = true) : Armed B := fun _ => h

/-- A pop takes a byte out of a queue whose bytes had the notification on. -/
theorem Armed.pop {b B : Block} {q : QSel} {v : Option Byte} (h : Armed b) (hp : b.pop q = .ok (v, B)) : Armed B := by
  rcases Block.pop_cases hp with ⟨_, _, rfl⟩ | ⟨hc, _, _, rfl⟩
  · exact h
  · cases q with
    | rxq => exact h
    | txq => exact .of_irq (h (Nat.pos_of_ne_zero hc))

/-- An attempt of an `ENCODE` arms the notification where it enqueues. -/
theorem Armed.encodeAttempt {b B : Block} {r : Option Bool} (h : Armed b) (ha : b.encodeAttempt = .ok (r, B)) :
    Armed B := by
  rcases Block.encodeAttempt_cases ha with ⟨_, _, _, rfl⟩ | ⟨_, _, _, _, rfl⟩ | ⟨_, _, _, _, rfl⟩ | ⟨_, _, rfl⟩
  · exact h
  · exact .of_irq rfl
  · exact .of_irq rfl
  · exact h

theorem Armed.encodeFirst {b B : Block} {f : Frame} {r : Option Bool} (h : Armed b)
    (ha : (b.encodeStart f).encodeAttempt = .ok (r, B)) : Armed B :=
  Armed.encodeAttempt (b := b.encodeStart f) h ha

/-- Five `RX_EVENT`s touch `RXQ` alone. -/
theorem Armed.rxEvents {f : Frame} {s t : State} (ha : Armed s.blk) (h : eachByte rxEventStep f s = .next t) :
    Armed t.blk := by
  obtain ⟨htxq, hirq, _⟩ := eachByte_rxEventStep_frame h
  exact ha.congr htxq hirq

/-- Five feeds touch the framer alone. -/
theorem Armed.feeds {f : Frame} {s t : State} (ha : Armed s.blk) (h : eachByte feedStep f s = .next t) :
    Armed t.blk := by
  obtain ⟨_, htxq, hirq, _⟩ := eachByte_feedStep_frame h
  exact ha.congr htxq hirq

/-- Every instruction but a direct queue operation leaves no byte stranded. -/
theorem Effect.armed {i : Instr} {s : State} {B : Block} (he : Effect i s B) (hq : directQueue i = false)
    (h : Armed s.blk) : Armed B := by
  cases he with
  | none | frInit => exact h
  | qInit | qPush | qPop => cases hq
  | tpInit => exact .of_count rfl
  | rxEvent hp =>
    obtain ⟨_, htxq, hirq, _⟩ := Block.push_frame hp
    exact h.congr (htxq (by decide)) hirq
  | txSome _ _ hp | tryRecv hp | pollNone hp => exact h.pop hp
  | txNone _ _ hp =>
    rcases Block.pop_cases hp with ⟨hc, _, rfl⟩ | ⟨_, _, hv, _⟩
    · exact .of_count hc
    · cases hv
  | trySend hp =>
    rcases Block.trySend_cases hp with ⟨_, _, rfl⟩ | ⟨_, _, _, rfl⟩
    · exact h
    · exact .of_irq rfl
  | feed =>
    obtain ⟨_, htxq, hirq, _⟩ := s.blk.feed_frame _
    exact h.congr htxq hirq
  | @poll _ v B' hp =>
    obtain ⟨_, htxq, hirq, _⟩ := B'.feed_frame v
    exact (h.pop hp).congr htxq hirq
  | encode ha | send _ _ ha => exact h.encodeFirst ha
  | line _ _ hl => exact h.rxEvents hl
  | wfeed _ _ hl => exact h.feeds hl

theorem noDirectQueue_request (w : Word40) : noDirectQueue (.request .m w) = !wordIs directQueue w := by
  cases hd : decode .req w <;> simp [noDirectQueue, wordIs, hd]

theorem noDirectQueue_edge (pins : Pins) : noDirectQueue (.edge pins) = !pins.m.any (wordIs directQueue) := by
  cases hm : pins.m with
  | none => simp [noDirectQueue, hm]
  | some w => cases hd : decode .req w <;> simp [noDirectQueue, wordIs, hm, hd]

/-- The direct queue operations are of port `m` (R124). -/
theorem directQueue_event {p : Port} {i : Instr} (hp : p ≠ .m) (hi : p ∈ tablePorts i) : directQueue i = false := by
  cases i <;> first | rfl | exact absurd (List.mem_singleton.mp hi) hp

/-- A request leaves no byte stranded, on port `m` if it carries no direct queue operation. -/
theorem serveRequest_armed {p : Port} {w : Word40} {s t : State} (h : serveRequest p w s = .next t)
    (hw : p = .m → wordIs directQueue w = false) (ha : Armed s.blk) : Armed t.blk := by
  rcases serveRequest_cases h with ⟨_, rfl⟩ | ⟨_, rfl⟩ | ⟨_, _, i, hd, hi, he⟩
  · exact ha
  · exact ha
  · refine he.armed ?_ ha
    by_cases hp : p = .m
    · simpa [wordIs, hd] using hw hp
    · exact directQueue_event hp hi

theorem encodeStep_armed {s t : State} (h : encodeStep s = .next t) (ha : Armed s.blk) : Armed t.blk := by
  obtain ⟨_, hat⟩ := encodeStep_blk h
  exact ha.encodeAttempt hat

/-- A packet is no direct queue operation. -/
theorem carryPacket_armed {f : Frame} {s t : State} (h : carryPacket f s = .next t) (ha : Armed s.blk) :
    Armed t.blk := by
  unfold carryPacket at h
  split at h
  · exact ha.rxEvents h
  · split at h
    · exact ha.feeds h
    · cases h; exact ha
  · split at h
    · obtain ⟨_, hat⟩ := encodeStep_blk h
      exact ha.encodeFirst hat
    · cases h; exact ha

theorem servePin_armed {p : Port} {pin : Option Word40} {s t : State} (h : servePin p pin s = .next t)
    (hw : p = .m → pin.any (wordIs directQueue) = false) (ha : Armed s.blk) : Armed t.blk := by
  cases pin with
  | none => rwa [servePin_none h]
  | some w => exact serveRequest_armed h hw ha

/-- A rising edge leaves no byte stranded: reset empties `TXQ`, and each port's turn is a request or an attempt. -/
theorem clockEdge_armed {pins : Pins} {s t : State} (h : clockEdge pins s = .next t)
    (hw : pins.m.any (wordIs directQueue) = false) (ha : Armed s.blk) : Armed t.blk := by
  cases hr : pins.rst with
  | true =>
    rw [clockEdge_reset hr] at h
    cases h
    exact .of_count rfl
  | false =>
    obtain ⟨u, v, hu, hv, ht⟩ := clockEdge_turns hr h
    have hav : Armed v.blk := servePin_armed hv nofun (servePin_armed hu nofun ha)
    unfold serveMain at ht
    split at ht
    · exact encodeStep_armed ht hav
    · exact servePin_armed ht (fun _ => hw) hav

/-- One stimulus without a direct queue operation leaves no byte stranded. -/
theorem takeTurn_armed {x : Stimulus} {rest : List Stimulus} {s t : State} (h : takeTurn x rest s = .next t)
    (hx : noDirectQueue x = true) (ha : Armed s.blk) : Armed t.blk := by
  cases hb : x.isMain && s.blk.encBusy with
  | true =>
    rw [takeTurn_waiting rest hb] at h
    exact encodeStep_armed (s := s.quiet) h ha
  | false =>
    cases x with
    | request p w =>
      rw [takeTurn_request rest hb] at h
      exact serveRequest_armed h (by rintro rfl; simpa [noDirectQueue_request] using hx) ha
    | resume =>
      rw [takeTurn_resume, resumeEncode] at h
      split at h
      · exact encodeStep_armed (s := s.take rest) h ha
      · cases h; exact ha
    | packet r w =>
      rw [takeTurn_packet rest hb, servePacket_eq] at h
      exact carryPacket_armed h ha
    | edge pins => exact clockEdge_armed (s := s.take rest) h (by simpa [noDirectQueue_edge] using hx) ha

/-- Settles O29: a step takes one stimulus, and what it carries enqueues only with the notification armed, and disarms
only at an empty `TXQ`. -/
theorem queuedBytesKeepTheNotificationOn : Obligations.QueuedBytesKeepTheNotificationOn := by
  intro s t hx ha h
  cases hin : s.inputs with
  | nil =>
    rw [step, hin] at h
    cases h
    exact ha
  | cons x rest =>
    rw [step_cons hin] at h
    exact takeTurn_armed h (hx x rest hin) ha

end Sys2Proof.Machine

namespace Sys2Proof.Machine

/-! ### An operation on a request port: when it is accepted, and what it answers (R120 to R124, R155) -/

/-- The port of the state accepts the operation: the table's ports, and for `TX_EVENT` the notification on (R124,
R155). -/
def accepts (i : Instr) (s : State) : Bool :=
  decide (s.port ∈ tablePorts i) && (i != .txEvent || s.blk.txIrqEn)

/-- What an operation that runs answers: one response that is no refusal, or none by an `ENCODE` then under way
(R122). -/
def Answered (i : Instr) (s t : State) : Prop :=
  (∃ ok d, Responses s.port [done ok d] s t) ∨
  (Responses s.port [] s t ∧ t.blk.encBusy = true ∧ ∃ c p1 p2 p3, i = .encode c p1 p2 p3)

/-- An instruction is the service of a request: refused unless the port accepts it, and answered if it runs. -/
def Serves (i : Instr) (op : State → Host.Outcome State Fault Refusal) : Prop :=
  ∀ s, exec i s = s.serve (accepts i s) op ∧ ∀ t, accepts i s = true → op s = .next t → Answered i s t

theorem Serves.of_accepts {i : Instr} {a : State → Bool} {op : State → Host.Outcome State Fault Refusal}
    (ha : ∀ s, accepts i s = a s) (hx : ∀ s, exec i s = s.serve (a s) op)
    (ho : ∀ s t, op s = .next t → a s = true → Answered i s t) : Serves i op := by
  intro s
  rw [ha s]
  exact ⟨hx s, fun t hs h => ho s t h hs⟩

/-- An operation with one port in its row of the table. -/
theorem Serves.of_port {i : Instr} {p : Port} {op : State → Host.Outcome State Fault Refusal}
    (hp : tablePorts i = [p]) (hi : i ≠ .txEvent) (hx : ∀ s, exec i s = s.serve (s.port == p) op)
    (ho : ∀ s t, op s = .next t → s.port = p → Answered i s t) : Serves i op :=
  .of_accepts (a := fun s => s.port == p) (fun s => by simp [accepts, hp, hi, beq_eq_decide]) hx
    fun s t h hport => ho s t h (beq_iff_eq.mp hport)

theorem Answered.of_out {i : Instr} {s t : State} {p : Port} {ok : Bool} {d : DataWord}
    (h : t.out = s.out ++ [.rsp p (done ok d)]) (hp : s.port = p) : Answered i s t :=
  .inl ⟨ok, d, .one (hp ▸ h)⟩

theorem Answered.finishPush {i : Instr} {s u t : State} {p : Port} {r : Except Fault (Bool × Block)}
    (h : u.finishPush p r = .next t) (hu : u.out = s.out) (hp : s.port = p) : Answered i s t := by
  obtain ⟨_, ho⟩ := finishPush_out h
  exact .of_out (hu ▸ ho) hp

theorem Answered.finishPop {i : Instr} {s t : State} {p : Port} {r : Except Fault (Option Byte × Block)}
    (h : s.finishPop p r = .next t) (hp : s.port = p) : Answered i s t := by
  obtain ⟨_, _, ho⟩ := finishPop_out h
  exact .of_out ho hp

theorem Answered.feedStep {i : Instr} {s u t : State} {v : Byte} (h : feedStep v u = .next t) (hu : u.out = s.out)
    (hp : s.port = .m) : Answered i s t := by
  obtain ⟨_, _, ho⟩ := feedStep_out h
  exact .of_out (hu ▸ ho) hp

/-- An operation of the main flow that changes the block and answers `ok = 1`. -/
theorem exists_serves_of_respond {i : Instr} {m : Block → Block} (hp : tablePorts i = [.m]) (hi : i ≠ .txEvent)
    (hx : ∀ s, exec i s = s.serve (s.port == .m) fun s => .next ({ s with blk := m s.blk }.respond .m true 0)) :
    ∃ op, Serves i op := by
  refine ⟨_, .of_port hp hi hx fun s t h hport => ?_⟩
  cases h
  exact .of_out rfl hport

/-- Every operation of a request port is the service of a request. -/
theorem exec_serves {i : Instr} (hf : i.format = .req) : ∃ op, Serves i op := by
  cases i with
  | nop =>
    refine ⟨_, .of_accepts (a := fun _ => true) (fun s => ?_) (fun _ => rfl) fun s t h _ => ?_⟩
    · cases hp : s.port <;> simp [accepts, tablePorts, hp]
    · cases h; exact .of_out rfl rfl
  | qInit q => exact exists_serves_of_respond (m := (Block.initQueue · q)) rfl nofun fun _ => rfl
  | qPush q b => exact ⟨_, .of_port rfl nofun (fun _ => rfl) fun _ _ h => .finishPush h rfl⟩
  | qPop q => exact ⟨_, .of_port rfl nofun (fun _ => rfl) fun _ _ h => .finishPop h⟩
  | tpInit => exact exists_serves_of_respond (m := Block.tpInit) rfl nofun fun _ => rfl
  | rxEvent b => exact ⟨_, .of_port rfl nofun (fun _ => rfl) fun _ _ h => .finishPush h rfl⟩
  | txEvent =>
    refine ⟨_, .of_accepts (a := fun s => s.port == .dtx && s.blk.txIrqEn) (fun s => ?_) (fun _ => rfl)
      fun s t h ha => ?_⟩
    · simp [accepts, tablePorts, beq_eq_decide]
    · have hp : s.port = .dtx := by simp at ha; exact ha.1
      split at h
      · cases h
      · cases h; exact .inl ⟨_, _, by rw [hp]; exact .sent_one rfl⟩
      · cases h; exact .of_out rfl hp
  | tryRecv => exact ⟨_, .of_port rfl nofun (fun _ => rfl) fun _ _ h => .finishPop h⟩
  | trySend b => exact ⟨_, .of_port rfl nofun (fun _ => rfl) fun _ _ h => .finishPush h rfl⟩
  | frInit => exact exists_serves_of_respond (m := fun b => { b with position := 0 }) rfl nofun fun _ => rfl
  | feed b => exact ⟨_, .of_port rfl nofun (fun _ => rfl) fun _ _ h => .feedStep h rfl⟩
  | poll =>
    refine ⟨_, .of_port rfl nofun (fun _ => rfl) fun s t h hp => ?_⟩
    split at h
    · cases h
    · exact .feedStep h rfl hp
    · cases h; exact .of_out rfl hp
  | encode c p1 p2 p3 =>
    refine ⟨_, .of_port rfl nofun (fun _ => rfl) fun s t h hp => ?_⟩
    have h : encodeStep (s.loadEncode (enc5 c p1 p2 p3)) = .next t := h
    rcases encodeStep_out h with ⟨_, ho⟩ | ⟨ho, hb⟩
    · exact .of_out ho hp
    · exact .inr ⟨.none ho, hb, c, p1, p2, p3, rfl⟩
  | _ => cases hf

theorem accepts_iff {i : Instr} {s : State} :
    accepts i s = true ↔ s.port ∈ tablePorts i ∧ (i = .txEvent → s.blk.txIrqEn = true) := by
  rw [accepts, Bool.and_eq_true, decide_eq_true_iff, Bool.or_eq_true, bne_iff_ne, ← imp_iff_not_or]

/-- On a ready port an operation that is not accepted is refused (R124). -/
theorem exec_refused {i : Instr} {s : State} (hf : i.format = .req) (hr : reqReady s.port s.blk = true)
    (ha : accepts i s = false) : exec i s = .next (s.refuse s.port) := by
  obtain ⟨op, hop⟩ := exec_serves hf
  rw [(hop s).1, ha, serve_refused op hr]

/-- On a ready port an operation that is accepted is answered (R122). -/
theorem exec_answered {i : Instr} {s t : State} (hf : i.format = .req) (hr : reqReady s.port s.blk = true)
    (ha : accepts i s = true) (h : exec i s = .next t) : Answered i s t := by
  obtain ⟨op, hop⟩ := exec_serves hf
  obtain ⟨hx, hans⟩ := hop s
  rw [hx, ha, serve_accepted op hr] at h
  exact hans t ha h

/-- On a port that is not ready an operation does nothing (R42). -/
theorem exec_notReady {i : Instr} {s : State} (hf : i.format = .req) (hr : reqReady s.port s.blk = false) :
    exec i s = .next s := by
  obtain ⟨op, hop⟩ := exec_serves hf
  rw [(hop s).1, serve_notReady op hr]

/-- A response among the outputs is among those on its port. -/
theorem mem_responsesOn {p : Port} {r : Rsp} {l : List Output} (h : .rsp p r ∈ l) : r ∈ responsesOn p l := by
  obtain ⟨a, b, rfl⟩ := List.append_of_mem h
  simp [responsesOn_append, responsesOn]

/-- A transparent transition gives its outputs behind those given before. -/
theorem Transparent.out_eq {k : State → Host.Outcome State Fault Refusal} (hk : Transparent k) {s t : State}
    (h : k s = .next t) : ∃ outs, t.out = s.out ++ outs := by
  have hs : s = { s with out := [] }.behind s.inputs s.out := by simp [State.behind]
  rw [hs, hk] at h
  obtain ⟨u, _, hu⟩ := andThen_eq_next h
  cases hu
  exact ⟨u.out, rfl⟩

/-- What is answered holds no refusal. -/
theorem Answered.no_refusal {i : Instr} {s t : State} {outs : List Output} (h : Answered i s t)
    (ho : t.out = s.out ++ outs) : .rsp s.port refusal ∉ outs := by
  have added : ∀ {l}, Responses s.port l s t → responsesOn s.port outs = l := by
    intro l hl
    have hl := hl s.port
    rw [ho, responsesOn_append, if_pos rfl] at hl
    exact List.append_cancel_left hl
  intro hmem
  have hmem := mem_responsesOn hmem
  rcases h with ⟨ok, d, hl⟩ | ⟨hl, _⟩
  · rw [added hl, List.mem_singleton] at hmem
    cases hmem
  · rw [added hl] at hmem
    cases hmem

/-- Settles O12: an operation is the service of a request, which refuses it unless the port accepts it; what runs is
answered otherwise. -/
theorem portsAcceptTheirOperations : Obligations.PortsAcceptTheirOperations := by
  intro i s hf hr
  refine ⟨fun hn => ?_, fun hp he t h => ?_⟩
  · refine exec_refused hf hr ?_
    rw [Bool.eq_false_iff, ne_eq, accepts_iff]
    rintro ⟨hp, he⟩
    rcases hn with hn | ⟨hi, h0⟩
    · exact hn hp
    · simp [he hi] at h0
  · obtain ⟨outs, ho⟩ := (Transparent.exec i).out_eq h
    rw [ho, List.drop_left]
    exact (exec_answered hf hr (accepts_iff.mpr ⟨hp, he⟩) h).no_refusal ho

/-- Settles O14: a refusal is one response beside an unchanged block; what runs is answered once, or is an `ENCODE`. -/
theorem oneResponsePerRequest : Obligations.OneResponsePerRequest := by
  intro i s t hf hr h
  have self : ∀ {l}, Responses s.port l s t → responsesOn s.port t.out = responsesOn s.port s.out ++ l :=
    fun hl => by rw [hl s.port, if_pos rfl]
  cases ha : accepts i s with
  | false =>
    have hone : Responses s.port [refusal] s t := by
      rw [exec_refused hf hr ha] at h
      cases h
      exact .one rfl
    refine ⟨fun p hp => hone.on_other hp, .inl ⟨refusal, self hone, fun _ => ⟨rfl, ?_⟩⟩⟩
    rw [exec_refused hf hr ha] at h
    cases h
    rfl
  | true =>
    rcases exec_answered hf hr ha h with ⟨ok, d, hl⟩ | ⟨hl, hb, henc⟩
    · exact ⟨fun p hp => hl.on_other hp, .inl ⟨_, self hl, nofun⟩⟩
    · exact ⟨fun p hp => hl.on_other hp, .inr ⟨(self hl).trans (List.append_nil _), hb, henc⟩⟩

/-- Settles O13: port `m` is not ready, so its request is not accepted; and the turn of what waits is the next attempt
of the `ENCODE`, which leaves the inputs as they are. -/
theorem mainFlowWaitsForItsEncode : Obligations.MainFlowWaitsForItsEncode := by
  refine ⟨fun i s hf hp hb => exec_notReady hf (by simp [hp, hb]), fun s x w rest hb hin hx => ?_⟩
  have hwait : (x.isMain && s.blk.encBusy) = true := by
    simp only [List.mem_cons, List.not_mem_nil, or_false] at hx
    rw [hb, Bool.and_true]
    rcases hx with rfl | rfl | rfl <;> rfl
  calc step s = encodeStep s.quiet := (step_cons hin).trans (takeTurn_waiting rest hwait)
    _ = andThen (encodeStep (s.take [])) fun t => .next (t.behind s.inputs []) :=
      Transparent.encodeStep (s.take []) s.inputs []
    _ = _ := congrArg (andThen · _) (step_resume (s := { s with inputs := [.resume] }) rfl hb).symm

end Sys2Proof.Machine

namespace Sys2Proof.Machine

/-! ### Index ranges, and accesses outside them (R6, R61) -/

/-- Settles O22: an index is below `N` and `count` at most `N`, and a width of R6 is a logarithm rounded up. -/
theorem indicesFitTheirRegisters : Obligations.IndicesFitTheirRegisters := by
  intro q hi
  have hindex : q.cap ≤ 2 ^ indexWidth q.cap :=
    (Nat.le_pow_clog Nat.one_lt_two _).trans (Nat.pow_le_pow_right Nat.two_pos (Nat.le_max_right _ _))
  have hcount : q.cap + 1 ≤ 2 ^ countWidth q.cap := Nat.le_pow_clog Nat.one_lt_two _
  exact ⟨hi.start_lt.trans_le hindex, hi.end_lt.trans_le hindex, (Nat.lt_succ_of_le hi.count_le).trans_le hcount⟩

theorem Block.push_outside {b : Block} {q : QSel} (v : Byte) (hc : (b.queue q).count ≠ (b.queue q).cap)
    (he : (b.queue q).cap ≤ (b.queue q).endIdx) : b.push q v = .error (.slotOutOfRange q (b.queue q).endIdx) := by
  simp [Block.push, Queue.push, Queue.full, hc, memWrite, Nat.not_lt.mpr he]

theorem Block.pop_outside {b : Block} {q : QSel} (hc : (b.queue q).count ≠ 0)
    (hs : (b.queue q).cap ≤ (b.queue q).startIdx) : b.pop q = .error (.slotOutOfRange q (b.queue q).startIdx) := by
  simp [Block.pop, Queue.pop, Queue.empty, hc, memRead, Nat.not_lt.mpr hs]

/-- Settles O23: the one access of a push is at `end`, that of a pop at `start`. -/
theorem accessOutsideStorageFaults : Obligations.AccessOutsideStorageFaults := by
  intro q b s hm
  refine ⟨fun hc he => ?_, fun hc hs => ?_⟩
  · rw [exec_qPush_main hm, Block.push_outside b hc he]; rfl
  · rw [exec_qPop_main hm, Block.pop_outside hc hs]; rfl

/-! ### Steps, reset, and initialisations (R37, R69, R74) -/

/-- Settles O11: what a step takes is decoded and run on the state with the input taken. -/
theorem stepRunsTheDecodedInstruction : Obligations.StepRunsTheDecodedInstruction := by
  refine ⟨fun s p w i rest hin hd hr => ?_, fun s r w i rest hin hd hr => ?_⟩
  · rw [step_request hin hr, serveRequest, hd]
    rfl
  · have hturn : ((Stimulus.packet r w).isMain && s.blk.encBusy) = false := by
      rcases hr with rfl | hb
      · rfl
      · rw [hb, Bool.and_false]
    rw [step_cons hin, takeTurn_packet rest hturn, servePacket, hd]
    rfl

/-- Settles O49: the state after reset is written out in `Block.fresh`; a capacity is one more than a constant. -/
theorem resetValues : Obligations.ResetValues :=
  ⟨rfl, rfl, rfl, rfl, rfl, rfl, rfl, rfl, rfl, Nat.succ_pos _, Nat.succ_pos _, fun _ => rfl, fun _ => rfl,
    fun p => by cases p <;> rfl⟩

/-- Settles O50: fresh queues keep the invariant, and none of their bytes is queued. -/
theorem resetMeetsTheInvariant : Obligations.ResetMeetsTheInvariant :=
  ⟨.fresh (Nat.succ_pos _) (Nat.succ_pos _), .of_count rfl⟩

/-- Settles O55: an edge with reset serves no port, and `resetEdge` gives each of the fields. -/
theorem resetEdgeRestoresTheStart : Obligations.ResetEdgeRestoresTheStart := fun s _ rest hin hr =>
  ⟨resetEdge (s.take rest), (step_cons hin).trans (clockEdge_reset hr _), rfl, rfl, rfl, rfl, rfl, rfl, rfl, rfl, rfl⟩

/-- An operation of the main flow that changes the block by `m`, and answers: done twice it changes it as done once if
`m` does and leaves `enc_busy`. -/
theorem done_twice {i : Instr} {s : State} {m : Block → Block} (hm : MainReady s)
    (hx : ∀ s, MainReady s → exec i s = .next ({ s with blk := m s.blk }.respond .m true 0))
    (hb : (m s.blk).encBusy = s.blk.encBusy) (htwice : m (m s.blk) = m s.blk) :
    ∃ t u, exec i s = .next t ∧ exec i t = .next u ∧ u.blk = t.blk :=
  ⟨_, _, hx s hm, hx _ ⟨hm.1, hb.trans hm.2⟩, htwice⟩

/-- Settles O59: each is a change of the block that done twice is as done once. -/
theorem initialisationsAreIdempotent : Obligations.InitialisationsAreIdempotent := by
  intro i s hm hi
  simp only [List.mem_cons, List.not_mem_nil, or_false] at hi
  rcases hi with rfl | rfl | rfl | rfl | rfl
  · exact done_twice (m := id) hm (fun s hm => (exec_nop_ready (mainReady_reqReady hm)).trans
      (congrArg (fun p => Host.Outcome.next (s.respond p true 0)) hm.1)) rfl rfl
  · exact done_twice (m := (Block.initQueue · .rxq)) hm (fun s hm => exec_qInit_main hm .rxq) rfl rfl
  · exact done_twice (m := (Block.initQueue · .txq)) hm (fun s hm => exec_qInit_main hm .txq) rfl rfl
  · exact done_twice (m := Block.tpInit) hm (fun s hm => exec_tpInit_main hm) rfl rfl
  · exact done_twice (m := fun b => { b with position := 0 }) hm (fun s hm => exec_frInit_main hm) rfl rfl

end Sys2Proof.Machine

namespace Sys2Proof.Machine

/-! ### A packet is carried whatever the port and the way are (R97, R100, R126) -/

/-- The state with the port and the way put elsewhere. -/
def State.placed (s : State) (p : Port) (r : Route) : State := (s.onPort p).onRoute r

/-- A transition that neither reads nor writes the port and the way. -/
def Placeless (k : State → Host.Outcome State Fault Refusal) : Prop :=
  ∀ s p r, k (s.placed p r) = andThen (k s) fun t => .next (t.placed p r)

theorem Placeless.rxEventStep (v : Byte) : Placeless (rxEventStep v) := by
  intro s p r
  have hblk : (s.placed p r).blk = s.blk := rfl
  simp only [Machine.rxEventStep, hblk]
  cases s.blk.push .rxq v <;> rfl

theorem Placeless.encodeStep : Placeless encodeStep := by
  intro s p r
  have hblk : (s.placed p r).blk = s.blk := rfl
  simp only [Machine.encodeStep, hblk]
  rcases s.blk.encodeAttempt with _ | ⟨_ | _, _⟩ <;> rfl

theorem Placeless.encodeFirst (f : Frame) : Placeless (encodeFirst f) :=
  fun s p r => Placeless.encodeStep (s.loadEncode f) p r

/-- Where the port alone was put first, the placing is as without it. -/
theorem Placeless.onPort {k : State → Host.Outcome State Fault Refusal} (h : Placeless k) (s : State) (q p : Port)
    (r : Route) : (andThen (k (s.onPort q)) fun t => .next (t.placed p r)) = k (s.placed p r) :=
  (h (s.onPort q) p r).symm

/-- A request run as the only input on port `q`, then put back behind the inputs `rest`, is the transition where it is
put. -/
theorem Placeless.asRequest {k : State → Host.Outcome State Fault Refusal} (h : Placeless k) (hk : Transparent k)
    (s : State) (q p : Port) (r : Route) (rest : List Stimulus) :
    (andThen (k ((s.take []).onPort q)) fun t => .next ((t.behind rest []).placed p r)) =
      k ((s.take rest).placed p r) := by
  have hput : k ((s.take rest).onPort q) = andThen (k ((s.take []).onPort q)) fun t => .next (t.behind rest []) :=
    hk ((s.take []).onPort q) rest []
  rw [← h.onPort _ q, hput, andThen_assoc]
  rfl

/-! ### Out through `ENCODE` (R100, R180) -/

/-- A packet on its way out, with no `ENCODE` under way, is the first step of one (R100). -/
theorem carryPacket_send {s : State} (hr : s.route = .send) (hb : s.blk.encBusy = false) (f : Frame) :
    carryPacket f s = encodeFirst (enc5 f.command f.parameter1 f.parameter2 f.parameter3) s := by
  simp [carryPacket, hr, hb]

/-- Settles O48: the packet's step and the request's are the first step of one `ENCODE`, which reads neither the port
nor the way nor the inputs. -/
theorem wireCommandIsSentByEncode : Obligations.WireCommandIsSentByEncode := by
  refine ⟨fun s w rest hin hb => ?_, fun i r s hw hr hm hi => ?_⟩
  · have hturn : ((Stimulus.packet .send w).isMain && s.blk.encBusy) = false := by rw [hb, Bool.and_false]
    have hrequest := step_encode (s := { s with inputs :=
      [.request .m (encode (.encode (wordByte w 4) (wordByte w 3) (wordByte w 2) (wordByte w 1)))] }) hb
      (decodeOfEncodeIsTheInstruction (.encode _ _ _ _)) rfl
    rw [hrequest]
    calc step s = servePacket .send w (s.take rest) := (step_cons hin).trans (takeTurn_packet rest hturn)
      _ = encodeFirst _ ((s.take rest).placed s.port .send) :=
        (servePacket_eq .send w _).trans (carryPacket_send (s := (s.take rest).onRoute .send) rfl hb _)
      _ = _ := ((Placeless.encodeFirst _).asRequest (Transparent.encodeFirst _) s .m s.port .send rest).symm
  · refine ⟨?_, (Tame.exec i).answers hi⟩
    rw [exec_wireCommand hw, carryPacket_send hr hm.2, exec_encode_main hm]

/-! ### In on the receive line (R126) -/

/-- The requests `RX_EVENT b` on `drx` for the bytes of a list, in order. -/
def rxRequests (bs : List Byte) : List Stimulus := bs.map fun b => .request .drx (encode (.rxEvent b))

theorem serveRequest_rxEvent (s : State) (b : Byte) :
    serveRequest .drx (encode (.rxEvent b)) s = rxEventStep b (s.onPort .drx) := by
  have hd : decode .req (encode (.rxEvent b)) = .ok (.rxEvent b) := decodeOfEncodeIsTheInstruction (.rxEvent b)
  rw [serveRequest, hd]
  exact exec_rxEvent_drx rfl b

/-- Steps in a row, one for each byte of a list, as a chain. -/
theorem foldl_andThen (k : Byte → State → Host.Outcome State Fault Refusal) (bs : List Byte)
    (o : Host.Outcome State Fault Refusal) :
    bs.foldl (fun o v => andThen o (k v)) o = andThen o fun s => bs.foldl (fun o v => andThen o (k v)) (.next s) := by
  induction bs generalizing o with
  | nil => exact (andThen_next_right o).symm
  | cons v bs ih =>
    simp only [List.foldl_cons]
    rw [ih, andThen_assoc]
    exact andThen_congr fun s _ => (ih (k v s)).symm

/-- `RX_EVENT` requests taken one by one are the steps of their bytes in order, wherever the port and the way are put
afterwards. -/
theorem performThen_rxRequests (p : Port) (r : Route) (bs : List Byte) (s : State) :
    (andThen (performThen s.inputs (rxRequests bs) s s.out) fun t => .next (t.placed p r)) =
      bs.foldl (fun o v => andThen o (rxEventStep v)) (.next (s.placed p r)) := by
  induction bs generalizing s with
  | nil => rfl
  | cons b bs ih =>
    have hturn := takeTurn_request (p := .drx) (w := encode (.rxEvent b))
      (s := { s with inputs := [.request .drx (encode (.rxEvent b))] }) [] rfl
    rw [rxRequests, List.map_cons, performThen_cons hturn (Transparent.serveRequest _ _), List.foldl_cons, andThen_next,
      foldl_andThen, ← (Placeless.rxEventStep b).onPort s .drx, andThen_assoc, andThen_assoc]
    have hfirst : serveRequest .drx (encode (.rxEvent b)) { s with inputs := s.inputs, out := s.out } =
        rxEventStep b (s.onPort .drx) := serveRequest_rxEvent s b
    rw [hfirst]
    refine andThen_congr fun u hu => ?_
    have hin : u.inputs = s.inputs := (Transparent.rxEventStep b).inputs_eq (s := s.onPort .drx) hu
    rw [← hin]
    exact ih u

/-- Settles O45: both the packet and the requests are the `RX_EVENT` steps of its five bytes in wire order. -/
theorem packetOnTheLineIsFiveRxEvents : Obligations.PacketOnTheLineIsFiveRxEvents := by
  intro s w rest hin
  have hbytes := performThen_rxRequests s.port .line (frameBytes (pktFrame w)) (s.take rest)
  calc step s = servePacket .line w (s.take rest) := (step_cons hin).trans (takeTurn_packet rest rfl)
    _ = (frameBytes (pktFrame w)).foldl (fun o v => andThen o (rxEventStep v))
          (.next ((s.take rest).placed s.port .line)) := servePacket_eq .line w _
    _ = _ := hbytes.symm.trans (andThen_assoc _ _ _)

end Sys2Proof.Machine

namespace Sys2Proof.Machine

/-! ### Bytes received in a row (R126, R152) -/

/-- From `s` to `t` the bytes `bs` arrived: all joined the receive stream, those that found room joined `RXQ`, and
each was answered on `drx`. -/
structure Received (bs : List Byte) (s t : State) : Prop where
  inv : BlockInv t.blk
  cap_eq : t.blk.rxq.cap = s.blk.rxq.cap
  contents_eq :
    contents .rxq t.blk.rxq = contents .rxq s.blk.rxq ++ bs.take (s.blk.rxq.cap - s.blk.rxq.count)
  frame : t = { s with
    blk := { s.blk with rxq := t.blk.rxq }, rxStream := s.rxStream ++ bs, out := t.out }
  out_eq : t.out = s.out ++ (List.range bs.length).map fun k =>
    .rsp .drx (done (decide (s.blk.rxq.count + k < s.blk.rxq.cap)) 0)

theorem Received.count_eq {bs : List Byte} {s t : State} (h : Received bs s t) :
    t.blk.rxq.count = s.blk.rxq.count + min (s.blk.rxq.cap - s.blk.rxq.count) bs.length := by
  rw [← contents_length .rxq, h.contents_eq, List.length_append, contents_length, List.length_take]

theorem Received.nil {s : State} (hi : BlockInv s.blk) : Received [] s s where
  inv := hi
  cap_eq := rfl
  contents_eq := by rw [List.take_nil, List.append_nil]
  frame := by rw [List.append_nil]
  out_eq := (List.append_nil _).symm

theorem Received.trans {as bs : List Byte} {s t u : State} (h : Received as s t) (h' : Received bs t u) :
    Received (as ++ bs) s u where
  inv := h'.inv
  cap_eq := h'.cap_eq.trans h.cap_eq
  contents_eq := by
    have hroom : t.blk.rxq.cap - t.blk.rxq.count = s.blk.rxq.cap - s.blk.rxq.count - as.length := by
      rw [h.cap_eq, h.count_eq]; omega
    rw [h'.contents_eq, h.contents_eq, hroom, List.take_append, List.append_assoc]
  frame := by
    rw [h'.frame, h.frame, ← List.append_assoc]
  out_eq := by
    have hlate : ∀ k, decide (t.blk.rxq.count + k < t.blk.rxq.cap) =
        decide (s.blk.rxq.count + (as.length + k) < s.blk.rxq.cap) := by
      intro k
      rw [h.cap_eq, h.count_eq, decide_eq_decide]
      omega
    simp only [h'.out_eq, h.out_eq, hlate, List.length_append, List.range_add, List.map_append, List.map_map,
      List.append_assoc]
    rfl

/-- An `RX_EVENT` stores its byte if it finds room, and answers (R152, R153). -/
theorem rxEventStep_received {s : State} (hi : BlockInv s.blk) (v : Byte) :
    ∃ t, rxEventStep v s = .next t ∧ Received [v] s t := by
  by_cases hc : s.blk.rxq.count = s.blk.rxq.cap
  · refine ⟨{ s with rxStream := s.rxStream ++ [v] }.respond .drx false 0, ?_, ⟨hi, rfl, ?_, rfl, ?_⟩⟩
    · rw [rxEventStep, Block.push_full _ .rxq v hc]; rfl
    · simp [hc]
    · simp [hc, done]
  · have hlt : s.blk.rxq.count < s.blk.rxq.cap := Nat.lt_of_le_of_ne hi.rx.count_le hc
    refine ⟨{ s with
      rxStream := s.rxStream ++ [v], blk := s.blk.setQueue .rxq (s.blk.rxq.pushed v) }.respond .drx true 0, ?_,
      ⟨hi.setQueue .rxq (hi.rx.pushed v hc), rfl, ?_, rfl, ?_⟩⟩
    · rw [rxEventStep, Block.push_room _ .rxq v hc hi.rx.end_lt]; rfl
    · exact (contents_pushed .rxq v hi.rx hlt).trans (by rw [List.take_of_length_le (by simp; omega)])
    · simp [hlt, done]

/-- `RX_EVENT` steps in a row, where the invariant holds. -/
theorem foldl_rxEventStep (bs : List Byte) {s : State} (hi : BlockInv s.blk) :
    ∃ t, bs.foldl (fun o v => andThen o (rxEventStep v)) (.next s) = .next t ∧ Received bs s t := by
  induction bs generalizing s with
  | nil => exact ⟨s, rfl, .nil hi⟩
  | cons v bs ih =>
    obtain ⟨u, hu, hv⟩ := rxEventStep_received hi v
    obtain ⟨t, ht, hbs⟩ := ih hv.inv
    exact ⟨t, by rw [List.foldl_cons, andThen_next, hu, ht], hv.trans hbs⟩

/-- A wire command on the receive line is its five bytes received, which are at most five pushes. -/
theorem exec_wire_line {i : Instr} {r : Frame} {s : State} (hw : wireBytes i = some r) (hr : s.route = .line)
    (hi : BlockInv s.blk) :
    ∃ t, exec i s = .next t ∧ Received (frameBytes r) s t ∧ PushedUpTo 5 s.blk.rxq t.blk.rxq := by
  obtain ⟨t, ht, hrec⟩ := foldl_rxEventStep (frameBytes r) hi
  have hx : exec i s = eachByte rxEventStep r s := by rw [exec_wireCommand hw, carryPacket, hr]
  exact ⟨t, hx.trans ht, hrec, eachByte_rxEventStep_pushedUpTo ht⟩

/-- Settles O46: what the five bytes leave is said by `Received`; how many of them were pushed gives `end` and the
slots. -/
theorem wireCommandArrivesInTheReceiveQueue : Obligations.WireCommandArrivesInTheReceiveQueue := by
  intro i r s hw hr hi
  obtain ⟨t, ht, hrec, m, _, hcap, hstart, hcount, hend0, hend, hread⟩ := exec_wire_line hw hr hi
  have hle := hi.rx.count_le
  have hm : min 5 (s.blk.rxq.cap - s.blk.rxq.count) = m := by
    have hlen : t.blk.rxq.count = s.blk.rxq.count + min (s.blk.rxq.cap - s.blk.rxq.count) 5 := hrec.count_eq
    omega
  rw [hm]
  refine ⟨t, ht, hrec.contents_eq, hrec.frame, hcap, hstart, by omega, ?_, hread, hrec.out_eq⟩
  by_cases h0 : m = 0
  · rw [hend0 h0, h0, Nat.add_zero, Nat.mod_eq_of_lt hi.rx.end_lt]
  · exact hend h0

end Sys2Proof.Machine

namespace Sys2Proof.Machine

/-! ### The streams after an instruction (R60) -/

/-- From `s` to `t` the streams are as they were, but for what the instruction may write: a `TX_EVENT` the transmit
stream, an `RX_EVENT` and a packet on the line the receive stream. -/
def KeepsStreams (i : Instr) (s t : State) : Prop :=
  (i ≠ .txEvent → t.txStream = s.txStream) ∧
  ((∀ b, i ≠ .rxEvent b) → (∀ f, wireBytes i = some f → s.route ≠ .line) → t.rxStream = s.rxStream)

theorem KeepsStreams.both {i : Instr} {s t : State} (h : t.txStream = s.txStream ∧ t.rxStream = s.rxStream) :
    KeepsStreams i s t := ⟨fun _ => h.1, fun _ _ => h.2⟩

theorem encodeFirst_streams {f : Frame} {s t : State} (h : encodeFirst f s = .next t) :
    t.txStream = s.txStream ∧ t.rxStream = s.rxStream := encodeStep_streams (s := s.loadEncode f) h

theorem exec_request_streams {i : Instr} {s t : State} (hf : i.format = .req) (h : exec i s = .next t) :
    KeepsStreams i s t := by
  cases i <;> cases hf
  all_goals
    simp only [exec, execNop, execQInit, execQPush, execQPop, execTpInit, execRxEvent, execTxEvent, execTryRecv,
      execTrySend, execFrInit, execFeed, execPoll, execEncode] at h
    rcases serve_cases h with ⟨_, rfl⟩ | ⟨_, _, rfl⟩ | ⟨_, _, ho⟩
    · exact .both ⟨rfl, rfl⟩
    · exact .both ⟨rfl, rfl⟩
  case nop | qInit | tpInit | frInit => cases ho; exact .both ⟨rfl, rfl⟩
  case qPush | trySend => exact .both (finishPush_streams ho)
  case qPop | tryRecv => exact .both (finishPop_streams ho)
  case rxEvent => exact ⟨fun _ => (rxEventStep_streams ho).1, fun hn => absurd rfl (hn _)⟩
  case txEvent =>
    refine ⟨fun hn => absurd rfl hn, fun _ _ => ?_⟩
    split at ho <;> cases ho <;> rfl
  case feed => exact .both (feedStep_streams ho)
  case poll =>
    split at ho
    · cases ho
    · have hs := feedStep_streams ho
      exact .both hs
    · cases ho; exact .both ⟨rfl, rfl⟩
  case encode => exact .both (encodeFirst_streams ho)

theorem exec_wire_streams {i : Instr} {f : Frame} {s t : State} (hw : wireBytes i = some f) (h : exec i s = .next t) :
    KeepsStreams i s t := by
  rw [exec_wireCommand hw, carryPacket] at h
  split at h
  next hr =>
    have hsent := eachByte_rel (R := fun s t => t.txStream = s.txStream) (fun _ _ _ h1 h2 => h2.trans h1)
      (fun _ _ _ h => (rxEventStep_streams h).1) h
    exact ⟨fun _ => hsent, fun _ hn => absurd hr (hn f hw)⟩
  · split at h
    · exact .both (eachByte_rel (R := fun s t => t.txStream = s.txStream ∧ t.rxStream = s.rxStream)
        (fun _ _ _ h1 h2 => ⟨h2.1.trans h1.1, h2.2.trans h1.2⟩) (fun _ _ _ => feedStep_streams) h)
    · cases h; exact .both ⟨rfl, rfl⟩
  · split at h
    · exact .both (encodeFirst_streams h)
    · cases h; exact .both ⟨rfl, rfl⟩

/-- Every instruction keeps the streams, but for what it may write. -/
theorem exec_streams {i : Instr} {s t : State} (h : exec i s = .next t) : KeepsStreams i s t := by
  rcases req_or_wire i with hf | ⟨f, hw⟩
  · exact exec_request_streams hf h
  · exact exec_wire_streams hw h

/-! ### The transmit stream (R160 (b)) -/

/-- From `q` to `Q` at most one byte joined `TXQ`, the one on offer, and only with room. -/
def EnqueuedOffer (o : Option Byte) (q Q : Queue) : Prop :=
  ∃ added, contents .txq Q = contents .txq q ++ added ∧
    (added ≠ [] → q.count < q.cap ∧ ∃ b, o = some b ∧ added = [b])

theorem EnqueuedOffer.same {o : Option Byte} {q Q : Queue} (h : Q = q) : EnqueuedOffer o q Q :=
  ⟨[], by rw [h, List.append_nil], fun hn => absurd rfl hn⟩

theorem EnqueuedOffer.pushed {q : Queue} (hi : QueueInv q) (hc : q.count ≠ q.cap) (v : Byte) :
    EnqueuedOffer (some v) q (q.pushed v) :=
  have hlt := Nat.lt_of_le_of_ne hi.count_le hc
  ⟨[v], contents_pushed .txq v hi hlt, fun _ => ⟨hlt, v, rfl, rfl⟩⟩

/-- The first attempt of an `ENCODE` offers the command byte (R180). -/
theorem EnqueuedOffer.encodeFirst {b B : Block} {f : Frame} {r : Option Bool} (hi : QueueInv b.txq)
    (h : (b.encodeStart f).encodeAttempt = .ok (r, B)) : EnqueuedOffer (some f.command) b.txq B.txq := by
  rcases Block.encodeAttempt_cases h with ⟨_, _, _, rfl⟩ | ⟨h4, _⟩ | ⟨_, hc, _, _, rfl⟩ | ⟨h5, _⟩
  · exact .same rfl
  · cases h4
  · exact .pushed hi hc f.command
  · exact absurd h5 (Nat.not_succ_le_zero 4)

theorem offered_wire {i : Instr} {f : Frame} (hw : wireBytes i = some f) : offered i .send = some f.command := by
  cases i <;> simp_all [offered, wireBytes]

/-- What an instruction other than a pop or an initialisation of `TXQ` does to it. -/
theorem Effect.enqueuedOffer {i : Instr} {s : State} {B : Block} (he : Effect i s B) (hi : BlockInv s.blk)
    (hq : directQueue i = false) (hn : i ≠ .tpInit) (hx : i ≠ .txEvent) :
    EnqueuedOffer (offered i s.route) s.blk.txq B.txq := by
  cases he with
  | none | frInit => exact .same rfl
  | qInit | qPush | qPop => cases hq
  | tpInit => exact absurd rfl hn
  | txSome | txNone => exact absurd rfl hx
  | rxEvent h =>
    obtain ⟨_, htxq, _⟩ := Block.push_frame h
    exact .same (htxq (by decide))
  | tryRecv h | pollNone h =>
    obtain ⟨_, htxq, _⟩ := Block.pop_frame h
    exact .same (htxq (by decide))
  | trySend h =>
    rcases Block.trySend_cases h with ⟨_, _, rfl⟩ | ⟨hc, _, _, rfl⟩
    · exact .same rfl
    · exact .pushed hi.tx hc _
  | feed =>
    obtain ⟨_, htxq, _⟩ := s.blk.feed_frame _
    exact .same htxq
  | @poll _ v B' h =>
    obtain ⟨_, htxq, _⟩ := Block.pop_frame h
    obtain ⟨_, htxq', _⟩ := B'.feed_frame v
    exact .same (htxq'.trans (htxq (by decide)))
  | encode h => exact .encodeFirst hi.tx h
  | line _ _ h =>
    obtain ⟨htxq, _⟩ := eachByte_rxEventStep_frame h
    exact .same htxq
  | wfeed _ _ h =>
    obtain ⟨_, htxq, _⟩ := eachByte_feedStep_frame h
    exact .same htxq
  | @send _ f _ _ _ hw hr h =>
    have hoffer : offered i s.route = some (enc5 f.command f.parameter1 f.parameter2 f.parameter3).command := by
      rw [hr, offered_wire hw]; rfl
    rw [hoffer]
    exact .encodeFirst hi.tx h

/-- A `TX_EVENT` hands over the oldest byte of `TXQ`, or nothing (R154, R155). -/
theorem exec_txEvent_gone {s t : State} (hi : QueueInv s.blk.txq) (h : exec .txEvent s = .next t) :
    ∃ gone, t.txStream = s.txStream ++ gone ∧ gone ++ contents .txq t.blk.txq = contents .txq s.blk.txq ∧
      gone.length ≤ 1 := by
  have nothing {t : State} (hs : t.txStream = s.txStream) (hq : t.blk.txq = s.blk.txq) :
      ∃ gone, t.txStream = s.txStream ++ gone ∧ gone ++ contents .txq t.blk.txq = contents .txq s.blk.txq ∧
        gone.length ≤ 1 := ⟨[], by rw [hs, List.append_nil], by rw [hq, List.nil_append], Nat.zero_le 1⟩
  rw [exec, execTxEvent] at h
  rcases serve_cases h with ⟨_, rfl⟩ | ⟨_, _, rfl⟩ | ⟨_, _, ho⟩
  · exact nothing rfl rfl
  · exact nothing rfl rfl
  · split at ho
    · cases ho
    · next v B hp =>
      rcases Block.pop_cases hp with ⟨_, hv, _⟩ | ⟨hc, _, hv, rfl⟩
      · cases hv
      · cases hv
        cases ho
        exact ⟨[_], rfl, (contents_popped .txq hi hc).symm, Nat.le_refl 1⟩
    · next B hp =>
      rcases Block.pop_cases hp with ⟨_, _, rfl⟩ | ⟨_, _, hv, _⟩
      · cases ho; exact nothing rfl rfl
      · cases hv

/-- Settles O30: a `TX_EVENT` hands over and enqueues nothing; every other instruction hands over nothing and enqueues
at most what it offers. -/
theorem transmitStreamIsWhatWasEnqueued : Obligations.TransmitStreamIsWhatWasEnqueued := by
  intro i s t hi hq hn h
  by_cases hx : i = .txEvent
  · subst hx
    obtain ⟨gone, hs, hc, hlen⟩ := exec_txEvent_gone hi.tx h
    refine ⟨gone, [], hs, by rw [hc, List.append_nil], fun hne => ⟨rfl, ?_⟩, fun hne => absurd rfl hne⟩
    have := List.length_pos_of_ne_nil hne
    omega
  · obtain ⟨added, hc, hadded⟩ := (exec_effect h).enqueuedOffer hi hq hn hx
    exact ⟨[], added, by rw [(exec_streams h).1 hx, List.append_nil], hc, fun hne => absurd rfl hne, hadded⟩

/-! ### The receive side (R160 (c)) -/

/-- A pop of `RXQ` takes its oldest byte, or nothing. -/
theorem Block.pop_taken {b B : Block} {v : Option Byte} (hi : QueueInv b.rxq) (h : b.pop .rxq = .ok (v, B)) :
    ∃ taken, contents .rxq b.rxq = taken ++ contents .rxq B.rxq ∧ taken.length ≤ 1 := by
  rcases Block.pop_cases h with ⟨_, _, rfl⟩ | ⟨hc, _, _, rfl⟩
  · exact ⟨[], rfl, Nat.zero_le 1⟩
  · exact ⟨[_], contents_popped .rxq hi hc, Nat.le_refl 1⟩

/-- A `TRY_RECV` and a `POLL` take at most one byte. -/
theorem Effect.taken {i : Instr} {s : State} {B : Block} (he : Effect i s B) (hi : QueueInv s.blk.rxq)
    (hx : i = .tryRecv ∨ i = .poll) :
    ∃ taken, contents .rxq s.blk.rxq = taken ++ contents .rxq B.rxq ∧ taken.length ≤ 1 := by
  cases he with
  | none => exact ⟨[], rfl, Nat.zero_le 1⟩
  | tryRecv h | pollNone h => exact Block.pop_taken hi h
  | @poll _ v B' h =>
    obtain ⟨hrxq, _⟩ := B'.feed_frame v
    rw [hrxq]
    exact Block.pop_taken hi h
  | line hw | wfeed hw | send hw => rcases hx with rfl | rfl <;> cases hw
  | _ => rcases hx with hx | hx <;> cases hx

/-- An `RX_EVENT` receives its byte, or is refused. -/
theorem exec_rxEvent_received {b : Byte} {s t : State} (hi : BlockInv s.blk) (h : exec (.rxEvent b) s = .next t) :
    (t.blk = s.blk ∧ t.rxStream = s.rxStream) ∨ Received [b] s t := by
  rw [exec, execRxEvent] at h
  rcases serve_cases h with ⟨_, rfl⟩ | ⟨_, _, rfl⟩ | ⟨_, _, ho⟩
  · exact .inl ⟨rfl, rfl⟩
  · exact .inl ⟨rfl, rfl⟩
  · obtain ⟨u, hu, hrec⟩ := rxEventStep_received hi b
    cases ho.symm.trans hu
    exact .inr hrec

/-- Bytes received, all or those that fit. -/
theorem Received.stored {bs : List Byte} {s t : State} (h : Received bs s t) (hi : BlockInv s.blk) :
    ∃ stored, contents .rxq s.blk.rxq ++ stored = contents .rxq t.blk.rxq ∧ t.rxStream = s.rxStream ++ bs ∧
      stored <+: bs ∧ (stored.length < bs.length → t.blk.rxq.count = t.blk.rxq.cap) := by
  refine ⟨_, h.contents_eq.symm, by rw [h.frame], ⟨_, List.take_append_drop _ _⟩, fun hlt => ?_⟩
  have hle := hi.rx.count_le
  rw [List.length_take] at hlt
  rw [h.count_eq, h.cap_eq]
  omega

/-- An instruction that is none of those that take or bring bytes leaves `RXQ` (R45). -/
theorem writesRxq_quiet {i : Instr} {r : Route} (hq : directQueue i = false) (hn : i ≠ .tpInit)
    (hx : ¬ (i = .tryRecv ∨ i = .poll)) (he : ∀ b, i ≠ .rxEvent b) (hw : ∀ f, wireBytes i = some f → r ≠ .line) :
    writesRxq i r = false := by
  cases i <;> simp_all [writesRxq, wireBytes, directQueue]

/-- What an instruction does to the receive side: it receives bytes, or it leaves the stream and takes at most one
byte. -/
theorem exec_receive_cases {i : Instr} {s t : State} (hi : BlockInv s.blk) (hq : directQueue i = false)
    (hn : i ≠ .tpInit) (h : exec i s = .next t) :
    (∃ bs, Received bs s t ∧ ((∃ b, i = .rxEvent b ∧ bs = [b]) ∨
      (s.route = .line ∧ ∃ f, wireBytes i = some f ∧ bs = frameBytes f))) ∨
    (t.rxStream = s.rxStream ∧ ∃ taken, contents .rxq s.blk.rxq = taken ++ contents .rxq t.blk.rxq ∧
      (taken ≠ [] → (i = .tryRecv ∨ i = .poll) ∧ taken.length = 1)) := by
  have untouched (hrxq : t.blk.rxq = s.blk.rxq) : ∃ taken,
      contents .rxq s.blk.rxq = taken ++ contents .rxq t.blk.rxq ∧
        (taken ≠ [] → (i = .tryRecv ∨ i = .poll) ∧ taken.length = 1) :=
    ⟨[], by rw [hrxq, List.nil_append], fun hne => absurd rfl hne⟩
  by_cases hline : (∃ f, wireBytes i = some f) ∧ s.route = .line
  · obtain ⟨⟨f, hw⟩, hr⟩ := hline
    obtain ⟨u, hu, hrec, _⟩ := exec_wire_line hw hr hi
    cases h.symm.trans hu
    exact .inl ⟨_, hrec, .inr ⟨hr, f, hw, rfl⟩⟩
  by_cases hevent : ∃ b, i = .rxEvent b
  · obtain ⟨b, rfl⟩ := hevent
    rcases exec_rxEvent_received hi h with ⟨hb, hs⟩ | hrec
    · exact .inr ⟨hs, untouched (congrArg Block.rxq hb)⟩
    · exact .inl ⟨_, hrec, .inl ⟨b, rfl, rfl⟩⟩
  have hway : ∀ f, wireBytes i = some f → s.route ≠ .line := fun f hw hr => hline ⟨⟨f, hw⟩, hr⟩
  have hnoevent : ∀ b, i ≠ .rxEvent b := fun b hb => hevent ⟨b, hb⟩
  obtain ⟨_, hstream⟩ := exec_streams h
  refine .inr ⟨hstream hnoevent hway, ?_⟩
  by_cases hx : i = .tryRecv ∨ i = .poll
  · obtain ⟨taken, hc, hlen⟩ := (exec_effect h).taken hi.rx hx
    refine ⟨taken, hc, fun hne => ⟨hx, ?_⟩⟩
    have := List.length_pos_of_ne_nil hne
    omega
  · exact untouched ((exec_effect h).rxq_eq (writesRxq_quiet hq hn hx hnoevent hway))

/-- Settles O31: the bytes received that fit are stored; an instruction that receives none stores none and takes at most
one. -/
theorem receiveStreamIsWhatWasStored : Obligations.ReceiveStreamIsWhatWasStored := by
  intro i s t hi hq hn h
  rcases exec_receive_cases hi hq hn h with ⟨bs, hrec, hfrom⟩ | ⟨hs, taken, hc, htaken⟩
  · obtain ⟨stored, hc, hs, hstored, hfull⟩ := hrec.stored hi
    exact ⟨[], stored, bs, hc, hs, hstored, hfull, fun hne => absurd rfl hne, fun _ => hfrom⟩
  · exact ⟨taken, [], [], by rw [hc, List.append_nil], by rw [hs, List.append_nil], ⟨[], rfl⟩, nofun, htaken,
      fun hne => absurd rfl hne⟩

end Sys2Proof.Machine
